-- ==== Sys2Proof/Word.lean ====
section
/-! DEFINITION. The word types of the CORE (00_scope.md rule R6): every value is unsigned, bit 0 is the least
significant bit. -/

namespace Sys2Proof

/-- `u8` (R6): a byte of the transport, of the payload buffer and of the device. -/
abbrev Byte := BitVec 8

/-- `u16` (R6): protocol addresses, sizes, loop indexes and the register word. -/
abbrev Half := BitVec 16

/-- `u32` (R6): the sync accumulator (R22). -/
abbrev Acc := BitVec 32

end Sys2Proof
end

