-- ==== Sys2Proof/Config.lean ====
section
/-! DEFINITION. The named parameters of 00_scope.md rule R5. A parameter the source gives a value is a field of
`Literals`, with that value as its default; one the spec leaves OPEN is a field of `Params` (part of the state, changed
by no step); a value the spec leaves to chance ("a draw under no law") is an opaque function of a plain counter. -/

namespace Sys2Proof

/-- The parameters of R5 to which the source gives a value, each a field with that value as its normative default. The
spec calls the literals unaudited (D1): a corrected one is set in `Config.literals`, and no rule of the model is edited. -/
structure Config.Literals where
  /-- `CAP`: the device capacity in bytes. -/
  cap : Nat := 2048
  /-- `ABITS`: the device address width. -/
  abits : Nat := 11
  /-- `AMASK`: the encoder's address mask (R124). -/
  aMask : Half := 0x07FF
  /-- `WORD_BITS`: the width of the register word. -/
  wordBits : Nat := 16
  /-- `DIR_BIT`: the place of the direction bit in the register word (R98). -/
  dirBit : Nat := 15
  /-- `MAGIC`. -/
  magic : Acc := 0xCAFEBABE
  /-- `INVALID_ACT`: the resolved-action sentinel. -/
  invalidAct : Byte := 0xFF
  /-- `ACT_READ`. -/
  actRead : Byte := 0x00
  /-- `ACT_WRITE`. -/
  actWrite : Byte := 0x01
  /-- `HDR_BYTES`: command bytes after the magic. -/
  hdrBytes : Nat := 5
  /-- `DLINES`: the data lines. -/
  dLines : Nat := 8
  deriving DecidableEq, Repr

/-- How the valued parameters hang together: `CAP = 2^ABITS` (R5), `AMASK` keeps `ABITS` bits (R124), the direction bit
is the word's highest (R98), and the word is a `u16` and the data lines a `u8` (R38, R41). -/
abbrev Config.Literals.wf (l : Config.Literals) : Prop :=
  l.cap = 2 ^ l.abits ∧ l.aMask.toNat = 2 ^ l.abits - 1 ∧ l.dirBit + 1 = l.wordBits ∧ l.wordBits = 16 ∧ l.dLines = 8

/-- The valued parameters of this machine: every one at the source's value, the normative default (R5; log entry 8). -/
abbrev Config.literals : Config.Literals := {}

/-- `CAP`. -/
def Config.cap : Nat := Config.literals.cap
/-- `ABITS`. -/
abbrev Config.abits : Nat := Config.literals.abits
/-- `AMASK`. -/
def Config.aMask : Half := Config.literals.aMask
/-- `WORD_BITS`. -/
def Config.wordBits : Nat := Config.literals.wordBits
/-- `DIR_BIT`. -/
def Config.dirBit : Nat := Config.literals.dirBit
/-- `MAGIC`. -/
def Config.magic : Acc := Config.literals.magic
/-- `INVALID_ACT`. -/
def Config.invalidAct : Byte := Config.literals.invalidAct
/-- `ACT_READ`. -/
def Config.actRead : Byte := Config.literals.actRead
/-- `ACT_WRITE`. -/
def Config.actWrite : Byte := Config.literals.actWrite
/-- `HDR_BYTES`. -/
def Config.hdrBytes : Nat := Config.literals.hdrBytes
/-- `DLINES`. -/
abbrev Config.dLines : Nat := Config.literals.dLines

/-- The four bytes `MAGIC` is sent as, most significant first (R5, R90). -/
def Config.magicBytes : List Byte := [24, 16, 8, 0].map fun n => (Config.magic >>> n).setWidth 8

/-- A device address as it stands on the pins `sr_q[10:0]` (R60). -/
abbrev DevAddr := BitVec Config.abits

/-- The levels of the data lines, line i as bit i (R37, R38, R99). -/
abbrev Lines := BitVec Config.dLines

/-- What a device cell that is not listed in memory reads as.
DESIGN CHOICE (log entry 7), unsafe: the power-on contents MEM0 are any array (R42, D22). A state lists whatever MEM0
it has; only `State.reset`, which lists nothing, takes MEM0 to be all 00. -/
def Config.fill : Byte := 0x00

/-- The parameters R5 leaves OPEN. Times are in nanoseconds (DESIGN CHOICE, log entry 8, safe). -/
structure Config.Params where
  /-- `BUF_BYTES`: the largest payload buffer that can be allocated (D7). -/
  bufBytes : Nat
  /-- `T_WE`: how long write-enable is held low (D9). -/
  tWe : Nat
  /-- `T_SETTLE`: the write-cycle settle wait (D10). -/
  tSettle : Nat
  /-- `T_POLL`: the idle delay between polls (D8). -/
  tPoll : Nat
  /-- `T_SR`: the time per event of the shift-register lines (D4); only the lower bounds of R289 read it. -/
  tSr : Nat
  /-- `T_ACC`: the device's access time before a sample is valid (D12); only the lower bounds of R289 read it. -/
  tAcc : Nat
  /-- `T_WC`: the device's internal write-cycle time (D11). -/
  tWc : Nat
  deriving DecidableEq, Repr

/-- The bounds R5 puts on the OPEN parameters: T_WE at least 1 µs, T_SETTLE at least 10 ms, T_POLL above 0 and T_WC at
most T_SETTLE. -/
abbrev Config.Params.wf (p : Config.Params) : Prop :=
  1000 ≤ p.tWe ∧ 10000000 ≤ p.tSettle ∧ 0 < p.tPoll ∧ p.tWc ≤ p.tSettle

/-- The parameters `State.reset` takes: the source's default T_SETTLE, the least T_WE, T_POLL and T_SR the spec
allows, and the BUF_BYTES of the spec's test vectors (95_test_vectors.md).
DESIGN CHOICE (log entry 8), unsafe for a statement about the reset state alone. -/
def Config.Params.default : Config.Params :=
  { bufBytes := 65535, tWe := 1000, tSettle := 10000000, tPoll := 1, tSr := 0, tAcc := 0, tWc := 10000000 }

/-- The value on the data lines when nothing drives them, or when both sides do (R63, R64): any byte at each draw.
FREE VALUE (log entry 9). -/
opaque Config.busValue : Nat → Lines

/-- What the addressed cell holds after a reset inside its write (R282): any byte at each draw.
FREE VALUE (log entry 10). -/
opaque Config.tornByte : Nat → Byte

/-- The shift register's outputs after the n-th reset until the first strobe (R41, R64): any word.
FREE VALUE (log entry 6). -/
opaque Config.unlatchedWord : Nat → Half

end Sys2Proof
end

