-- ==== Sys2Proof/Syntax.lean ====
section
/-! DEFINITION. The CORE's instructions: the host commands, one constructor for each row of spec/opcode_table.json
(30_encoding.md rules R90, R91, R93). The variable payload of a WRITE is not part of the instruction (R91): it follows
on the inbound stream. -/

namespace Sys2Proof

/-- A host command. `addr` is frame bytes 5 and 6, `size` frame bytes 7 and 8; an INVALID row keeps its action byte
`act`, frame byte 4, whose fixed bits `Instr.wf` checks. -/
inductive Instr where
  /-- READ, action 0x00 (R206). -/
  | read (addr size : Half)
  /-- WRITE, action 0x01 (R207). -/
  | write (addr size : Half)
  /-- INVALID, actions 0x02 to 0x03 (R208). -/
  | invalid02 (act : Byte) (addr size : Half)
  /-- INVALID, actions 0x04 to 0x07 (R208). -/
  | invalid04 (act : Byte) (addr size : Half)
  /-- INVALID, actions 0x08 to 0x0F (R208). -/
  | invalid08 (act : Byte) (addr size : Half)
  /-- INVALID, actions 0x10 to 0x1F (R208). -/
  | invalid10 (act : Byte) (addr size : Half)
  /-- INVALID, actions 0x20 to 0x3F (R208). -/
  | invalid20 (act : Byte) (addr size : Half)
  /-- INVALID, actions 0x40 to 0x7F (R208). -/
  | invalid40 (act : Byte) (addr size : Half)
  /-- INVALID, actions 0x80 to 0xFF (R208). -/
  | invalid80 (act : Byte) (addr size : Half)
  deriving DecidableEq, Repr

end Sys2Proof
end

