-- ==== Sys2Proof/WellFormed.lean ====
section
/-! DEFINITION. When an instruction is one that the encoding can carry: the action byte of an INVALID row lies in the
row's block (30_encoding.md rule R93: match and mask on F[39:32]). Every address and size is legal (R94). -/

namespace Sys2Proof

/-- The action byte `act` has the fixed bits `pattern` under `mask` (R93). -/
def inBlock (mask pattern act : Byte) : Bool := act &&& mask == pattern

/-- The instruction's action byte is one of its row's. -/
def Instr.wf : Instr → Bool
  | .read _ _ => true
  | .write _ _ => true
  | .invalid02 act _ _ => inBlock 0xFE 0x02 act
  | .invalid04 act _ _ => inBlock 0xFC 0x04 act
  | .invalid08 act _ _ => inBlock 0xF8 0x08 act
  | .invalid10 act _ _ => inBlock 0xF0 0x10 act
  | .invalid20 act _ _ => inBlock 0xE0 0x20 act
  | .invalid40 act _ _ => inBlock 0xC0 0x40 act
  | .invalid80 act _ _ => inBlock 0x80 0x80 act

end Sys2Proof
end

