-- ==== Sys2Proof/Decode.lean ====
section
/-! DEFINITION. The decoder and the encoder of request frames (30_encoding.md rules R90 to R93): bytes to an instruction
and the rest of the stream, total on any bytes; and the opcode table's 72-bit word `F` (R91). -/

namespace Sys2Proof

/-- Why a byte string does not begin with a request frame's fixed part. -/
inductive DecodeError where
  /-- Fewer than nine bytes. -/
  | tooShort
  /-- The first four bytes are not `CA FE BA BE`. -/
  | badMagic
  deriving DecidableEq, Repr

/-- Two bytes as a big-endian `u16` (R92): the first is bits 15:8. -/
def joinBytes (hi lo : Byte) : Half := (hi.setWidth 16 <<< 8) ||| lo.setWidth 16

/-- Bits 15:8 of a `u16` (R92, R209). -/
def hiByte (v : Half) : Byte := (v >>> 8).setWidth 8

/-- Bits 7:0 of a `u16` (R92, R209). -/
def loByte (v : Half) : Byte := v.setWidth 8

/-- The command an action byte selects, with its operands (R93, R205). Every byte selects one. -/
def decodeCommand (act : Byte) (addr size : Half) : Instr :=
  if act = Config.actRead then .read addr size
  else if act = Config.actWrite then .write addr size
  else if inBlock 0xFE 0x02 act then .invalid02 act addr size
  else if inBlock 0xFC 0x04 act then .invalid04 act addr size
  else if inBlock 0xF8 0x08 act then .invalid08 act addr size
  else if inBlock 0xF0 0x10 act then .invalid10 act addr size
  else if inBlock 0xE0 0x20 act then .invalid20 act addr size
  else if inBlock 0xC0 0x40 act then .invalid40 act addr size
  else .invalid80 act addr size

/-- The instruction a byte string begins with, and the bytes after its fixed nine (R90, R92). -/
def decode : List Byte → Except DecodeError (Instr × List Byte)
  | m0 :: m1 :: m2 :: m3 :: b4 :: b5 :: b6 :: b7 :: b8 :: rest =>
    if [m0, m1, m2, m3] = Config.magicBytes then
      .ok (decodeCommand b4 (joinBytes b5 b6) (joinBytes b7 b8), rest)
    else .error .badMagic
  | _ => .error .tooShort

/-- Frame byte 4 of the instruction (R90). -/
def Instr.action : Instr → Byte
  | .read _ _ => Config.actRead
  | .write _ _ => Config.actWrite
  | .invalid02 act _ _ => act
  | .invalid04 act _ _ => act
  | .invalid08 act _ _ => act
  | .invalid10 act _ _ => act
  | .invalid20 act _ _ => act
  | .invalid40 act _ _ => act
  | .invalid80 act _ _ => act

/-- The address operand (R90). -/
def Instr.address : Instr → Half
  | .read addr _ => addr
  | .write addr _ => addr
  | .invalid02 _ addr _ => addr
  | .invalid04 _ addr _ => addr
  | .invalid08 _ addr _ => addr
  | .invalid10 _ addr _ => addr
  | .invalid20 _ addr _ => addr
  | .invalid40 _ addr _ => addr
  | .invalid80 _ addr _ => addr

/-- The size operand (R90). -/
def Instr.count : Instr → Half
  | .read _ size => size
  | .write _ size => size
  | .invalid02 _ _ size => size
  | .invalid04 _ _ size => size
  | .invalid08 _ _ size => size
  | .invalid10 _ _ size => size
  | .invalid20 _ _ size => size
  | .invalid40 _ _ size => size
  | .invalid80 _ _ size => size

/-- The five command bytes after the magic (R90, R92). -/
def commandBytes (act : Byte) (addr size : Half) : List Byte :=
  [act, hiByte addr, loByte addr, hiByte size, loByte size]

/-- The nine fixed bytes of the instruction's request frame (R90). -/
def encode (i : Instr) : List Byte :=
  Config.magicBytes ++ commandBytes i.action i.address i.count

/-- The bytes of the opcode table's word: `nbits / 8` bytes, the most significant first (R91: byte n is
F[71-8n : 64-8n]), then zero bytes up to the nine of the fixed part.
DEDUCED from R91 (log entry 2): the table's row is ONE word `F`, stored most significant byte first. -/
def tableBytes (nbits w : Nat) : List Byte :=
  let n := nbits / 8
  (List.range n).map (fun t => BitVec.ofNat 8 (w >>> (8 * (n - 1 - t)))) ++ List.replicate (9 - n) 0

/-- The instruction the decoder reads from the opcode table's word `w`. -/
def decodeTableWord (nbits w : Nat) : Option Instr :=
  match decode (tableBytes nbits w) with
  | .ok (i, _) => some i
  | .error _ => none

end Sys2Proof
end

