-- ==== Sys2Proof/Machine/State.lean ====
section
/-! DEFINITION. The state of the machine as plain data: the CORE's registers and lines, the shift register and the
EEPROM it drives, the two byte streams, the pin trace, the parameters (10_state.md, 00_scope.md rules R5 and R10), and
the moves still to come of the host and the platform. -/

namespace Sys2Proof.Machine

/-- The sequencer states (R21). -/
inductive SeqState where
  | sync | hdr | execAlloc | execRead | execWrx | execWcommit | execInvalid | resp
  deriving DecidableEq, Repr

/-- The direction of the eight data lines (R37). -/
inductive BusDir where
  /-- `IN`: the CORE does not drive the lines. -/
  | input
  /-- `OUT`: the CORE drives `D_OUT` on the lines. -/
  | output
  deriving DecidableEq, Repr

/-- The CORE's one-bit output lines (R33 to R36, R258). -/
inductive Line where
  | srData | srClk | srLatch | weN
  deriving DecidableEq, Repr

/-- The pin events of a run's trace (R7, R10). -/
inductive Event where
  /-- `Drive(L, x)`. -/
  | drive (l : Line) (x : Bool)
  /-- `SetDir(D, d)`. -/
  | setDir (d : BusDir)
  /-- `DriveBus(v)`. -/
  | driveBus (v : Lines)
  /-- `Sample(D)`. -/
  | sample
  /-- `delay(t)`: a delay of at least `t` nanoseconds. -/
  | delay (t : Nat)
  /-- The marker of R64: the CORE and the device both begin to drive the data lines. -/
  | contention
  deriving DecidableEq, Repr

/-- A move of the agents outside the CORE (R9, R262, R282), or the turn of the CORE.
DESIGN CHOICE (log entry 11). -/
inductive HostMove where
  /-- The host appends bytes to the inbound transport (R69). -/
  | send (bytes : List Byte)
  /-- The outbound channel accepts that many more bytes and then holds; `none`: every byte (R70). -/
  | accept (room : Option Nat)
  /-- The platform reset is asserted after that many further CORE events (R280, R282). -/
  | reset (after : Nat)
  /-- The CORE takes one step. -/
  | core
  deriving DecidableEq, Repr

/-- The EEPROM array (R42): the cells that do not read as `Config.fill`, addresses rising. -/
abbrev Memory := List Host.Cell

/-- The one form a memory has: addresses strictly rising and below `CAP`, no cell that reads as an unlisted one. -/
abbrev Memory.wf (m : Memory) : Prop :=
  m.Pairwise (fun c d => c.1 < d.1) ∧ ∀ c ∈ m, c.1 < Config.cap ∧ c.2 ≠ Config.fill

/-- The model faults (R251). Every one is safe: the machine stops with no next state, as R251 and D29 ask. The address
is `sr_q[10:0]` at the fault. -/
inductive Fault where
  /-- Raised by a sample (R62) or a write commit (R65) while the device's write cycle runs; safe. -/
  | writeCycleViolation (a : DevAddr)
  /-- Raised by a rising edge of `WE_N` while the device drives the bus (R65); safe. -/
  | writeWhileOutputEnabled (a : DevAddr)
  /-- Raised by a rising edge of `WE_N` while nothing drives the bus (R65); safe. -/
  | writeFloatingBus (a : DevAddr)
  /-- Raised by a latch strobe while `WE_N` is low (R121); safe. -/
  | addressChangedDuringWrite (a : DevAddr)
  /-- Raised by a pop from the empty inbound transport (R69); safe. -/
  | rxUnderflow
  /-- Raised by a payload-buffer access past the buffer's end, or with no buffer (R68); safe. -/
  | bufferOverrun
  deriving DecidableEq, Repr

/-- Why a step gives an instruction no meaning. No arm of `exec` and no meaning of this model refuses. -/
inductive Refusal where
  /-- Raised by an arm of `exec` that has no meaning yet; safe. -/
  | notModelled (mnemonic : String)
  deriving DecidableEq, Repr

/-- The machine's state. The CORE's part of it is one sequencer's: there is one `st`, no second thread and no identifier
(R46, R259). -/
structure State where
  /-- The sequencer state register (R21). -/
  st : SeqState
  /-- The sync accumulator (R22). -/
  acc : Acc
  /-- The action byte of the current command (R23). -/
  action : Byte
  /-- The requested address (R24). -/
  addr : Half
  /-- The requested byte count (R25). -/
  size : Half
  /-- The resolved action (R26). -/
  ract : Byte
  /-- The clamped size (R27). -/
  rsize : Half
  /-- The payload collection index (R28). -/
  i : Half
  /-- The response emission index (R29). -/
  j : Half
  /-- The range operations' index (R30). -/
  k : Half
  /-- The payload buffer; `none` is `buf_valid = false` (R32; log entry 14). -/
  buf : Option (List Byte)
  /-- `SR_DATA` (R33). -/
  srData : Bool
  /-- `SR_CLK` (R34). -/
  srClk : Bool
  /-- `SR_LATCH` (R35). -/
  srLatch : Bool
  /-- `WE_N` (R36). -/
  weN : Bool
  /-- `D_DIR` (R37). -/
  dDir : BusDir
  /-- `D_OUT` (R38). -/
  dOut : Lines
  /-- The shift register's serial stage (R40). -/
  srShift : Half
  /-- The shift register's latched outputs (R41); what they show is `srOut`. -/
  srQ : Half
  /-- A strobe has loaded `srQ` since the last reset. The model's own (log entry 6). -/
  srLatched : Bool
  /-- The EEPROM array (R42). -/
  mem : Memory
  /-- The device's write cycle runs (R43). -/
  wcBusy : Bool
  /-- The inbound transport (R44). -/
  rx : List Byte
  /-- Every byte pushed, in order (R45). -/
  tx : List Byte
  /-- The pin events and contention markers, in order (R10). -/
  trace : List Event
  /-- The OPEN parameters (R5). No step changes them. -/
  cfg : Config.Params
  /-- Response header bytes pushed so far. The model's own (log entry 12). -/
  respPos : Nat
  /-- Bytes the outbound channel still accepts before it holds, `none`: no bound. The model's own (log entry 12). -/
  txRoom : Option Nat
  /-- The moves to come of host, platform and CORE; when empty, the CORE moves. The model's own (log entry 11). -/
  host : List HostMove
  /-- CORE events until an asserted platform reset takes effect. The model's own (log entry 10). -/
  resetIn : Option Nat
  /-- How many free values have been drawn. The model's own (log entries 9 and 10). -/
  draws : Nat
  /-- How many platform resets have happened. The model's own (log entry 6). -/
  resets : Nat
  deriving DecidableEq, Repr

/-- The machine at power-on with parameters `cfg` and device contents `mem0` (R47, R280, R281; `MEM0` is D22). The
registers R23 to R30, R40 and R41 have no reset value in the spec and hold 0 here: DESIGN CHOICE (log entry 4). -/
def State.powerOn (cfg : Config.Params) (mem0 : Memory) : State :=
  { st := .sync, acc := 0, action := 0, addr := 0, size := 0, ract := 0, rsize := 0, i := 0, j := 0, k := 0,
    buf := none,
    srData := false, srClk := false, srLatch := false, weN := true, dDir := .input, dOut := 0x00,
    srShift := 0, srQ := 0, srLatched := false,
    mem := mem0, wcBusy := false, rx := [], tx := [], trace := [], cfg := cfg,
    respPos := 0, txRoom := none, host := [], resetIn := none, draws := 0, resets := 0 }

/-- The machine right after its first power-on, with the default parameters and a MEM0 of all `Config.fill`
(DESIGN CHOICE, log entries 7 and 8). -/
def State.reset : State := State.powerOn Config.Params.default []

end Sys2Proof.Machine
end

