-- ==== Sys2Proof/Machine/Ops.lean ====
section
/-! DEFINITION. The named operations over the state: the CORE's events and how they end (`Flow`), memory, the payload
buffer, the two streams, the pins with the devices' reactions to them, and the platform reset. The CORE has no trap entry
and no return (R254, R255); its one non-local transition, the abort of R204, is `enterSync`. -/

namespace Sys2Proof.Machine

/-- How a procedure of the CORE ends. -/
inductive Flow (α : Type) where
  /-- It completes with a value. -/
  | ok (v : α) (s : State)
  /-- The sequencer waits: it polls, or a push holds (R212). The step ends here. -/
  | wait (s : State)
  /-- The platform reset falls before the next event (R282). -/
  | reset (s : State)
  /-- A model fault (R251). -/
  | fault (f : Fault)
  deriving Repr

/-- First `m`, then `f`; a wait, a reset and a fault end the whole (R8, R253). -/
def Flow.bind {α β : Type} (m : Flow α) (f : α → State → Flow β) : Flow β :=
  match m with
  | .ok v s => f v s
  | .wait s => .wait s
  | .reset s => .reset s
  | .fault e => .fault e

/-! ## The EEPROM array -/

/-- `MemRead(a, 1)` (R7, R62). -/
def memRead : Memory → Nat → Byte
  | [], _ => Config.fill
  | c :: r, a => if c.1 = a then c.2 else memRead r a

/-- `MemWrite(a, 1, v)` (R7, R65), keeping `Memory.wf`. -/
def memWrite : Memory → Nat → Byte → Memory
  | [], a, v => if v = Config.fill then [] else [(a, v)]
  | c :: r, a, v =>
    if a < c.1 then (if v = Config.fill then c :: r else (a, v) :: c :: r)
    else if c.1 = a then (if v = Config.fill then r else (a, v) :: r)
    else c :: memWrite r a v

/-! ## Events -/

/-- One CORE event is about to happen: an asserted platform reset may fall before it (R282; log entry 10). -/
def tick (s : State) : Flow Unit :=
  match s.resetIn with
  | none => .ok () s
  | some 0 => .reset s
  | some (n + 1) => .ok () { s with resetIn := some n }

/-- Appends an event to the trace (R10). -/
def record (e : Event) (s : State) : State := { s with trace := s.trace ++ [e] }

/-! ## The shift register's outputs -/

/-- What the shift register's outputs show: the latched word, or, before the first strobe after a reset, a free word
(R41, R64; log entry 6). -/
def srOut (s : State) : Half := if s.srLatched then s.srQ else Config.unlatchedWord s.resets

/-- `sr_q[15]`, the direction control: false means the device drives the bus (R98). -/
def srDir (s : State) : Bool := (srOut s).getLsbD Config.dirBit

/-- `sr_q[10:0]`, the device address (R98). -/
def srAddr (s : State) : DevAddr := (srOut s).setWidth Config.abits

/-- The marker of R64: one, when the CORE and the device both drive the data lines. -/
def contentionMark (s : State) : List Event :=
  if s.dDir = .output ∧ srDir s = false then [.contention] else []

/-! ## The devices' reactions to the CORE's edges -/

/-- The rising edge of `SR_CLK` (R121): the shift stage moves one place toward bit 15 and takes `SR_DATA` at bit 0. -/
def onClkRise (s : State) : State :=
  { s with srShift := (s.srShift <<< 1) ||| (if s.srData then 1 else 0) }

/-- The rising edge of `SR_LATCH` (R121): all outputs take the shift stage together (R285). -/
def onLatchRise (s : State) : Flow Unit :=
  if s.weN = false then .fault (.addressChangedDuringWrite (srAddr s))
  else
    let s' := { s with srQ := s.srShift, srLatched := true }
    .ok () { s' with trace := s'.trace ++ contentionMark s' }

/-- The rising edge of `WE_N` (R65): the checks in the order listed, then the commit. -/
def onWeRise (s : State) : Flow Unit :=
  if s.wcBusy then .fault (.writeCycleViolation (srAddr s))
  else if srDir s = false then .fault (.writeWhileOutputEnabled (srAddr s))
  else if s.dDir = .input then .fault (.writeFloatingBus (srAddr s))
  else .ok () { s with mem := memWrite s.mem (srAddr s).toNat s.dOut, wcBusy := true }

/-- The effect of a line taking a level: the line holds it, and a rising edge reaches its device (R121, R65). A falling
edge, an unchanged level and the data line change nothing else. -/
def setLine (l : Line) (x : Bool) (s : State) : Flow Unit :=
  match l with
  | .srData => .ok () { s with srData := x }
  | .srClk =>
    let s' := { s with srClk := x }
    if x && !s.srClk then .ok () (onClkRise s') else .ok () s'
  | .srLatch =>
    let s' := { s with srLatch := x }
    if x && !s.srLatch then onLatchRise s' else .ok () s'
  | .weN =>
    let s' := { s with weN := x }
    if x && !s.weN then onWeRise s' else .ok () s'

/-! ## The pin primitives (R7) -/

/-- `Drive(L, x)`. -/
def drive (l : Line) (x : Bool) (s : State) : Flow Unit :=
  (tick s).bind fun _ s => setLine l x (record (.drive l x) s)

/-- `SetDir(D, d)`: all eight lines at once (D15). Turning them to output may begin a contention (R64, R286); the
marker stands when the state is entered, that is, when the direction changes (R141; log entry 13). -/
def setDir (d : BusDir) (s : State) : Flow Unit :=
  (tick s).bind fun _ s =>
    let s' := { record (.setDir d) s with dDir := d }
    if s.dDir = .input then .ok () { s' with trace := s'.trace ++ contentionMark s' } else .ok () s'

/-- `DriveBus(v)`: `D_OUT` takes `v`, line i carrying bit i (R99). -/
def driveBus (v : Lines) (s : State) : Flow Unit :=
  (tick s).bind fun _ s => .ok () { record (.driveBus v) s with dOut := v }

/-- A value the data lines show under no law (R63, R64; log entry 9). -/
def drawBus (s : State) : Flow Lines :=
  .ok (Config.busValue s.draws) { s with draws := s.draws + 1 }

/-- The data lines as they stand at a sample (R62 to R64): the device's cell, a floating or contended bus, or the level
the CORE itself drives (R38; DEDUCED, log entry 9). -/
def busRead (s : State) : Flow Lines :=
  match s.dDir, srDir s with
  | .input, false =>
    if s.wcBusy then .fault (.writeCycleViolation (srAddr s))
    else .ok (memRead s.mem (srAddr s).toNat) s
  | .input, true => drawBus s
  | .output, false => drawBus s
  | .output, true => .ok s.dOut s

/-- `Sample(D)`: all eight lines as one event (D15). -/
def sample (s : State) : Flow Lines :=
  (tick s).bind fun _ s => busRead (record .sample s)

/-- `Delay(t)` (R7). -/
def delay (t : Nat) (s : State) : Flow Unit :=
  (tick s).bind fun _ s => .ok () (record (.delay t) s)

/-- `Delay(T_SETTLE)`, at whose end the device's write cycle is over (R66, R142; log entry 15). -/
def settle (s : State) : Flow Unit :=
  (delay s.cfg.tSettle s).bind fun _ s => .ok () { s with wcBusy := false }

/-- `PollIdle()` (R7), after which the sequencer polls again: the step ends (R212). -/
def pollIdle {α : Type} (s : State) : Flow α :=
  (delay s.cfg.tPoll s).bind fun _ s => .wait s

/-! ## The transport -/

/-- `RxAvail()` (R69). -/
def rxAvail (s : State) : Nat := s.rx.length

/-- `RxPop()` (R69). -/
def rxPop (s : State) : Flow Byte :=
  match s.rx with
  | [] => .fault .rxUnderflow
  | b :: r => .ok b { s with rx := r }

/-- `TxPush(b)` (R70): it holds while the channel accepts no byte (log entry 12). -/
def txPush (b : Byte) (s : State) : Flow Unit :=
  (tick s).bind fun _ s =>
    match s.txRoom with
    | none => .ok () { s with tx := s.tx ++ [b] }
    | some 0 => .wait s
    | some (n + 1) => .ok () { s with tx := s.tx ++ [b], txRoom := some n }

/-! ## The payload buffer -/

/-- `buf_valid` (R32, D20). -/
def bufValid (s : State) : Bool := s.buf.isSome

/-- The bytes of the buffer; none where there is no buffer (R32; log entry 14). -/
def bufBytes (s : State) : List Byte := s.buf.getD []

/-- `BufRead(n)` (R68). -/
def bufRead (n : Nat) (s : State) : Flow Byte :=
  match (bufBytes s)[n]? with
  | some b => .ok b s
  | none => .fault .bufferOverrun

/-- `BufWrite(n, v)` (R68). -/
def bufWrite (n : Nat) (v : Byte) (s : State) : Flow Unit :=
  if n < (bufBytes s).length then .ok () { s with buf := some ((bufBytes s).set n v) }
  else .fault .bufferOverrun

/-- `buf[0 .. n-1]` (R207, R171). -/
def bufSlice (n : Nat) (s : State) : Flow (List Byte) :=
  if n ≤ (bufBytes s).length then .ok ((bufBytes s).take n) s else .fault .bufferOverrun

/-! ## Entry to SYNC and the platform reset -/

/-- Entry to SYNC (R201): the buffer is discarded and the accumulator cleared. After RESP, and as the abort of R204. -/
def enterSync (s : State) : State := { s with st := .sync, acc := 0, buf := none }

/-- A reset inside a write (R282): between the fall of `WE_N` and the end of the settle delay the addressed cell is
left with a free value (log entry 10). -/
def tearCell (s : State) : State :=
  if s.weN = false ∨ s.wcBusy = true then
    { s with mem := memWrite s.mem (srAddr s).toNat (Config.tornByte s.draws), draws := s.draws + 1 }
  else s

/-- The platform reset (R280, R282): the CORE takes its reset values; the device's cells, the streams and the record of
the run stay (log entry 21). -/
def platformReset (s : State) : State :=
  let t := tearCell s
  { State.powerOn t.cfg t.mem with
      rx := t.rx, tx := t.tx, trace := t.trace, txRoom := t.txRoom, host := t.host, draws := t.draws,
      resets := t.resets + 1 }

/-- A procedure's end as the outcome of a step: a reset that fell inside it is taken. -/
def Flow.outcome {α : Type} (m : Flow α) : Host.Outcome State Fault Refusal :=
  match m with
  | .ok _ s => .next s
  | .wait s => .next s
  | .reset s => .next (platformReset s)
  | .fault f => .fault f

/-- A move of the host or the platform (R69, R70, R262, R280; log entry 11). -/
def hostMove (m : HostMove) (s : State) : State :=
  match m with
  | .send bytes => { s with rx := s.rx ++ bytes }
  | .accept room => { s with txRoom := room }
  | .reset n => { s with resetIn := some n }
  | .core => s

end Sys2Proof.Machine
end

