-- ==== Sys2Proof/Machine/Operands.lean ====
section
/-! DEFINITION. Operand forms: the command registers, the response header's bytes, the bits of a word most significant
first, and the clamper (30_encoding.md rules R92, R96; 40_serializer.md rule R120; 42_range_clamp.md rule R173). -/

namespace Sys2Proof.Machine

/-- HDR's registers (R92, R202), and the entry to EXEC_ALLOC. -/
def latchCommand (act : Byte) (addr size : Half) (s : State) : State :=
  { s with action := act, addr := addr, size := size, st := .execAlloc }

/-- The bits of a word, bit 15 first (R120). -/
def msbFirst (w : Half) : List Bool :=
  (List.range Config.wordBits).reverse.map fun n => w.getLsbD n

/-- `clamp(address, size)` (R173), over unbounded sums. -/
def clamp (address size : Half) : Half :=
  if Config.cap ≤ address.toNat then 0
  else if Config.cap < address.toNat + size.toNat then BitVec.ofNat 16 (Config.cap - address.toNat)
  else size

/-- `alloc_ok(size)` (R203, D7). -/
def allocOk (s : State) : Bool := s.size == 0 || decide (s.size.toNat ≤ s.cfg.bufBytes)

/-- The nine bytes before a response's payload (R96, R209). -/
def respHeader (s : State) : List Byte :=
  Config.magicBytes ++ [s.ract, hiByte s.addr, loByte s.addr, hiByte s.rsize, loByte s.rsize]

end Sys2Proof.Machine
end

