-- ==== Sys2Proof/Machine/Flags.lean ====
section
/-! DEFINITION. The CORE has no flags register and no condition codes (10_state.md rule R31). Its only status is two
fields of the response frame, read here from the registers the frame carries; and the idle condition (R216). -/

namespace Sys2Proof.Machine

/-- `ract = 0xFF` reports an invalid action (R31, R250). -/
def reportsInvalid (s : State) : Bool := s.ract == Config.invalidAct

/-- `rsize < size` reports truncation (R31, R250). -/
def reportsTruncation (s : State) : Bool := decide (s.rsize.toNat < s.size.toNat)

/-- The range of the command does not fit the device (R250 `OUT_OF_RANGE`). -/
def outOfRange (addr size : Half) : Bool :=
  decide (Config.cap ≤ addr.toNat ∨ Config.cap < addr.toNat + size.toNat)

/-- The CORE is idle (R216). -/
def idle (s : State) : Bool := s.st == .sync && s.acc != Config.magic && s.rx.isEmpty

end Sys2Proof.Machine
end

