-- ==== Sys2Proof/Machine/Serializer.lean ====
section
/-! DEFINITION. The shift-register serializer and the address/direction encoder (40_serializer.md rules R120, R124). -/

namespace Sys2Proof.Machine

/-- `encode(address, output_enabled)` (R124): direction bit 0 for a read, 1 for a write. -/
def encodeWord (address : Half) (outputEnabled : Bool) : Half :=
  ((if outputEnabled then 0 else 1) <<< Config.dirBit) ||| (address &&& Config.aMask)

/-- One bit of sr_write (R120): the data level, then a clock pulse. -/
def srShiftBit (b : Bool) (s : State) : Flow Unit :=
  (drive .srData b s).bind fun _ s =>
  (drive .srClk true s).bind fun _ s =>
  drive .srClk false s

/-- The bits of sr_write, in order (R120). -/
def srShiftBits : List Bool → State → Flow Unit
  | [], s => .ok () s
  | b :: r, s => (srShiftBit b s).bind fun _ s => srShiftBits r s

/-- The latch strobe (R120). -/
def srStrobe (s : State) : Flow Unit :=
  (drive .srLatch true s).bind fun _ s => drive .srLatch false s

/-- `sr_write(word)` (R120). -/
def srWrite (w : Half) (s : State) : Flow Unit :=
  (srShiftBits (msbFirst w) s).bind fun _ s => srStrobe s

end Sys2Proof.Machine
end

