-- ==== Sys2Proof/Machine/ByteEngine.lean ====
section
/-! DEFINITION. The byte reader, the byte driver and the write-enable pulse (41_byte_engine.md rules R140 to R142). -/

namespace Sys2Proof.Machine

/-- `read_byte(address)` (R140). -/
def readByte (address : Half) (s : State) : Flow Byte :=
  (setDir .input s).bind fun _ s =>
  (srWrite (encodeWord address true) s).bind fun _ s =>
  sample s

/-- `write_pulse()` (R142). -/
def writePulse (s : State) : Flow Unit :=
  (drive .weN false s).bind fun _ s =>
  (delay s.cfg.tWe s).bind fun _ s =>
  (drive .weN true s).bind fun _ s =>
  settle s

/-- `write_byte(address, value)` (R141): the order of the four steps is the source's. -/
def writeByte (address : Half) (value : Byte) (s : State) : Flow Unit :=
  (setDir .output s).bind fun _ s =>
  (srWrite (encodeWord address false) s).bind fun _ s =>
  (driveBus value s).bind fun _ s =>
  writePulse s

end Sys2Proof.Machine
end

