-- ==== Sys2Proof/Machine/Range.lean ====
section
/-! DEFINITION. The range operations (42_range_clamp.md rules R170 to R172), one byte at a time in ascending order
(R175). The sum `address + k` is unbounded (R7). -/

namespace Sys2Proof.Machine

/-- `address + k` as the byte engine's operand; the range operations pass it only below `CAP`. -/
def cellAddr (address k : Half) : Half := BitVec.ofNat 16 (address.toNat + k.toNat)

/-- `address + k < CAP` (R170 to R172), over the unbounded sum. -/
def inDevice (address k : Half) : Bool := decide (address.toNat + k.toNat < Config.cap)

/-- read_range's loop (R170); `fuel` bounds the rounds still to come. -/
def readLoop : Nat → Half → Half → Half → State → Flow Unit
  | 0, _, _, _, s => .ok () s
  | fuel + 1, address, n, bufcap, s =>
    if s.k.toNat < n.toNat ∧ s.k.toNat < bufcap.toNat ∧ inDevice address s.k = true then
      (readByte (cellAddr address s.k) s).bind fun v s =>
      (bufWrite s.k.toNat v s).bind fun _ s =>
      readLoop fuel address n bufcap { s with k := s.k + 1 }
    else .ok () s

/-- `read_range(address, n, buf, bufcap)` into the payload buffer (R170): the count read. -/
def readRange (address n bufcap : Half) (s : State) : Flow Half :=
  if bufValid s = false then .ok 0 s
  else (readLoop n.toNat address n bufcap { s with k := 0 }).bind fun _ s => .ok s.k s

/-- The loop of write_range and write_fill (R171, R172). -/
def writeLoop (address : Half) : List Byte → State → Flow Unit
  | [], s => .ok () s
  | b :: r, s =>
    if inDevice address s.k = true then
      (writeByte (cellAddr address s.k) b s).bind fun _ s =>
      writeLoop address r { s with k := s.k + 1 }
    else .ok () s

/-- `write_range(address, data)` (R171). -/
def writeRange (address : Half) (data : List Byte) (s : State) : Flow Unit :=
  writeLoop address data { s with k := 0 }

/-- `write_fill(address, value, count)` (R172): one repeated value. No sequencer state invokes it. -/
def writeFill (address : Half) (value : Byte) (count : Half) (s : State) : Flow Unit :=
  writeLoop address (List.replicate count.toNat value) { s with k := 0 }

end Sys2Proof.Machine
end

