-- ==== Sys2Proof/Machine/Sequencer.lean ====
section
/-! DEFINITION. The framed-protocol parser's steps (43_protocol.md rules R201 to R209), each sequencer state's own
step, and how a command runs on from each state until SYNC is entered or the sequencer waits. -/

namespace Sys2Proof.Machine

/-! ## SYNC and HDR -/

/-- The SYNC step (R201). -/
def syncStep (s : State) : Flow Unit :=
  if s.acc = Config.magic then .ok () { s with st := .hdr }
  else if 1 ≤ rxAvail s then
    (tick s).bind fun _ s =>
    (rxPop s).bind fun b s =>
    .ok () { s with acc := (s.acc <<< 8) ||| b.setWidth 32 }
  else pollIdle s

/-- HDR's burst (R202): five pops with no event between them, and the command they make (R92, R93). -/
def popCommand (s : State) : Flow Instr :=
  (rxPop s).bind fun b4 s =>
  (rxPop s).bind fun b5 s =>
  (rxPop s).bind fun b6 s =>
  (rxPop s).bind fun b7 s =>
  (rxPop s).bind fun b8 s =>
  .ok (decodeCommand b4 (joinBytes b5 b6) (joinBytes b7 b8)) s

/-- The HDR step (R202): it polls the count, then takes the five bytes as one burst (C9). -/
def hdrStep (s : State) : Flow Instr :=
  if rxAvail s < Config.hdrBytes then pollIdle s
  else (tick s).bind fun _ s => popCommand s

/-! ## RESP -/

/-- Entry to RESP (R209). -/
def enterResp (s : State) : State := { s with st := .resp, j := 0, respPos := 0 }

/-- Pushes header bytes, one by one. -/
def pushHeader : List Byte → State → Flow Unit
  | [], s => .ok () s
  | b :: r, s => (txPush b s).bind fun _ s => pushHeader r { s with respPos := s.respPos + 1 }

/-- Pushes that many payload bytes from `buf[j]` on (R209). -/
def pushPayload : Nat → State → Flow Unit
  | 0, s => .ok () s
  | n + 1, s =>
    (bufRead s.j.toNat s).bind fun b s =>
    (txPush b s).bind fun _ s =>
    pushPayload n { s with j := s.j + 1 }

/-- The RESP step (R209), from wherever a held push left it (R70), to the entry to SYNC. -/
def respStep (s : State) : Flow Unit :=
  (pushHeader ((respHeader s).drop s.respPos) s).bind fun _ s =>
  (pushPayload (s.rsize.toNat - s.j.toNat) s).bind fun _ s =>
  .ok () (enterSync s)

/-! ## EXEC_ALLOC -/

/-- The buffer and the clamp of EXEC_ALLOC (R203); none where the allocation fails (R204). -/
def allocate (s : State) : Option State :=
  if allocOk s then
    some { s with buf := some (List.replicate s.size.toNat 0x00), rsize := clamp s.addr s.size }
  else none

/-- The EXEC_ALLOC step (R203, R204) with the arm the dispatch selects (R205). -/
def allocStep (arm : State → Flow Unit) (s : State) : Flow Unit :=
  match allocate s with
  | none => .ok () (enterSync s)
  | some t => arm t

/-- The dispatch to READ (R205). -/
def dispatchRead (s : State) : State := { s with ract := Config.actRead, st := .execRead }

/-- The dispatch to WRITE (R205), with the entry to EXEC_WRX (R207). -/
def dispatchWrite (s : State) : State := { s with ract := Config.actWrite, st := .execWrx, i := 0 }

/-- The dispatch to INVALID (R205). -/
def dispatchInvalid (s : State) : State := { s with st := .execInvalid }

/-! ## READ -/

/-- The EXEC_READ step (R206). -/
def execReadStep (s : State) : Flow Unit :=
  (readRange s.addr s.rsize s.size s).bind fun _ s => .ok () (enterResp s)

/-- READ from EXEC_READ on. -/
def runRead (s : State) : Flow Unit := (execReadStep s).bind fun _ s => respStep s

/-! ## WRITE -/

/-- EXEC_WRX (R207): one payload byte a round; `fuel` is the number of bytes waiting. -/
def collect : Nat → State → Flow Unit
  | fuel, s =>
    if s.i = s.size then .ok () { s with st := .execWcommit }
    else if 1 ≤ rxAvail s then
      match fuel with
      | 0 => .wait s
      | fuel + 1 =>
        (tick s).bind fun _ s =>
        (rxPop s).bind fun b s =>
        (bufWrite s.i.toNat b s).bind fun _ s =>
        collect fuel { s with i := s.i + 1 }
    else pollIdle s

/-- The EXEC_WRX step (R207): every waiting payload byte is taken, and the rest waited for. -/
def execWrxStep (s : State) : Flow Unit := collect (rxAvail s) s

/-- The EXEC_WCOMMIT step (R207): the first `rsize` bytes reach the device. -/
def execWcommitStep (s : State) : Flow Unit :=
  (bufSlice s.rsize.toNat s).bind fun data s =>
  (writeRange s.addr data s).bind fun _ s => .ok () (enterResp s)

/-- WRITE from EXEC_WCOMMIT on. -/
def runCommit (s : State) : Flow Unit := (execWcommitStep s).bind fun _ s => respStep s

/-- WRITE from EXEC_WRX on. -/
def runWrite (s : State) : Flow Unit := (execWrxStep s).bind fun _ s => runCommit s

/-! ## INVALID -/

/-- The EXEC_INVALID step (R208). -/
def execInvalidStep (s : State) : Flow Unit := .ok () (enterResp { s with ract := Config.invalidAct })

/-- INVALID from EXEC_INVALID on. -/
def runInvalid (s : State) : Flow Unit := (execInvalidStep s).bind fun _ s => respStep s

/-! ## A whole command -/

/-- A command from its five bytes on: HDR's registers, EXEC_ALLOC, then its arm (R202 to R205). -/
def command (act : Byte) (addr size : Half) (arm : State → Flow Unit) (s : State) :
    Host.Outcome State Fault Refusal :=
  (allocStep arm (latchCommand act addr size s)).outcome

/-! ## Placing a frame where the next step fetches it -/

/-- The payload a frame's header asks for, as zero bytes: `size` of them for a WRITE, none otherwise (R90). -/
def zeroPayload : List Byte → List Byte
  | b4 :: _ :: _ :: b7 :: b8 :: _ =>
    if b4 = Config.actWrite then List.replicate (joinBytes b7 b8).toNat 0 else []
  | _ => []

/-- The machine about to fetch the frame `bytes`: SYNC has just matched its magic, and the command bytes and payload
stand first in the inbound stream. Bytes with no magic are left to SYNC. The host's moves and a reset due are cleared,
so that the very next step is the fetch (log entry 3). -/
def placeFrame (bytes : List Byte) (s : State) : State :=
  if bytes.take 4 = Config.magicBytes then
    { s with st := .hdr, acc := Config.magic, buf := none, host := [], resetIn := none,
             rx := bytes.drop 4 ++ zeroPayload (bytes.drop 4) ++ s.rx }
  else { enterSync s with host := [], resetIn := none, rx := bytes ++ s.rx }

end Sys2Proof.Machine
end

