-- ==== Sys2Proof/Machine/Commands.lean ====
section
/-! DEFINITION. The meanings of the nine rows of spec/opcode_table.json (43_protocol.md rules R206 to R208): each is a
whole command, from its five command bytes through EXEC_ALLOC to the last response byte, unless the sequencer must wait
on the way, the allocation fails, or a platform reset falls inside it (log entry 1). -/

namespace Sys2Proof.Machine

/-- READ (R206). -/
def execRead (addr size : Half) (s : State) : Host.Outcome State Fault Refusal :=
  command Config.actRead addr size (fun s => runRead (dispatchRead s)) s

/-- WRITE (R207). -/
def execWrite (addr size : Half) (s : State) : Host.Outcome State Fault Refusal :=
  command Config.actWrite addr size (fun s => runWrite (dispatchWrite s)) s

/-- INVALID (R208): the operation the seven rows share. -/
def invalidCommand (act : Byte) (addr size : Half) (s : State) : Host.Outcome State Fault Refusal :=
  command act addr size (fun s => runInvalid (dispatchInvalid s)) s

/-- INVALID, actions 0x02 to 0x03 (R208). -/
def execInvalid02 (act : Byte) (addr size : Half) (s : State) : Host.Outcome State Fault Refusal :=
  invalidCommand act addr size s

/-- INVALID, actions 0x04 to 0x07 (R208). -/
def execInvalid04 (act : Byte) (addr size : Half) (s : State) : Host.Outcome State Fault Refusal :=
  invalidCommand act addr size s

/-- INVALID, actions 0x08 to 0x0F (R208). -/
def execInvalid08 (act : Byte) (addr size : Half) (s : State) : Host.Outcome State Fault Refusal :=
  invalidCommand act addr size s

/-- INVALID, actions 0x10 to 0x1F (R208). -/
def execInvalid10 (act : Byte) (addr size : Half) (s : State) : Host.Outcome State Fault Refusal :=
  invalidCommand act addr size s

/-- INVALID, actions 0x20 to 0x3F (R208). -/
def execInvalid20 (act : Byte) (addr size : Half) (s : State) : Host.Outcome State Fault Refusal :=
  invalidCommand act addr size s

/-- INVALID, actions 0x40 to 0x7F (R208). -/
def execInvalid40 (act : Byte) (addr size : Half) (s : State) : Host.Outcome State Fault Refusal :=
  invalidCommand act addr size s

/-- INVALID, actions 0x80 to 0xFF (R208). -/
def execInvalid80 (act : Byte) (addr size : Half) (s : State) : Host.Outcome State Fault Refusal :=
  invalidCommand act addr size s

end Sys2Proof.Machine
end

