-- ==== Sys2Proof/Machine/Dispatch.lean ====
section
/-! DEFINITION. One arm per row of spec/opcode_table.json. -/

namespace Sys2Proof.Machine

def exec (i : Instr) (s : State) : Host.Outcome State Fault Refusal :=
  match i with
  | .read addr size => Sys2Proof.Machine.execRead addr size s
  | .write addr size => Sys2Proof.Machine.execWrite addr size s
  | .invalid02 act addr size => Sys2Proof.Machine.execInvalid02 act addr size s
  | .invalid04 act addr size => Sys2Proof.Machine.execInvalid04 act addr size s
  | .invalid08 act addr size => Sys2Proof.Machine.execInvalid08 act addr size s
  | .invalid10 act addr size => Sys2Proof.Machine.execInvalid10 act addr size s
  | .invalid20 act addr size => Sys2Proof.Machine.execInvalid20 act addr size s
  | .invalid40 act addr size => Sys2Proof.Machine.execInvalid40 act addr size s
  | .invalid80 act addr size => Sys2Proof.Machine.execInvalid80 act addr size s

end Sys2Proof.Machine
end

