-- ==== Sys2Proof/Machine/Step.lean ====
section
/-! DEFINITION. One step of the machine: the next move of the host's agenda, or the CORE's. The CORE scans for a header
(R201), fetches a command's five bytes and runs it (R202 to R209), or goes on with a command it had to wait in (R212). -/

namespace Sys2Proof.Machine

/-- The fetch of HDR followed by the fetched command. -/
def runFetched (m : Flow Instr) : Host.Outcome State Fault Refusal :=
  match m with
  | .ok i s => exec i s
  | .wait s => .next s
  | .reset s => .next (platformReset s)
  | .fault f => .fault f

/-- The CORE's step from each sequencer state (R200): the one sequencer runs one procedure, to its end or to a wait, with
nothing else between (R8, R259). -/
def coreStep (s : State) : Host.Outcome State Fault Refusal :=
  match s.st with
  | .sync => (syncStep s).outcome
  | .hdr => runFetched (hdrStep s)
  | .execAlloc => exec (decodeCommand s.action s.addr s.size) s
  | .execRead => (runRead s).outcome
  | .execWrx => (runWrite s).outcome
  | .execWcommit => (runCommit s).outcome
  | .execInvalid => (runInvalid s).outcome
  | .resp => (respStep s).outcome

/-- One step: the agenda's next move, and with no agenda the CORE's step (R9; log entry 11). -/
def step (s : State) : Host.Outcome State Fault Refusal :=
  match s.host with
  | [] => coreStep s
  | .core :: r => coreStep { s with host := r }
  | m :: r => .next (hostMove m { s with host := r })

/-- `s` with the opcode table's word placed as the instruction the next step fetches (log entries 2 and 3). -/
def State.withFetchWord (s : State) (nbits w : Nat) : State := placeFrame (tableBytes nbits w) s

end Sys2Proof.Machine
end

