-- ==== Sys2Proof/Machine/Timing.lean ====
section
/-! DEFINITION. The lower bounds of 70_reset_and_hazards.md rule R289: the model orders events and does not time them
(R10, R257); what a trace must at least take is the sum of what its events must at least take. -/

namespace Sys2Proof.Machine

/-- The least time, in nanoseconds, an event takes: T_SR for an event of the shift-register lines and, as R289's row for
read_byte counts them, for read_byte's `SetDir` and for a sample, with the device's access time on top of the sample; the
delay itself for a delay; nothing for the contention marker (R7, R289; DEDUCED, log entry 17). An edge of `WE_N`, a
`DriveBus` and write_byte's `SetDir` are charged T_SR too: DESIGN CHOICE, unsafe (log entry 17), for R5 gives T_SR to the
shift-register lines only and R289 counts none for write_byte. -/
def eventMinTime (p : Config.Params) : Event → Nat
  | .drive _ _ => p.tSr
  | .setDir _ => p.tSr
  | .driveBus _ => p.tSr
  | .sample => p.tSr + p.tAcc
  | .delay t => t
  | .contention => 0

/-- The least time a sequence of events takes (R289). -/
def traceMinTime (p : Config.Params) (events : List Event) : Nat :=
  (events.map (eventMinTime p)).sum

/-- The pin events of a trace without the contention markers, which R10 leaves out of the events' counts. -/
def pinEvents (events : List Event) : List Event := events.filter fun e => e ≠ .contention

end Sys2Proof.Machine
end

