-- ==== Sys2Proof/Safety.lean ====
section
/-! DEFINITION. What a run observes (00_scope.md rule R10), what holds of the machine between two steps, and the terms
the statements use: lines at rest, no reset due, room on the outbound channel. -/

namespace Sys2Proof.Machine

/-- The three parts of a run's observation (R10): the bytes pushed, the EEPROM array, the pin trace. -/
def observe (s : State) : List Byte × Memory × List Event := (s.tx, s.mem, s.trace)

/-- The lines stand at their idle levels and the device is in no write cycle (R34 to R36, R43). -/
abbrev Quiet (s : State) : Prop :=
  s.srClk = false ∧ s.srLatch = false ∧ s.weN = true ∧ s.wcBusy = false

/-- The outbound channel accepts `n` more bytes before it holds (R70). -/
def accepts (s : State) (n : Nat) : Bool :=
  match s.txRoom with
  | none => true
  | some r => decide (n ≤ r)

/-- `txRoom` after `n` bytes more. -/
def roomAfter (s : State) (n : Nat) : Option Nat := s.txRoom.map (· - n)

/-- The resolved action of an action byte (R26). -/
def resolvedAction (act : Byte) : Byte :=
  if act = Config.actRead ∨ act = Config.actWrite then act else Config.invalidAct

/-- A command holds its buffer of `size` bytes, and `rsize` is the clamped size (R27, R32, R203). -/
def HasBuffer (s : State) : Prop :=
  ∃ b, s.buf = some b ∧ b.length = s.size.toNat ∧ allocOk s = true ∧ s.rsize = clamp s.addr s.size

/-- What each sequencer state guarantees of the registers (R21 to R32). -/
def SeqInv (s : State) : Prop :=
  match s.st with
  | .sync => s.buf = none
  | .hdr => s.buf = none ∧ s.acc = Config.magic
  | .execAlloc => s.buf = none
  | .execRead => HasBuffer s ∧ s.action = Config.actRead ∧ s.ract = Config.actRead
  | .execWrx => HasBuffer s ∧ s.action = Config.actWrite ∧ s.ract = Config.actWrite ∧ s.i.toNat ≤ s.size.toNat
  | .execWcommit => HasBuffer s ∧ s.action = Config.actWrite ∧ s.ract = Config.actWrite
  | .execInvalid => HasBuffer s ∧ resolvedAction s.action = Config.invalidAct
  | .resp =>
    HasBuffer s ∧ s.ract = resolvedAction s.action ∧ s.respPos ≤ 9 ∧ s.j.toNat ≤ s.rsize.toNat ∧
      (s.respPos < 9 → s.j = 0)

/-- The invariant every step keeps: the memory has its one form, the parameters their bounds (R5), the lines rest and
the device is idle (R283), the data lines are not contended (R286), the reserved bits of a latched word are 0 (R98), and
the registers are as the sequencer state says. -/
structure Inv (s : State) : Prop where
  mem : Memory.wf s.mem
  cfg : s.cfg.wf
  quiet : Quiet s
  bus : s.dDir = .output → srDir s = true
  rsvd : s.srLatched = true → s.srQ &&& 0x7800 = 0
  seq : SeqInv s

/-- The registers that hold no value the spec gives before a command writes them, set to one value (R23 to R30, R40). -/
def eraseRegs (s : State) : State :=
  { s with action := 0, addr := 0, size := 0, ract := 0, rsize := 0, i := 0, j := 0, k := 0, srShift := 0, respPos := 0 }

/-- Two states that agree in everything a later step can depend on: all but the registers the command in progress, if
any, has not written (R251: no rule reads a register before writing it). -/
def LiveEq (s t : State) : Prop :=
  eraseRegs s = eraseRegs t ∧
    (s.st ≠ .sync → s.st ≠ .hdr →
      s.action = t.action ∧ s.addr = t.addr ∧ s.size = t.size ∧
      (s.st ≠ .execAlloc → s.rsize = t.rsize ∧ (s.st ≠ .execInvalid → s.ract = t.ract)) ∧
      (s.st = .execWrx → s.i = t.i) ∧ (s.st = .resp → s.j = t.j ∧ s.respPos = t.respPos))

/-! ## The spec's own terms for what an operation leaves -/

/-- How many of `n` bytes from `address` on lie in the device (R170, R171, R173). -/
def fits (address n : Nat) : Nat := min n (Config.cap - address)

/-- The device's cells from `a` on (R42, R62). -/
def deviceBytes (m : Memory) (a n : Nat) : List Byte := (List.range n).map fun t => memRead m (a + t)

/-- A response frame (R96). -/
def responseFrame (ract : Byte) (addr rsize : Half) (payload : List Byte) : List Byte :=
  Config.magicBytes ++ [ract, hiByte addr, loByte addr, hiByte rsize, loByte rsize] ++ payload

/-- The response bytes still to push (R96, R209). -/
def remaining (s : State) : List Byte :=
  (respHeader s).drop s.respPos ++ ((bufBytes s).take s.rsize.toNat).drop s.j.toNat

/-- The pin events of the bits of sr_write (R120). -/
def bitEvents (bits : List Bool) : List Event :=
  bits.flatMap fun b => [.drive .srData b, .drive .srClk true, .drive .srClk false]

/-- The contention marker a strobe of the word `w` records (R121). -/
def strobeMark (d : BusDir) (w : Half) : List Event :=
  if d = .output ∧ w.getLsbD 15 = false then [.contention] else []

/-- The pin events of sr_write (R120), with the marker its strobe may record. -/
def srEvents (d : BusDir) (w : Half) : List Event :=
  bitEvents (msbFirst w) ++ ([.drive .srLatch true] ++ strobeMark d w ++ [.drive .srLatch false])

/-- The pin events of read_byte (R140). -/
def readEvents (a : Half) : List Event :=
  [.setDir .input] ++ srEvents .input (encodeWord a true) ++ [.sample]

/-- The pin events of read_range over `n` bytes, ascending (R170, R175). -/
def readRangeEvents (a : Half) (n : Nat) : List Event :=
  (List.range n).flatMap fun t => readEvents (a + BitVec.ofNat 16 t)

/-- The pin events of the write pulse (R142). -/
def pulseEvents (p : Config.Params) : List Event :=
  [.drive .weN false, .delay p.tWe, .drive .weN true, .delay p.tSettle]

/-- The marker of write_byte's first event (R286): the lines turn to output while the device still drives them. -/
def turnMark (s : State) : List Event := if s.dDir = .input ∧ srDir s = false then [.contention] else []

/-- The pin events of write_byte (R141) with the marker of its first event. -/
def writeByteEvents (p : Config.Params) (mark : List Event) (a : Half) (v : Byte) : List Event :=
  [.setDir .output] ++ mark ++ srEvents .output (encodeWord a false) ++ [.driveBus v] ++ pulseEvents p

/-- The pin events of writes from `a` on; only the first can find the device driving (R286). -/
def writeRangeEvents (p : Config.Params) : List Event → Half → List Byte → List Event
  | _, _, [] => []
  | mark, a, v :: r => writeByteEvents p mark a v ++ writeRangeEvents p [] (a + 1) r

/-- An INVALID command of each of the opcode table's seven rows (R93). -/
def invalidRows (act : Byte) (addr size : Half) : List Instr :=
  [.invalid02 act addr size, .invalid04 act addr size, .invalid08 act addr size, .invalid10 act addr size,
   .invalid20 act addr size, .invalid40 act addr size, .invalid80 act addr size]

/-- The buffer of `size` bytes can be allocated (R203). -/
abbrev canAllocate (s : State) (size : Half) : Prop := size = 0 ∨ size.toNat ≤ s.cfg.bufBytes

/-- The lines rest, the device is idle and no platform reset is due: what holds of a machine in use between two steps
(R283). -/
def Ready (s : State) : Prop := Quiet s ∧ s.resetIn = none

end Sys2Proof.Machine
end

