-- ==== Sys2Proof/Certificates/Slice0/Obligations.lean ====
section
/-! DEFINITION. The statements for the provers. Each docstring names the rules of spec/ it formalises. -/

open Sys2Proof Sys2Proof.Machine

/-! ## Encoding -/

/-- R90, R92: the nine fixed bytes of every well-formed command decode to it, whatever follows. -/
def Obligations.DecodeOfEncodeIsIdentity : Prop :=
  ∀ (i : Instr) (rest : List Byte), i.wf = true → decode (encode i ++ rest) = .ok (i, rest)

/-- R90, R94: bytes that decode are the encoding of what they decode to, which is well-formed. -/
def Obligations.EncodeOfDecodeIsIdentity : Prop :=
  ∀ (bytes rest : List Byte) (i : Instr), decode bytes = .ok (i, rest) → bytes = encode i ++ rest ∧ i.wf = true

/-- R93, R94: an action byte has the fixed bits of exactly one row, and selects that row's command with the action,
address and size as they stand. -/
def Obligations.EveryActionSelectsOneCommand : Prop :=
  ∀ (act : Byte) (addr size : Half),
    ((Instr.read addr size :: .write addr size :: invalidRows act addr size).filter
        fun i => i.wf && i.action == act) = [decodeCommand act addr size] ∧
      (decodeCommand act addr size).action = act ∧ (decodeCommand act addr size).address = addr ∧
      (decodeCommand act addr size).count = size

/-- R91: the opcode table's word `F`, bit 71 first: the magic in 71:40, the action in 39:32, the address in 31:16, the
size in 15:0. That the word is stored most significant byte first is DEDUCED (log entry 2). -/
def Obligations.TableWordFields : Prop :=
  ∀ f : BitVec 72, decodeTableWord 72 f.toNat =
    if f.extractLsb' 40 32 = Config.magic then
      some (decodeCommand (f.extractLsb' 32 8) (f.extractLsb' 16 16) (f.extractLsb' 0 16))
    else none

/-- R90, R93: one written-out frame of each row. -/
def Obligations.WrittenOutFramesDecode : Prop :=
  decode [0xCA, 0xFE, 0xBA, 0xBE, 0x00, 0x07, 0xF8, 0x00, 0x10] = .ok (.read 0x07F8 0x0010, []) ∧
  decode [0xCA, 0xFE, 0xBA, 0xBE, 0x01, 0x12, 0x34, 0xAB, 0xCD, 0x55] = .ok (.write 0x1234 0xABCD, [0x55]) ∧
  decode [0xCA, 0xFE, 0xBA, 0xBE, 0x02, 0x00, 0x00, 0x00, 0x04] = .ok (.invalid02 0x02 0 4, []) ∧
  decode [0xCA, 0xFE, 0xBA, 0xBE, 0x07, 0x00, 0x01, 0x00, 0x00] = .ok (.invalid04 0x07 1 0, []) ∧
  decode [0xCA, 0xFE, 0xBA, 0xBE, 0x0C, 0x80, 0x00, 0x01, 0x00] = .ok (.invalid08 0x0C 0x8000 0x0100, []) ∧
  decode [0xCA, 0xFE, 0xBA, 0xBE, 0x1F, 0x00, 0xFF, 0xFF, 0x00] = .ok (.invalid10 0x1F 0x00FF 0xFF00, []) ∧
  decode [0xCA, 0xFE, 0xBA, 0xBE, 0x3E, 0x00, 0x00, 0x00, 0x00] = .ok (.invalid20 0x3E 0 0, []) ∧
  decode [0xCA, 0xFE, 0xBA, 0xBE, 0x40, 0x08, 0x00, 0x00, 0x01] = .ok (.invalid40 0x40 0x0800 1, []) ∧
  decode [0xCA, 0xFE, 0xBA, 0xBE, 0xFF, 0xFF, 0xFF, 0xFF, 0xFF] = .ok (.invalid80 0xFF 0xFFFF 0xFFFF, [])

/-! ## Fetching a command -/

/-- R202, R205: with SYNC's match made, a CORE step on a complete header is the `exec` of the instruction the frame
decodes to. What the step adds: the agenda moves past a `core` entry, the five bytes leave `rx` in one burst, and the
countdown of a reset due takes one event; a reset due at once falls before it (log entries 1, 10, 11). -/
def Obligations.StepRunsDecodedCommand : Prop :=
  ∀ (s : State) (i : Instr) (rest : List Byte) (agenda : List HostMove),
    s.st = .hdr → decode (Config.magicBytes ++ s.rx) = .ok (i, rest) →
    (s.host = [] ∧ agenda = [] ∨ s.host = .core :: agenda) →
    (s.resetIn ≠ some 0 →
      step s = exec i { s with host := agenda, rx := rest, resetIn := s.resetIn.map (· - 1) }) ∧
    (s.resetIn = some 0 → step s = .next (platformReset { s with host := agenda }))

/-- R202: with fewer than five bytes available HDR pops nothing and polls. -/
def Obligations.HdrPollsUntilFiveBytes : Prop :=
  ∀ s : State, s.host = [] → s.resetIn = none → s.st = .hdr → s.rx.length < 5 →
    step s = .next { s with trace := s.trace ++ [.delay s.cfg.tPoll] }

/-- R201: the three cases of the SYNC step. -/
def Obligations.SyncScansOneByte : Prop :=
  ∀ s : State, s.host = [] → s.resetIn = none → s.st = .sync →
    (s.acc = Config.magic → step s = .next { s with st := .hdr }) ∧
    (s.acc ≠ Config.magic → ∀ b l, s.rx = b :: l →
      step s = .next { s with rx := l, acc := BitVec.ofNat 32 (s.acc.toNat * 256 + b.toNat) }) ∧
    (s.acc ≠ Config.magic → s.rx = [] →
      step s = .next { s with trace := s.trace ++ [.delay s.cfg.tPoll] })

/-- R216, R261: an idle CORE stays idle; its only event is the poll's delay. -/
def Obligations.IdleCoreOnlyPolls : Prop :=
  ∀ s : State, s.host = [] → s.resetIn = none → idle s = true →
    ∃ t, step s = .next t ∧ t = { s with trace := s.trace ++ [.delay s.cfg.tPoll] } ∧ idle t = true

/-- R213, R201: from an entry to SYNC, a prefix without the magic is consumed and the frame after it is run; and when
the prefix `p` ends in the first occurrence of the magic, the bytes after it are what HDR sees. The counts of steps are
those of this model's steps (DESIGN CHOICE, log entries 1, 11); R213 gives none. -/
def Obligations.HeaderFoundAfterGarbage : Prop :=
  ∀ (s : State) (p g rest : List Byte) (i : Instr),
    s.host = [] → s.resetIn = none → s.st = .sync → s.acc = 0 →
    (Config.magicBytes <:+ p → ¬ Config.magicBytes <:+: p.dropLast → s.rx = p ++ rest →
      core.run (p.length + 1) s = .next { s with st := .hdr, acc := Config.magic, rx := rest }) ∧
    (i.wf = true → ¬ Config.magicBytes <:+: g → s.rx = g ++ encode i ++ rest →
      core.run (g.length + 6) s = exec i { s with st := .hdr, acc := Config.magic, rx := rest })

/-- R214: no proper suffix of the magic is a proper prefix of it, so no match straddles the end of bytes without the
magic and the beginning of a header. -/
def Obligations.MagicHasNoSelfOverlap : Prop :=
  (∀ n, 0 < n → n < 4 → Config.magicBytes.drop (4 - n) ≠ Config.magicBytes.take n) ∧
  ∀ (g : List Byte) (n : Nat), ¬ Config.magicBytes <:+: g → n < 4 →
    ¬ Config.magicBytes <:+: g ++ Config.magicBytes.take n

/-- R204, R203: a command whose buffer cannot be allocated, whichever it is, is dropped: the five command bytes are
consumed, SYNC is entered, and neither `ract` nor `rsize`, the device, the lines, the response stream nor the payload in
`rx` is touched. -/
def Obligations.AllocationFailureAborts : Prop :=
  ∀ (i : Instr) (s : State) (rest : List Byte), s.host = [] → s.resetIn = none → s.st = .hdr →
    decode (Config.magicBytes ++ s.rx) = .ok (i, rest) → ¬ canAllocate s i.count →
    step s = .next { s with st := .sync, acc := 0, buf := none, rx := rest,
                            action := i.action, addr := i.address, size := i.count }

/-! ## The encoder, the clamper and the serializer -/

/-- R125: bit 15 says the direction, bits 14 to 11 are 0, and the low 11 bits are the address modulo 2048. -/
def Obligations.EncoderLaws : Prop :=
  ∀ a : Half,
    (encodeWord a true).getLsbD 15 = false ∧ (encodeWord a false).getLsbD 15 = true ∧
    ∀ oe : Bool, (∀ n, 11 ≤ n → n ≤ 14 → (encodeWord a oe).getLsbD n = false) ∧
      (encodeWord a oe).toNat % 2048 = a.toNat % 2048

/-- R173: the clamp, its closed form, its bounds, and the source's formula up to `CAP`. -/
def Obligations.ClampLaws : Prop :=
  ∀ address size : Half,
    (Config.cap ≤ address.toNat → clamp address size = 0) ∧
    (address.toNat < Config.cap → (clamp address size).toNat = min size.toNat (Config.cap - address.toNat)) ∧
    (clamp address size).toNat ≤ size.toNat ∧ (clamp address size).toNat ≤ Config.cap ∧
    (address.toNat ≤ Config.cap → (clamp address size).toNat =
      if Config.cap < address.toNat + size.toNat then Config.cap - address.toNat else size.toNat)

/-- R122: after sr_write(w), begun with the lines at their idle levels (R34 to R36), the shift stage and the outputs hold
`w`, whatever they held. -/
def Obligations.SrWriteLatchesAnyWord : Prop :=
  ∀ (w : Half) (s : State), s.srClk = false → s.srLatch = false → s.weN = true → s.resetIn = none →
    ∃ t, srWrite w s = .ok () t ∧ t.srShift = w ∧ t.srQ = w ∧ srOut t = w

/-- R120: the events of sr_write, in order, and what it leaves unchanged. The contention marker of R121 is no pin event
(R10). -/
def Obligations.SrWriteEvents : Prop :=
  ∀ (w : Half) (s : State), s.srClk = false → s.srLatch = false → s.weN = true → s.resetIn = none →
    ∃ t, srWrite w s = .ok () t ∧
      t = { s with srData := w.getLsbD 0, srShift := t.srShift, srQ := t.srQ, srLatched := t.srLatched,
                   trace := t.trace } ∧
      ∃ new, t.trace = s.trace ++ new ∧ (pinEvents new).length = 50 ∧
        pinEvents new =
          ((List.range 16).flatMap fun n =>
            [.drive .srData (w.getLsbD (15 - n)), .drive .srClk true, .drive .srClk false]) ++
          [.drive .srLatch true, .drive .srLatch false]

/-- R121: the shift register answers to the rising edges of the clock and of the latch, and to nothing else the lines
do; the latch's contention marker is R64's. -/
def Obligations.ShiftRegisterAnswersEdges : Prop :=
  ∀ s : State, s.resetIn = none →
    (s.srClk = false → drive .srClk true s =
      .ok () { s with srClk := true, trace := s.trace ++ [.drive .srClk true],
                      srShift := BitVec.ofNat 16 (s.srShift.toNat * 2 + s.srData.toNat) }) ∧
    (s.srClk = true → drive .srClk true s = .ok () { s with trace := s.trace ++ [.drive .srClk true] }) ∧
    drive .srClk false s = .ok () { s with srClk := false, trace := s.trace ++ [.drive .srClk false] } ∧
    (∀ b, drive .srData b s = .ok () { s with srData := b, trace := s.trace ++ [.drive .srData b] }) ∧
    (s.srLatch = false → s.weN = false →
      drive .srLatch true s = .fault (.addressChangedDuringWrite (srAddr s))) ∧
    (s.srLatch = false → s.weN = true → drive .srLatch true s =
      .ok () { s with srLatch := true, srQ := s.srShift, srLatched := true,
                      trace := s.trace ++ [.drive .srLatch true] ++
                        (if s.dDir = .output ∧ s.srShift.getLsbD 15 = false then [.contention] else []) }) ∧
    (s.srLatch = true → drive .srLatch true s = .ok () { s with trace := s.trace ++ [.drive .srLatch true] }) ∧
    drive .srLatch false s = .ok () { s with srLatch := false, trace := s.trace ++ [.drive .srLatch false] }

/-- R285: while any bits are shifted the outputs keep the word they show, whatever state the shifting begins in; the
strobe's rising edge gives them the shift stage, all at once. -/
def Obligations.OutputsHoldWhileShifting : Prop :=
  ∀ (bits : List Bool) (s t : State),
    (srShiftBits bits s = .ok () t → srOut t = srOut s ∧ srAddr t = srAddr s ∧ srDir t = srDir s ∧ t.mem = s.mem) ∧
    (s.srLatch = false → drive .srLatch true s = .ok () t → srOut t = s.srShift)

/-- R121, R251 (the vector SR4): sr_write inside a write pulse stops at its strobe, with the old address. -/
def Obligations.SrWriteDuringPulseFaults : Prop :=
  ∀ (w : Half) (s : State), s.srClk = false → s.srLatch = false → s.weN = false → s.resetIn = none →
    srWrite w s = .fault (.addressChangedDuringWrite (srAddr s))

/-! ## The device -/

/-- R65: a rising edge of `WE_N`: the three checks in their order, then the commit. A level that does not rise commits
nothing, and a latch strobe while `WE_N` is low is a fault. -/
def Obligations.WriteCommitChecksInOrder : Prop :=
  ∀ s : State, s.resetIn = none →
    (s.weN = false → drive .weN true s =
      if s.wcBusy then .fault (.writeCycleViolation (srAddr s))
      else if srDir s = false then .fault (.writeWhileOutputEnabled (srAddr s))
      else if s.dDir = .input then .fault (.writeFloatingBus (srAddr s))
      else .ok () { s with weN := true, mem := memWrite s.mem (srAddr s).toNat s.dOut, wcBusy := true,
                           trace := s.trace ++ [.drive .weN true] }) ∧
    (s.weN = true → drive .weN true s = .ok () { s with trace := s.trace ++ [.drive .weN true] }) ∧
    (s.weN = false → s.srLatch = false →
      drive .srLatch true s = .fault (.addressChangedDuringWrite (srAddr s)))

/-- R62: a sample while the device drives the bus. -/
def Obligations.SampleReadsTheCell : Prop :=
  ∀ s : State, s.resetIn = none → s.dDir = .input → srDir s = false →
    (s.wcBusy = true → sample s = .fault (.writeCycleViolation (srAddr s))) ∧
    (s.wcBusy = false →
      sample s = .ok (memRead s.mem (srAddr s).toNat) { s with trace := s.trace ++ [.sample] })

/-- R63, R64: a sample of a floating or contended bus takes the next free value, whatever it is, and changes nothing
else; a sample of the CORE's own level reads it (DEDUCED, log entry 9). -/
def Obligations.SampleOffTheDeviceIsFree : Prop :=
  ∀ s : State, s.resetIn = none →
    (s.dDir = .input ∧ srDir s = true ∨ s.dDir = .output ∧ srDir s = false →
      sample s = .ok (Config.busValue s.draws) { s with trace := s.trace ++ [.sample], draws := s.draws + 1 }) ∧
    (s.dDir = .output → srDir s = true → sample s = .ok s.dOut { s with trace := s.trace ++ [.sample] })

/-- R142, R66: the pulse over a driven byte and a latched write word: its four events, the commit, and an idle device
at the end of the settle delay. -/
def Obligations.WritePulseCommits : Prop :=
  ∀ s : State, s.resetIn = none → s.weN = true → s.wcBusy = false → srDir s = true → s.dDir = .output →
    writePulse s = .ok () { s with
      mem := memWrite s.mem (srAddr s).toNat s.dOut,
      trace := s.trace ++ [.drive .weN false, .delay s.cfg.tWe, .drive .weN true, .delay s.cfg.tSettle] }

/-- R68, R69, R251 (the vectors T1, T2): accesses past the buffer, and to an empty transport. That an access with no
buffer is a buffer overrun at every index is the model's DESIGN CHOICE (log entry 14). -/
def Obligations.BufferAndTransportFaults : Prop :=
  ∀ (s : State) (n : Nat) (v : Byte),
    (s.rx = [] → rxPop s = .fault .rxUnderflow) ∧
    (s.buf = none → bufRead n s = .fault .bufferOverrun ∧ bufWrite n v s = .fault .bufferOverrun) ∧
    ∀ b, s.buf = some b →
      (b.length ≤ n → bufRead n s = .fault .bufferOverrun ∧ bufWrite n v s = .fault .bufferOverrun) ∧
      (∀ h : n < b.length, bufRead n s = .ok b[n] s ∧ bufWrite n v s = .ok () { s with buf := some (b.set n v) })

/-! ## The byte engine -/

/-- R140, R143: read_byte returns the byte of the cell its address names modulo `CAP`, in 52 pin events, and writes only
the bus direction and the shift register. -/
def Obligations.ReadByteReadsItsCell : Prop :=
  ∀ (a : Half) (s : State), Ready s →
    ∃ t, readByte a s = .ok (memRead s.mem (a.toNat % Config.cap)) t ∧
      t = { s with dDir := .input, srData := t.srData, srShift := encodeWord a true, srQ := encodeWord a true,
                   srLatched := true, trace := s.trace ++ readEvents a } ∧
      (pinEvents (readEvents a)).length = 52

/-- R141, R142, R143: write_byte writes its byte to the cell its address names modulo `CAP`, in 56 pin events, ends
with `WE_N` high and the device idle, and leaves every other cell as it was. -/
def Obligations.WriteByteCommits : Prop :=
  ∀ (a : Half) (v : Byte) (s : State), Ready s → Memory.wf s.mem →
    ∃ t, writeByte a v s = .ok () t ∧
      t = { s with dDir := .output, dOut := v, srData := t.srData, srShift := encodeWord a false,
                   srQ := encodeWord a false, srLatched := true, mem := t.mem,
                   trace := s.trace ++ writeByteEvents s.cfg (turnMark s) a v } ∧
      (∀ x, memRead t.mem x = if x = a.toNat % Config.cap then v else memRead s.mem x) ∧
      (pinEvents (writeByteEvents s.cfg (turnMark s) a v)).length = 56

/-- R144: the round trip, for every address the byte engine accepts. -/
def Obligations.ReadAfterWriteReturnsByte : Prop :=
  ∀ (a : Half) (v : Byte) (s : State), Ready s → Memory.wf s.mem →
    ∃ t u, writeByte a v s = .ok () t ∧ readByte a t = .ok v u

/-- R286, R64 (the vectors B1 to B3): a write after a read records one contention marker, straight after the lines turn;
a write after a write and a read after a write record none. -/
def Obligations.WriteByteContentionWindow : Prop :=
  ∀ (a b c : Half) (v w : Byte) (s t : State), Ready s →
    (∀ x, readByte a s = .ok x t → ∃ u new, writeByte b v t = .ok () u ∧
      u.trace = t.trace ++ [.setDir .output, .contention] ++ new ∧ .contention ∉ new) ∧
    (writeByte a v s = .ok () t →
      (∃ u new, writeByte b w t = .ok () u ∧ u.trace = t.trace ++ new ∧ .contention ∉ new) ∧
      ∃ x u new, readByte c t = .ok x u ∧ u.trace = t.trace ++ new ∧ .contention ∉ new)

/-- R289: the least times of sr_write, read_byte, write_byte and write_range, as the delays and the line events of the
trace add up (DEDUCED, log entry 17). The bounds of the two writes hold by their delays alone, whatever their other events
are charged. -/
def Obligations.LeastTimes : Prop :=
  ∀ (a w : Half) (v : Byte) (data : List Byte) (s t : State), Ready s → data.length ≤ 65535 →
    (srWrite w s = .ok () t → ∃ new, t.trace = s.trace ++ new ∧ traceMinTime s.cfg new = 50 * s.cfg.tSr) ∧
    (∀ x, readByte a s = .ok x t → ∃ new, t.trace = s.trace ++ new ∧
      traceMinTime s.cfg new = 52 * s.cfg.tSr + s.cfg.tAcc) ∧
    (writeByte a v s = .ok () t → ∃ new, t.trace = s.trace ++ new ∧
      s.cfg.tWe + s.cfg.tSettle ≤ traceMinTime s.cfg new) ∧
    (writeRange a data s = .ok () t → ∃ new, t.trace = s.trace ++ new ∧
      fits a.toNat data.length * (s.cfg.tWe + s.cfg.tSettle) ≤ traceMinTime s.cfg new)

/-! ## Reset -/

/-- R282, R67: a platform reset due after `n` events of a write_byte. Up to the fall of `WE_N` it leaves every cell; from
there to the end of the settle delay it leaves a free value in the addressed cell alone; later it does not fall inside. -/
def Obligations.ResetInsideWriteTearsOneCell : Prop :=
  ∀ (a : Half) (v : Byte) (s : State) (n : Nat), Quiet s → Memory.wf s.mem → s.resetIn = some n →
    (n ≤ 52 → ∃ t, (writeByte a v s).outcome = .next t ∧ t.st = .sync ∧ t.resets = s.resets + 1 ∧
      t.mem = s.mem ∧ t.rx = s.rx ∧ t.tx = s.tx) ∧
    (53 ≤ n → n ≤ 55 → ∃ t, (writeByte a v s).outcome = .next t ∧ t.st = .sync ∧ t.resets = s.resets + 1 ∧
      t.wcBusy = false ∧ t.rx = s.rx ∧ t.tx = s.tx ∧
      ∀ x, memRead t.mem x = if x = a.toNat % Config.cap then Config.tornByte s.draws else memRead s.mem x) ∧
    (56 ≤ n → ∃ t, writeByte a v s = .ok () t ∧ t.resetIn = some (n - 56) ∧ t.resets = s.resets)

/-- R280, R47, R21, R22, R32 to R38, R43 to R45: the values the spec gives a platform reset, from any state; `mem` stays
unless a write is under way. -/
def Obligations.PlatformResetValues : Prop :=
  ∀ s : State, ∃ t, t = platformReset s ∧
    t.st = .sync ∧ t.acc = 0 ∧ t.buf = none ∧ t.srData = false ∧ t.srClk = false ∧ t.srLatch = false ∧
    t.weN = true ∧ t.dDir = .input ∧ t.dOut = 0 ∧ t.wcBusy = false ∧ t.rx = s.rx ∧ t.tx = s.tx ∧ t.cfg = s.cfg ∧
    (s.weN = true → s.wcBusy = false → t.mem = s.mem)

/-- R282, R212: a reset due at once is taken by the next CORE step that has an event. That is the next CORE step of every
state but three: SYNC with its match made, which only enters HDR; EXEC_ALLOC whose allocation fails, which only enters
SYNC; and RESP with every byte pushed. The agenda moves past a `core` entry (log entries 10, 11). -/
def Obligations.DueResetIsTaken : Prop :=
  ∀ (s : State) (agenda : List HostMove), (s.host = [] ∧ agenda = [] ∨ s.host = .core :: agenda) →
    s.resetIn = some 0 → Inv s → (s.st = .sync → s.acc ≠ Config.magic) →
    (s.st = .execAlloc → canAllocate s s.size) → (s.st = .resp → s.respPos < 9 ∨ s.j ≠ s.rsize) →
    step s = .next (platformReset { s with host := agenda })

/-- R47, R281: the values the spec gives the machine at power-on, with any parameters and any `MEM0`; the boot
requirements hold. R47 leaves `sr_q` unspecified: that the outputs show `Config.unlatchedWord 0` is the free value of
log entry 6, whose form is a DESIGN CHOICE. -/
def Obligations.PowerOnValues : Prop :=
  ∀ (cfg : Config.Params) (mem0 : Memory), ∃ s, s = State.powerOn cfg mem0 ∧
    s.st = .sync ∧ s.acc = 0 ∧ s.buf = none ∧ s.weN = true ∧ s.srData = false ∧ s.srClk = false ∧
    s.srLatch = false ∧ s.dDir = .input ∧ s.dOut = 0 ∧ s.wcBusy = false ∧ s.rx = [] ∧ s.tx = [] ∧ s.mem = mem0 ∧
    srOut s = Config.unlatchedWord 0

/-! ## The range operations -/

/-- R170, R175: read_range's count, the buffer and the cells it reads, one by one and ascending; without a buffer it
touches nothing. -/
def Obligations.ReadRangeCountsAndFills : Prop :=
  ∀ (a n bufcap : Half) (s : State), Ready s →
    (s.buf = none → readRange a n bufcap s = .ok 0 s) ∧
    ∀ b, s.buf = some b → b.length ≤ 65535 → bufcap.toNat ≤ b.length →
      ∃ t c, readRange a n bufcap s = .ok (BitVec.ofNat 16 c) t ∧
        c = min (min n.toNat bufcap.toNat) (Config.cap - a.toNat) ∧ t.k.toNat = c ∧
        t.buf = some (deviceBytes s.mem a.toNat c ++ b.drop c) ∧
        t.trace = s.trace ++ readRangeEvents a c ∧
        t = { s with dDir := t.dDir, srData := t.srData, srShift := t.srShift, srQ := t.srQ,
                     srLatched := t.srLatched, trace := t.trace, buf := t.buf, k := t.k }

/-- R170, R68: read_range with a capacity above the buffer's real length stops at the buffer's end, when the range gets
that far. -/
def Obligations.ReadRangePastBufferFaults : Prop :=
  ∀ (a n bufcap : Half) (s : State) (b : List Byte), Ready s → s.buf = some b →
    b.length < min (min n.toNat bufcap.toNat) (Config.cap - a.toNat) →
    readRange a n bufcap s = .fault .bufferOverrun

/-- R171, R175: the cells write_range writes, one by one and ascending, and every other cell as it was. -/
def Obligations.WriteRangeWritesPrefix : Prop :=
  ∀ (a : Half) (data : List Byte) (s : State), Ready s → Memory.wf s.mem → data.length ≤ 65535 →
    ∃ t w, writeRange a data s = .ok () t ∧ w = min data.length (Config.cap - a.toNat) ∧ t.k.toNat = w ∧
      (∀ x, memRead t.mem x =
        if a.toNat ≤ x ∧ x < a.toNat + w then data.getD (x - a.toNat) 0 else memRead s.mem x) ∧
      t.trace = s.trace ++ writeRangeEvents s.cfg (turnMark s) a (data.take w) ∧
      t = { s with dDir := t.dDir, srData := t.srData, srShift := t.srShift, srQ := t.srQ,
                   srLatched := t.srLatched, dOut := t.dOut, mem := t.mem, trace := t.trace, k := t.k }

/-- R172, R175: the cells write_fill writes all take the one value, one by one and ascending, and every other cell
stays. -/
def Obligations.WriteFillRepeats : Prop :=
  ∀ (a : Half) (v : Byte) (count : Half) (s : State), Ready s → Memory.wf s.mem →
    ∃ t w, writeFill a v count s = .ok () t ∧ w = min count.toNat (Config.cap - a.toNat) ∧ t.k.toNat = w ∧
      (∀ x, memRead t.mem x = if a.toNat ≤ x ∧ x < a.toNat + w then v else memRead s.mem x) ∧
      t.trace = s.trace ++ writeRangeEvents s.cfg (turnMark s) a (List.replicate w v) ∧
      t = { s with dDir := t.dDir, srData := t.srData, srShift := t.srShift, srQ := t.srQ,
                   srLatched := t.srLatched, dOut := t.dOut, mem := t.mem, trace := t.trace, k := t.k }

/-- R174: for every address and size, with `r` the clamped size: read_range over a buffer of `size` bytes returns `r`,
and write_range of `r` bytes writes exactly `r` cells, one commit each. -/
def Obligations.ClampsAgree : Prop :=
  ∀ (address size r : Half) (s : State) (b : List Byte), Ready s → s.buf = some b → b.length = size.toNat →
    r = clamp address size →
    (∃ t, readRange address r size s = .ok r t) ∧
    ∃ t new, writeRange address (b.take r.toNat) s = .ok () t ∧ t.k = r ∧ t.trace = s.trace ++ new ∧
      new.count (.drive .weN true) = r.toNat

/-! ## The commands -/

/-- R206: READ, for every address and size whose buffer can be allocated: the response with the clamped size and the
device's bytes, the cells read one by one and ascending, no cell and no waiting byte changed, and SYNC entered. -/
def Obligations.ReadCommandResponds : Prop :=
  ∀ (addr size : Half) (s : State), Ready s → canAllocate s size →
    accepts s (9 + fits addr.toNat size.toNat) = true →
    ∃ t, exec (.read addr size) s = .next t ∧
      t.tx = s.tx ++ responseFrame 0x00 addr (clamp addr size)
        (deviceBytes s.mem addr.toNat (clamp addr size).toNat) ∧
      t.trace = s.trace ++ readRangeEvents addr (clamp addr size).toNat ∧ t.mem = s.mem ∧ t.rx = s.rx ∧
      t.st = .sync ∧ t.acc = 0 ∧ t.buf = none ∧ t.action = 0x00 ∧ t.addr = addr ∧ t.size = size ∧
      t.ract = 0x00 ∧ t.rsize = clamp addr size ∧ t.j = clamp addr size ∧ t.k = clamp addr size

/-- R207: WRITE with its whole payload on the stream: the payload is drained, its first `rsize` bytes are written one by
one and ascending, every other cell stays, the response echoes the bytes written, and SYNC is entered. -/
def Obligations.WriteCommandCommitsAndEchoes : Prop :=
  ∀ (addr size : Half) (payload rest : List Byte) (s : State), Ready s → Memory.wf s.mem → canAllocate s size →
    accepts s (9 + fits addr.toNat size.toNat) = true → payload.length = size.toNat → s.rx = payload ++ rest →
    ∃ t, exec (.write addr size) s = .next t ∧
      t.tx = s.tx ++ responseFrame 0x01 addr (clamp addr size) (payload.take (clamp addr size).toNat) ∧
      (∀ x, memRead t.mem x =
        if addr.toNat ≤ x ∧ x < addr.toNat + (clamp addr size).toNat then payload.getD (x - addr.toNat) 0
        else memRead s.mem x) ∧
      t.trace = s.trace ++ writeRangeEvents s.cfg (turnMark s) addr (payload.take (clamp addr size).toNat) ∧
      t.rx = rest ∧ t.st = .sync ∧ t.acc = 0 ∧ t.buf = none ∧ t.action = 0x01 ∧ t.addr = addr ∧ t.size = size ∧
      t.ract = 0x01 ∧ t.rsize = clamp addr size ∧ t.i = size ∧ t.j = clamp addr size ∧ t.k = clamp addr size ∧
      t.weN = true ∧ t.wcBusy = false

/-- R208: INVALID, all seven rows (invalid02, invalid04, invalid08, invalid10, invalid20, invalid40, invalid80): the
sentinel response with `rsize` zero bytes, no device access, no pin event, no payload drained, and SYNC entered; nothing
else changes. -/
def Obligations.InvalidCommandsRespond : Prop :=
  ∀ (act : Byte) (addr size : Half) (s : State) (i : Instr), i ∈ invalidRows act addr size → i.wf = true →
    s.resetIn = none → canAllocate s size → accepts s (9 + fits addr.toNat size.toNat) = true →
    exec i s = .next { s with
      st := .sync, acc := 0, buf := none, action := act, addr := addr, size := size, ract := 0xFF,
      rsize := clamp addr size, j := clamp addr size, respPos := 9,
      tx := s.tx ++ responseFrame 0xFF addr (clamp addr size) (List.replicate (clamp addr size).toNat 0x00),
      txRoom := roomAfter s (9 + (clamp addr size).toNat) }

/-- R211: READ and WRITE of no bytes, at any address: the nine-byte response, no device access, no byte drained. -/
def Obligations.ZeroLengthCommands : Prop :=
  ∀ (addr : Half) (s : State), s.resetIn = none → accepts s 9 = true →
    exec (.read addr 0) s = .next { s with
      st := .sync, acc := 0, buf := none, action := 0x00, addr := addr, size := 0, ract := 0x00, rsize := 0,
      j := 0, k := 0, respPos := 9, tx := s.tx ++ responseFrame 0x00 addr 0 [], txRoom := roomAfter s 9 } ∧
    exec (.write addr 0) s = .next { s with
      st := .sync, acc := 0, buf := none, action := 0x01, addr := addr, size := 0, ract := 0x01, rsize := 0,
      i := 0, j := 0, k := 0, respPos := 9, tx := s.tx ++ responseFrame 0x01 addr 0 [], txRoom := roomAfter s 9 }

/-- R207, R212: a WRITE whose payload has not all arrived takes what is there into a zero-filled buffer and waits in
EXEC_WRX with one idle delay; and a wait with nothing new goes on. -/
def Obligations.ShortPayloadWaits : Prop :=
  (∀ (addr size : Half) (s : State), s.resetIn = none → canAllocate s size → s.rx.length < size.toNat →
    exec (.write addr size) s = .next { s with
      st := .execWrx, action := 0x01, addr := addr, size := size, ract := 0x01, rsize := clamp addr size,
      i := BitVec.ofNat 16 s.rx.length, rx := [],
      buf := some (s.rx ++ List.replicate (size.toNat - s.rx.length) 0),
      trace := s.trace ++ [.delay s.cfg.tPoll] }) ∧
  ∀ s : State, s.host = [] → s.resetIn = none → s.st = .execWrx → s.rx = [] → s.i ≠ s.size →
    step s = .next { s with trace := s.trace ++ [.delay s.cfg.tPoll] }

/-- R207: a payload that arrives in two parts has the effect it has in one, but for the idle delay of the wait. -/
def Obligations.PayloadInTwoParts : Prop :=
  ∀ (addr size : Half) (first second rest : List Byte) (s : State), Ready s → s.host = [] → canAllocate s size →
    s.rx = first → first.length < size.toNat → first.length + second.length = size.toNat →
    ∃ t, exec (.write addr size) s = .next t ∧
      step { t with rx := t.rx ++ (second ++ rest) } =
        exec (.write addr size)
          { s with rx := first ++ second ++ rest, trace := s.trace ++ [.delay s.cfg.tPoll] } ∧
      ∃ u, step { t with rx := t.rx ++ (second ++ rest) } = .next u

/-- R70, R209, R212: a push that the channel does not accept holds the response where it is, and the response goes on
from there when the host accepts bytes again (log entry 12 for how the model counts them). -/
def Obligations.HeldPushResumes : Prop :=
  ∀ (s : State) (n : Nat), Inv s → s.st = .resp → s.host = [] → s.resetIn = none → s.txRoom = some n →
    n < (remaining s).length →
    ∃ t u, step s = .next t ∧ t.st = .resp ∧ t.tx = s.tx ++ (remaining s).take n ∧ t.txRoom = some 0 ∧
      step { t with txRoom := none } = .next u ∧ u.st = .sync ∧ u.tx = s.tx ++ remaining s ∧ u.buf = none

/-- R215: a response held before any of its bytes, the first included, finds the device's work done: the cells, the pin
events and the inbound stream are those of the command that ran to its end. -/
def Obligations.ResponseFollowsDeviceWork : Prop :=
  ∀ (i : Instr) (s : State) (n : Nat), i.wf = true → Ready s → canAllocate s i.count → s.txRoom = some n →
    n < 9 + fits i.address.toNat i.count.toNat → (i.action = 0x01 → i.count.toNat ≤ s.rx.length) →
    ∃ t u, exec i s = .next t ∧ exec i { s with txRoom := none } = .next u ∧ t.st = .resp ∧ u.st = .sync ∧
      t.mem = u.mem ∧ t.trace = u.trace ∧ t.rx = u.rx ∧ t.weN = true ∧ t.wcBusy = false ∧
      t.tx <+: u.tx ∧ t.tx.length = s.tx.length + n

/-- R76, R206, R207 (the programs P1 and P3): a READ after a WRITE of the same range returns the bytes written. -/
def Obligations.WriteThenReadReturnsPayload : Prop :=
  ∀ (addr size : Half) (payload rest : List Byte) (s : State), Ready s → Memory.wf s.mem → canAllocate s size →
    s.txRoom = none → payload.length = size.toNat → s.rx = payload ++ rest →
    ∃ t u, exec (.write addr size) s = .next t ∧ exec (.read addr size) t = .next u ∧
      u.tx = s.tx ++
        responseFrame 0x01 addr (clamp addr size) (payload.take (clamp addr size).toNat) ++
        responseFrame 0x00 addr (clamp addr size) (payload.take (clamp addr size).toNat)

/-- R31, R250: the two status fields of a response, for every command (read, write and the seven invalid rows): `ract`
reports an invalid action, `rsize` below `size` reports a range that leaves the device, except for a command of no bytes,
where both are 0; both can be reported at once. -/
def Obligations.StatusFields : Prop :=
  ∀ (i : Instr) (s : State), i.wf = true → Ready s → canAllocate s i.count →
    accepts s (9 + fits i.address.toNat i.count.toNat) = true → (i.action = 0x01 → i.count.toNat ≤ s.rx.length) →
    ∃ t, exec i s = .next t ∧ t.st = .sync ∧ t.ract = resolvedAction i.action ∧
      (reportsInvalid t = true ↔ i.action ≠ 0x00 ∧ i.action ≠ 0x01) ∧
      (reportsTruncation t = true ↔ i.count ≠ 0 ∧ outOfRange i.address i.count = true)

/-! ## What the commands leave unchanged -/

/-- READ's frame (R206), whether it completes, aborts or holds: every cell, the inbound stream, `i`, `D_OUT`, the idle
lines, the parameters and the agenda stay; the outbound stream only grows. -/
def Obligations.ReadFrame : Prop :=
  ∀ (addr size : Half) (s t : State), Ready s → exec (.read addr size) s = .next t →
    (∀ x, memRead t.mem x = memRead s.mem x) ∧ t.mem = s.mem ∧ t.rx = s.rx ∧ s.tx <+: t.tx ∧ t.i = s.i ∧
    t.dOut = s.dOut ∧ t.srClk = s.srClk ∧ t.srLatch = s.srLatch ∧ t.weN = s.weN ∧ t.wcBusy = s.wcBusy ∧
    t.cfg = s.cfg ∧ t.host = s.host ∧ t.resetIn = none ∧ t.draws = s.draws ∧ t.resets = s.resets

/-- WRITE's frame (R207), whether it completes, aborts, waits or holds: every cell but those of the clamped range (at
`cellAddr addr k` for each `k` below the clamped size), the idle lines, the parameters and the agenda stay; the inbound
stream loses bytes only at its head, and the outbound stream only grows. -/
def Obligations.WriteFrame : Prop :=
  ∀ (addr size : Half) (s t : State), Ready s → Memory.wf s.mem → exec (.write addr size) s = .next t →
    (∀ x, (∀ k : Half, k.toNat < (clamp addr size).toNat → x ≠ (cellAddr addr k).toNat) →
      memRead t.mem x = memRead s.mem x) ∧
    (∃ n, n ≤ size.toNat ∧ t.rx = s.rx.drop n) ∧ s.tx <+: t.tx ∧ t.srClk = s.srClk ∧ t.srLatch = s.srLatch ∧
    t.weN = s.weN ∧ t.wcBusy = s.wcBusy ∧ t.cfg = s.cfg ∧ t.host = s.host ∧ t.resetIn = none ∧
    t.draws = s.draws ∧ t.resets = s.resets

/-- INVALID's frame (R208), all seven rows, whether it completes, aborts or holds: every cell, every line, the shift
register, the pin trace, the inbound stream, `i`, `k`, the parameters and the agenda stay; the outbound stream only
grows. -/
def Obligations.InvalidFrame : Prop :=
  ∀ (act : Byte) (addr size : Half) (i : Instr) (s t : State), i ∈ invalidRows act addr size → s.resetIn = none →
    exec i s = .next t →
    (∀ x, memRead t.mem x = memRead s.mem x) ∧ t.mem = s.mem ∧ t.rx = s.rx ∧ s.tx <+: t.tx ∧ t.trace = s.trace ∧
    t.i = s.i ∧ t.k = s.k ∧ t.srData = s.srData ∧ t.srClk = s.srClk ∧ t.srLatch = s.srLatch ∧ t.weN = s.weN ∧
    t.dDir = s.dDir ∧ t.dOut = s.dOut ∧ t.srShift = s.srShift ∧ t.srQ = s.srQ ∧ t.srLatched = s.srLatched ∧
    t.wcBusy = s.wcBusy ∧ t.cfg = s.cfg ∧ t.host = s.host ∧ t.resetIn = none ∧ t.draws = s.draws ∧
    t.resets = s.resets

/-! ## The whole machine -/

/-- The invariant holds at power-on with any parameters within R5's bounds and any `MEM0` in the memory's one form, and
so at `State.reset`. -/
def Obligations.PowerOnMeetsInv : Prop :=
  (∀ (cfg : Config.Params) (mem0 : Memory), cfg.wf → Memory.wf mem0 → Inv (State.powerOn cfg mem0)) ∧ Inv State.reset

/-- Every step keeps the invariant: the memory's form and R5's bounds, the lines at rest and the device idle between
steps (R283, R287), no standing contention (R286), the reserved bits 0 (R98), and the registers as the sequencer state
says (R21 to R32). -/
def Obligations.StepKeepsInv : Prop :=
  ∀ s t : State, Inv s → step s = .next t → Inv t

/-- R251: from a state that meets the invariant no step faults, and none is refused. -/
def Obligations.InvStepsNeverFault : Prop :=
  ∀ s : State, Inv s → ∃ t, step s = .next t

/-- R67, R61: a step with no reset due that changes a cell has written it for a WRITE command, within the command's
clamped range. -/
def Obligations.OnlyWritesChangeDevice : Prop :=
  ∀ (s t : State) (x : Nat), Inv s → s.resetIn = none → step s = .next t → memRead t.mem x ≠ memRead s.mem x →
    t.ract = 0x01 ∧ t.rsize = clamp t.addr t.size ∧ t.addr.toNat ≤ x ∧ x < t.addr.toNat + t.rsize.toNat

/-- R69, R70, R5: a step takes bytes only from the head of the inbound stream and, when the host sends, adds them at its
end; pushed bytes stay pushed, in order; and no step changes a parameter. -/
def Obligations.StreamsAreFifos : Prop :=
  ∀ s t : State, Inv s → step s = .next t →
    ((∃ n, t.rx = s.rx.drop n) ∨ ∃ bytes agenda, s.host = .send bytes :: agenda ∧ t.rx = s.rx ++ bytes) ∧
    s.tx <+: t.tx ∧ t.cfg = s.cfg

/-- R200, as this model's steps group the transitions (log entry 1): from each sequencer state, the states a step of the
CORE can end in. -/
def Obligations.SequencerTransitions : Prop :=
  ∀ s t : State, Inv s → s.host = [] → step s = .next t →
    t.st = .sync ∨
    match s.st with
    | .sync => t.st = .hdr ∧ s.acc = Config.magic
    | .hdr => t.st = .hdr ∧ s.rx.length < 5 ∨ t.st = .execWrx ∧ t.action = 0x01 ∨ t.st = .resp
    | .execAlloc => t.st = .execWrx ∧ s.action = 0x01 ∨ t.st = .resp
    | .execRead => t.st = .resp
    | .execWrx => t.st = .execWrx ∧ t.i ≠ t.size ∨ t.st = .resp
    | .execWcommit => t.st = .resp
    | .execInvalid => t.st = .resp
    | .resp => t.st = .resp

/-- R209: RESP accesses no device, moves no line and pops no byte; what it pushes are the bytes fixed at its entry, in
order. -/
def Obligations.RespTouchesNoDevice : Prop :=
  ∀ s t : State, Inv s → s.host = [] → s.resetIn = none → s.st = .resp → step s = .next t →
    t.mem = s.mem ∧ t.trace = s.trace ∧ t.rx = s.rx ∧ t.srQ = s.srQ ∧ t.srLatched = s.srLatched ∧
    t.srShift = s.srShift ∧ t.dDir = s.dDir ∧ t.dOut = s.dOut ∧ t.weN = s.weN ∧ t.srData = s.srData ∧
    t.srClk = s.srClk ∧ t.srLatch = s.srLatch ∧
    ∃ more, t.tx = s.tx ++ more ∧ more <+: remaining s ∧ (t.st = .sync → more = remaining s)

/-- R9, R69, R70, R282: the moves of the host and the platform (log entry 11 for their form). -/
def Obligations.HostMoves : Prop :=
  ∀ (s : State) (agenda : List HostMove),
    (∀ bytes, s.host = .send bytes :: agenda → step s = .next { s with host := agenda, rx := s.rx ++ bytes }) ∧
    (∀ room, s.host = .accept room :: agenda → step s = .next { s with host := agenda, txRoom := room }) ∧
    (∀ n, s.host = .reset n :: agenda → step s = .next { s with host := agenda, resetIn := some n }) ∧
    (s.host = .core :: agenda → step s = coreStep { s with host := agenda })

/-- R251 (UnwrittenRead), R23 to R30, R40: no step depends on a register before the command in progress has written it.
Two machines that differ only in such registers step alike, whether a reset falls in the step or not, and the observations
of R10 stay equal. -/
def Obligations.NoRegisterIsReadUnwritten : Prop :=
  ∀ s t s' : State, Inv s → LiveEq s t → step s = .next s' →
    ∃ t', step t = .next t' ∧ LiveEq s' t' ∧ observe s' = observe t'
end

