-- ==== Sys2Proof/Laws/Memory.lean ====
section
/-! SUPPORT. The EEPROM array: a read after a write, and the one form that every write keeps. -/

namespace Sys2Proof.Machine

theorem memRead_nil (a : Nat) : memRead [] a = Config.fill := rfl

/-- A cell whose address no listed cell has reads as `Config.fill`. -/
theorem memRead_of_lt (m : Memory) (a : Nat) (h : ∀ c ∈ m, a < c.1) : memRead m a = Config.fill := by
  induction m with
  | nil => rfl
  | cons c r ih =>
    have hc : ¬ c.1 = a := Nat.ne_of_gt (h c (by simp))
    simp only [memRead, if_neg hc]
    exact ih fun d hd => h d (by simp [hd])

/-- A write changes the cell it names and no other. -/
theorem memRead_memWrite (m : Memory) (h : m.Pairwise fun c d => c.1 < d.1) (a : Nat) (v : Byte) (x : Nat) :
    memRead (memWrite m a v) x = if x = a then v else memRead m x := by
  induction m with
  | nil =>
    by_cases hv : v = Config.fill <;> by_cases hx : x = a <;> simp [memWrite, memRead, hv, hx, eq_comm (a := a)]
  | cons c r ih =>
    obtain ⟨hc, hr⟩ := List.pairwise_cons.mp h
    have ih := ih hr
    unfold memWrite
    by_cases h1 : a < c.1
    · rw [if_pos h1]
      have hfill : memRead (c :: r) a = Config.fill := by
        apply memRead_of_lt
        intro d hd
        rcases List.mem_cons.mp hd with rfl | hd
        · exact h1
        · exact lt_trans h1 (hc d hd)
      by_cases hv : v = Config.fill
      · rw [if_pos hv]; split
        · next hx => subst hx; rw [hfill, hv]
        · rfl
      · rw [if_neg hv]
        by_cases hx : x = a
        · subst hx; simp [memRead]
        · have hx' : ¬ a = x := fun e => hx e.symm
          simp [memRead, hx, hx']
    · rw [if_neg h1]
      by_cases h2 : c.1 = a
      · rw [if_pos h2]
        have hfill : memRead r a = Config.fill := memRead_of_lt r a fun d hd => h2 ▸ hc d hd
        by_cases hv : v = Config.fill
        · rw [if_pos hv]
          by_cases hx : x = a
          · subst hx; rw [if_pos rfl, hfill, hv]
          · have hx' : ¬ c.1 = x := fun e => hx (e.symm.trans h2)
            simp [memRead, hx, hx']
        · rw [if_neg hv]
          by_cases hx : x = a
          · subst hx; simp [memRead]
          · have hx' : ¬ a = x := fun e => hx e.symm
            have hx'' : ¬ c.1 = x := fun e => hx (e.symm.trans h2)
            simp [memRead, hx, hx', hx'']
      · rw [if_neg h2]
        by_cases hx : c.1 = x
        · have : ¬ x = a := fun e => h2 (hx.trans e)
          simp [memRead, hx, this]
        · simp only [memRead, if_neg hx]; exact ih

/-- Every cell a write leaves was there or is the one written. -/
theorem mem_memWrite (m : Memory) (a : Nat) (v : Byte) (c : Host.Cell) (h : c ∈ memWrite m a v) :
    c ∈ m ∨ (c = (a, v) ∧ v ≠ Config.fill) := by
  induction m with
  | nil =>
    unfold memWrite at h
    split at h
    · simp at h
    · next hv => exact .inr ⟨by simpa using h, hv⟩
  | cons d r ih =>
    unfold memWrite at h
    split at h
    · split at h
      · exact .inl h
      · next hv =>
        rcases List.mem_cons.mp h with rfl | h
        · exact .inr ⟨rfl, hv⟩
        · exact .inl h
    · split at h
      · split at h
        · exact .inl (List.mem_cons_of_mem _ h)
        · next hv =>
          rcases List.mem_cons.mp h with rfl | h
          · exact .inr ⟨rfl, hv⟩
          · exact .inl (List.mem_cons_of_mem _ h)
      · rcases List.mem_cons.mp h with rfl | h
        · exact .inl (by simp)
        · rcases ih h with h | h
          · exact .inl (List.mem_cons_of_mem _ h)
          · exact .inr h

theorem memWrite_sorted (m : Memory) (h : m.Pairwise fun c d => c.1 < d.1) (a : Nat) (v : Byte) :
    (memWrite m a v).Pairwise fun c d => c.1 < d.1 := by
  induction m with
  | nil => unfold memWrite; split <;> simp
  | cons c r ih =>
    obtain ⟨hc, hr⟩ := List.pairwise_cons.mp h
    unfold memWrite
    split
    · next h1 =>
      split
      · exact h
      · refine List.pairwise_cons.mpr ⟨?_, h⟩
        intro d hd
        rcases List.mem_cons.mp hd with rfl | hd
        · exact h1
        · exact lt_trans h1 (hc d hd)
    · next h1 =>
      split
      · next h2 =>
        split
        · exact hr
        · exact List.pairwise_cons.mpr ⟨fun d hd => h2 ▸ hc d hd, hr⟩
      · next h2 =>
        refine List.pairwise_cons.mpr ⟨?_, ih hr⟩
        intro d hd
        rcases mem_memWrite r a v d hd with hd | ⟨rfl, _⟩
        · exact hc d hd
        · show c.1 < a; omega

/-- A write to a device address keeps the one form. -/
theorem memWrite_wf (m : Memory) (h : Memory.wf m) (a : Nat) (ha : a < Config.cap) (v : Byte) :
    Memory.wf (memWrite m a v) := by
  refine ⟨memWrite_sorted m h.1 a v, fun c hc => ?_⟩
  rcases mem_memWrite m a v c hc with hc | ⟨rfl, hv⟩
  · exact h.2 c hc
  · exact ⟨ha, hv⟩

/-- Two memories of the one form that read alike are equal. -/
theorem Memory.wf.ext {m n : Memory} (hm : Memory.wf m) (hn : Memory.wf n)
    (h : ∀ a, memRead m a = memRead n a) : m = n := by
  induction m generalizing n with
  | nil =>
    cases n with
    | nil => rfl
    | cons d q =>
      have := h d.1
      simp only [memRead, if_pos] at this
      exact absurd this.symm (hn.2 d (by simp)).2
  | cons c r ih =>
    obtain ⟨hc, hr⟩ := List.pairwise_cons.mp hm.1
    cases n with
    | nil =>
      have := h c.1
      simp only [memRead, if_pos] at this
      exact absurd this (hm.2 c (by simp)).2
    | cons d q =>
      obtain ⟨hd, hq⟩ := List.pairwise_cons.mp hn.1
      have hcd : c.1 = d.1 := by
        rcases lt_trichotomy c.1 d.1 with hlt | heq | hgt
        · have := h c.1
          rw [memRead_of_lt (d :: q) c.1 (fun e he => by
            rcases List.mem_cons.mp he with rfl | he
            · exact hlt
            · exact lt_trans hlt (hd e he))] at this
          simp only [memRead, if_pos] at this
          exact absurd this (hm.2 c (by simp)).2
        · exact heq
        · have := h d.1
          rw [memRead_of_lt (c :: r) d.1 (fun e he => by
            rcases List.mem_cons.mp he with rfl | he
            · exact hgt
            · exact lt_trans hgt (hc e he))] at this
          simp only [memRead, if_pos] at this
          exact absurd this.symm (hn.2 d (by simp)).2
      have hv : c.2 = d.2 := by
        have := h c.1
        simpa only [memRead, if_pos, hcd] using this
      have hcd' : c = d := Prod.ext hcd hv
      subst hcd'
      congr 1
      refine ih ⟨hr, fun e he => hm.2 e (by simp [he])⟩ ⟨hq, fun e he => hn.2 e (by simp [he])⟩ fun a => ?_
      by_cases ha : c.1 = a
      · rw [memRead_of_lt r a fun e he => ha ▸ hc e he, memRead_of_lt q a fun e he => ha ▸ hd e he]
      · have := h a
        simpa only [memRead, if_neg ha] using this

end Sys2Proof.Machine
end

