-- ==== Sys2Proof/Laws/State.lean ====
section
/-! SUPPORT. One lemma per field for each named update of the state, all true by rfl, so that no later proof unfolds a
record update. -/

namespace Sys2Proof.Machine

/-! ## record -/

@[simp] theorem record_st (e : Event) (s : State) : (record e s).st = s.st := rfl
@[simp] theorem record_acc (e : Event) (s : State) : (record e s).acc = s.acc := rfl
@[simp] theorem record_action (e : Event) (s : State) : (record e s).action = s.action := rfl
@[simp] theorem record_addr (e : Event) (s : State) : (record e s).addr = s.addr := rfl
@[simp] theorem record_size (e : Event) (s : State) : (record e s).size = s.size := rfl
@[simp] theorem record_ract (e : Event) (s : State) : (record e s).ract = s.ract := rfl
@[simp] theorem record_rsize (e : Event) (s : State) : (record e s).rsize = s.rsize := rfl
@[simp] theorem record_i (e : Event) (s : State) : (record e s).i = s.i := rfl
@[simp] theorem record_j (e : Event) (s : State) : (record e s).j = s.j := rfl
@[simp] theorem record_k (e : Event) (s : State) : (record e s).k = s.k := rfl
@[simp] theorem record_buf (e : Event) (s : State) : (record e s).buf = s.buf := rfl
@[simp] theorem record_srData (e : Event) (s : State) : (record e s).srData = s.srData := rfl
@[simp] theorem record_srClk (e : Event) (s : State) : (record e s).srClk = s.srClk := rfl
@[simp] theorem record_srLatch (e : Event) (s : State) : (record e s).srLatch = s.srLatch := rfl
@[simp] theorem record_weN (e : Event) (s : State) : (record e s).weN = s.weN := rfl
@[simp] theorem record_dDir (e : Event) (s : State) : (record e s).dDir = s.dDir := rfl
@[simp] theorem record_dOut (e : Event) (s : State) : (record e s).dOut = s.dOut := rfl
@[simp] theorem record_srShift (e : Event) (s : State) : (record e s).srShift = s.srShift := rfl
@[simp] theorem record_srQ (e : Event) (s : State) : (record e s).srQ = s.srQ := rfl
@[simp] theorem record_srLatched (e : Event) (s : State) : (record e s).srLatched = s.srLatched := rfl
@[simp] theorem record_mem (e : Event) (s : State) : (record e s).mem = s.mem := rfl
@[simp] theorem record_wcBusy (e : Event) (s : State) : (record e s).wcBusy = s.wcBusy := rfl
@[simp] theorem record_rx (e : Event) (s : State) : (record e s).rx = s.rx := rfl
@[simp] theorem record_tx (e : Event) (s : State) : (record e s).tx = s.tx := rfl
@[simp] theorem record_trace (e : Event) (s : State) : (record e s).trace = s.trace ++ [e] := rfl
@[simp] theorem record_cfg (e : Event) (s : State) : (record e s).cfg = s.cfg := rfl
@[simp] theorem record_respPos (e : Event) (s : State) : (record e s).respPos = s.respPos := rfl
@[simp] theorem record_txRoom (e : Event) (s : State) : (record e s).txRoom = s.txRoom := rfl
@[simp] theorem record_host (e : Event) (s : State) : (record e s).host = s.host := rfl
@[simp] theorem record_resetIn (e : Event) (s : State) : (record e s).resetIn = s.resetIn := rfl
@[simp] theorem record_draws (e : Event) (s : State) : (record e s).draws = s.draws := rfl
@[simp] theorem record_resets (e : Event) (s : State) : (record e s).resets = s.resets := rfl

/-! ## enterSync -/

@[simp] theorem enterSync_st (s : State) : (enterSync s).st = .sync := rfl
@[simp] theorem enterSync_acc (s : State) : (enterSync s).acc = 0 := rfl
@[simp] theorem enterSync_action (s : State) : (enterSync s).action = s.action := rfl
@[simp] theorem enterSync_addr (s : State) : (enterSync s).addr = s.addr := rfl
@[simp] theorem enterSync_size (s : State) : (enterSync s).size = s.size := rfl
@[simp] theorem enterSync_ract (s : State) : (enterSync s).ract = s.ract := rfl
@[simp] theorem enterSync_rsize (s : State) : (enterSync s).rsize = s.rsize := rfl
@[simp] theorem enterSync_i (s : State) : (enterSync s).i = s.i := rfl
@[simp] theorem enterSync_j (s : State) : (enterSync s).j = s.j := rfl
@[simp] theorem enterSync_k (s : State) : (enterSync s).k = s.k := rfl
@[simp] theorem enterSync_buf (s : State) : (enterSync s).buf = none := rfl
@[simp] theorem enterSync_srData (s : State) : (enterSync s).srData = s.srData := rfl
@[simp] theorem enterSync_srClk (s : State) : (enterSync s).srClk = s.srClk := rfl
@[simp] theorem enterSync_srLatch (s : State) : (enterSync s).srLatch = s.srLatch := rfl
@[simp] theorem enterSync_weN (s : State) : (enterSync s).weN = s.weN := rfl
@[simp] theorem enterSync_dDir (s : State) : (enterSync s).dDir = s.dDir := rfl
@[simp] theorem enterSync_dOut (s : State) : (enterSync s).dOut = s.dOut := rfl
@[simp] theorem enterSync_srShift (s : State) : (enterSync s).srShift = s.srShift := rfl
@[simp] theorem enterSync_srQ (s : State) : (enterSync s).srQ = s.srQ := rfl
@[simp] theorem enterSync_srLatched (s : State) : (enterSync s).srLatched = s.srLatched := rfl
@[simp] theorem enterSync_mem (s : State) : (enterSync s).mem = s.mem := rfl
@[simp] theorem enterSync_wcBusy (s : State) : (enterSync s).wcBusy = s.wcBusy := rfl
@[simp] theorem enterSync_rx (s : State) : (enterSync s).rx = s.rx := rfl
@[simp] theorem enterSync_tx (s : State) : (enterSync s).tx = s.tx := rfl
@[simp] theorem enterSync_trace (s : State) : (enterSync s).trace = s.trace := rfl
@[simp] theorem enterSync_cfg (s : State) : (enterSync s).cfg = s.cfg := rfl
@[simp] theorem enterSync_respPos (s : State) : (enterSync s).respPos = s.respPos := rfl
@[simp] theorem enterSync_txRoom (s : State) : (enterSync s).txRoom = s.txRoom := rfl
@[simp] theorem enterSync_host (s : State) : (enterSync s).host = s.host := rfl
@[simp] theorem enterSync_resetIn (s : State) : (enterSync s).resetIn = s.resetIn := rfl
@[simp] theorem enterSync_draws (s : State) : (enterSync s).draws = s.draws := rfl
@[simp] theorem enterSync_resets (s : State) : (enterSync s).resets = s.resets := rfl

/-! ## enterResp -/

@[simp] theorem enterResp_st (s : State) : (enterResp s).st = .resp := rfl
@[simp] theorem enterResp_acc (s : State) : (enterResp s).acc = s.acc := rfl
@[simp] theorem enterResp_action (s : State) : (enterResp s).action = s.action := rfl
@[simp] theorem enterResp_addr (s : State) : (enterResp s).addr = s.addr := rfl
@[simp] theorem enterResp_size (s : State) : (enterResp s).size = s.size := rfl
@[simp] theorem enterResp_ract (s : State) : (enterResp s).ract = s.ract := rfl
@[simp] theorem enterResp_rsize (s : State) : (enterResp s).rsize = s.rsize := rfl
@[simp] theorem enterResp_i (s : State) : (enterResp s).i = s.i := rfl
@[simp] theorem enterResp_j (s : State) : (enterResp s).j = 0 := rfl
@[simp] theorem enterResp_k (s : State) : (enterResp s).k = s.k := rfl
@[simp] theorem enterResp_buf (s : State) : (enterResp s).buf = s.buf := rfl
@[simp] theorem enterResp_srData (s : State) : (enterResp s).srData = s.srData := rfl
@[simp] theorem enterResp_srClk (s : State) : (enterResp s).srClk = s.srClk := rfl
@[simp] theorem enterResp_srLatch (s : State) : (enterResp s).srLatch = s.srLatch := rfl
@[simp] theorem enterResp_weN (s : State) : (enterResp s).weN = s.weN := rfl
@[simp] theorem enterResp_dDir (s : State) : (enterResp s).dDir = s.dDir := rfl
@[simp] theorem enterResp_dOut (s : State) : (enterResp s).dOut = s.dOut := rfl
@[simp] theorem enterResp_srShift (s : State) : (enterResp s).srShift = s.srShift := rfl
@[simp] theorem enterResp_srQ (s : State) : (enterResp s).srQ = s.srQ := rfl
@[simp] theorem enterResp_srLatched (s : State) : (enterResp s).srLatched = s.srLatched := rfl
@[simp] theorem enterResp_mem (s : State) : (enterResp s).mem = s.mem := rfl
@[simp] theorem enterResp_wcBusy (s : State) : (enterResp s).wcBusy = s.wcBusy := rfl
@[simp] theorem enterResp_rx (s : State) : (enterResp s).rx = s.rx := rfl
@[simp] theorem enterResp_tx (s : State) : (enterResp s).tx = s.tx := rfl
@[simp] theorem enterResp_trace (s : State) : (enterResp s).trace = s.trace := rfl
@[simp] theorem enterResp_cfg (s : State) : (enterResp s).cfg = s.cfg := rfl
@[simp] theorem enterResp_respPos (s : State) : (enterResp s).respPos = 0 := rfl
@[simp] theorem enterResp_txRoom (s : State) : (enterResp s).txRoom = s.txRoom := rfl
@[simp] theorem enterResp_host (s : State) : (enterResp s).host = s.host := rfl
@[simp] theorem enterResp_resetIn (s : State) : (enterResp s).resetIn = s.resetIn := rfl
@[simp] theorem enterResp_draws (s : State) : (enterResp s).draws = s.draws := rfl
@[simp] theorem enterResp_resets (s : State) : (enterResp s).resets = s.resets := rfl

/-! ## latchCommand -/

@[simp] theorem latchCommand_st (act : Byte) (a : Half) (n : Half) (s : State) : (latchCommand act a n s).st = .execAlloc := rfl
@[simp] theorem latchCommand_acc (act : Byte) (a : Half) (n : Half) (s : State) : (latchCommand act a n s).acc = s.acc := rfl
@[simp] theorem latchCommand_action (act : Byte) (a : Half) (n : Half) (s : State) : (latchCommand act a n s).action = act := rfl
@[simp] theorem latchCommand_addr (act : Byte) (a : Half) (n : Half) (s : State) : (latchCommand act a n s).addr = a := rfl
@[simp] theorem latchCommand_size (act : Byte) (a : Half) (n : Half) (s : State) : (latchCommand act a n s).size = n := rfl
@[simp] theorem latchCommand_ract (act : Byte) (a : Half) (n : Half) (s : State) : (latchCommand act a n s).ract = s.ract := rfl
@[simp] theorem latchCommand_rsize (act : Byte) (a : Half) (n : Half) (s : State) : (latchCommand act a n s).rsize = s.rsize := rfl
@[simp] theorem latchCommand_i (act : Byte) (a : Half) (n : Half) (s : State) : (latchCommand act a n s).i = s.i := rfl
@[simp] theorem latchCommand_j (act : Byte) (a : Half) (n : Half) (s : State) : (latchCommand act a n s).j = s.j := rfl
@[simp] theorem latchCommand_k (act : Byte) (a : Half) (n : Half) (s : State) : (latchCommand act a n s).k = s.k := rfl
@[simp] theorem latchCommand_buf (act : Byte) (a : Half) (n : Half) (s : State) : (latchCommand act a n s).buf = s.buf := rfl
@[simp] theorem latchCommand_srData (act : Byte) (a : Half) (n : Half) (s : State) : (latchCommand act a n s).srData = s.srData := rfl
@[simp] theorem latchCommand_srClk (act : Byte) (a : Half) (n : Half) (s : State) : (latchCommand act a n s).srClk = s.srClk := rfl
@[simp] theorem latchCommand_srLatch (act : Byte) (a : Half) (n : Half) (s : State) : (latchCommand act a n s).srLatch = s.srLatch := rfl
@[simp] theorem latchCommand_weN (act : Byte) (a : Half) (n : Half) (s : State) : (latchCommand act a n s).weN = s.weN := rfl
@[simp] theorem latchCommand_dDir (act : Byte) (a : Half) (n : Half) (s : State) : (latchCommand act a n s).dDir = s.dDir := rfl
@[simp] theorem latchCommand_dOut (act : Byte) (a : Half) (n : Half) (s : State) : (latchCommand act a n s).dOut = s.dOut := rfl
@[simp] theorem latchCommand_srShift (act : Byte) (a : Half) (n : Half) (s : State) : (latchCommand act a n s).srShift = s.srShift := rfl
@[simp] theorem latchCommand_srQ (act : Byte) (a : Half) (n : Half) (s : State) : (latchCommand act a n s).srQ = s.srQ := rfl
@[simp] theorem latchCommand_srLatched (act : Byte) (a : Half) (n : Half) (s : State) : (latchCommand act a n s).srLatched = s.srLatched := rfl
@[simp] theorem latchCommand_mem (act : Byte) (a : Half) (n : Half) (s : State) : (latchCommand act a n s).mem = s.mem := rfl
@[simp] theorem latchCommand_wcBusy (act : Byte) (a : Half) (n : Half) (s : State) : (latchCommand act a n s).wcBusy = s.wcBusy := rfl
@[simp] theorem latchCommand_rx (act : Byte) (a : Half) (n : Half) (s : State) : (latchCommand act a n s).rx = s.rx := rfl
@[simp] theorem latchCommand_tx (act : Byte) (a : Half) (n : Half) (s : State) : (latchCommand act a n s).tx = s.tx := rfl
@[simp] theorem latchCommand_trace (act : Byte) (a : Half) (n : Half) (s : State) : (latchCommand act a n s).trace = s.trace := rfl
@[simp] theorem latchCommand_cfg (act : Byte) (a : Half) (n : Half) (s : State) : (latchCommand act a n s).cfg = s.cfg := rfl
@[simp] theorem latchCommand_respPos (act : Byte) (a : Half) (n : Half) (s : State) : (latchCommand act a n s).respPos = s.respPos := rfl
@[simp] theorem latchCommand_txRoom (act : Byte) (a : Half) (n : Half) (s : State) : (latchCommand act a n s).txRoom = s.txRoom := rfl
@[simp] theorem latchCommand_host (act : Byte) (a : Half) (n : Half) (s : State) : (latchCommand act a n s).host = s.host := rfl
@[simp] theorem latchCommand_resetIn (act : Byte) (a : Half) (n : Half) (s : State) : (latchCommand act a n s).resetIn = s.resetIn := rfl
@[simp] theorem latchCommand_draws (act : Byte) (a : Half) (n : Half) (s : State) : (latchCommand act a n s).draws = s.draws := rfl
@[simp] theorem latchCommand_resets (act : Byte) (a : Half) (n : Half) (s : State) : (latchCommand act a n s).resets = s.resets := rfl

/-! ## dispatchRead -/

@[simp] theorem dispatchRead_st (s : State) : (dispatchRead s).st = .execRead := rfl
@[simp] theorem dispatchRead_acc (s : State) : (dispatchRead s).acc = s.acc := rfl
@[simp] theorem dispatchRead_action (s : State) : (dispatchRead s).action = s.action := rfl
@[simp] theorem dispatchRead_addr (s : State) : (dispatchRead s).addr = s.addr := rfl
@[simp] theorem dispatchRead_size (s : State) : (dispatchRead s).size = s.size := rfl
@[simp] theorem dispatchRead_ract (s : State) : (dispatchRead s).ract = Config.actRead := rfl
@[simp] theorem dispatchRead_rsize (s : State) : (dispatchRead s).rsize = s.rsize := rfl
@[simp] theorem dispatchRead_i (s : State) : (dispatchRead s).i = s.i := rfl
@[simp] theorem dispatchRead_j (s : State) : (dispatchRead s).j = s.j := rfl
@[simp] theorem dispatchRead_k (s : State) : (dispatchRead s).k = s.k := rfl
@[simp] theorem dispatchRead_buf (s : State) : (dispatchRead s).buf = s.buf := rfl
@[simp] theorem dispatchRead_srData (s : State) : (dispatchRead s).srData = s.srData := rfl
@[simp] theorem dispatchRead_srClk (s : State) : (dispatchRead s).srClk = s.srClk := rfl
@[simp] theorem dispatchRead_srLatch (s : State) : (dispatchRead s).srLatch = s.srLatch := rfl
@[simp] theorem dispatchRead_weN (s : State) : (dispatchRead s).weN = s.weN := rfl
@[simp] theorem dispatchRead_dDir (s : State) : (dispatchRead s).dDir = s.dDir := rfl
@[simp] theorem dispatchRead_dOut (s : State) : (dispatchRead s).dOut = s.dOut := rfl
@[simp] theorem dispatchRead_srShift (s : State) : (dispatchRead s).srShift = s.srShift := rfl
@[simp] theorem dispatchRead_srQ (s : State) : (dispatchRead s).srQ = s.srQ := rfl
@[simp] theorem dispatchRead_srLatched (s : State) : (dispatchRead s).srLatched = s.srLatched := rfl
@[simp] theorem dispatchRead_mem (s : State) : (dispatchRead s).mem = s.mem := rfl
@[simp] theorem dispatchRead_wcBusy (s : State) : (dispatchRead s).wcBusy = s.wcBusy := rfl
@[simp] theorem dispatchRead_rx (s : State) : (dispatchRead s).rx = s.rx := rfl
@[simp] theorem dispatchRead_tx (s : State) : (dispatchRead s).tx = s.tx := rfl
@[simp] theorem dispatchRead_trace (s : State) : (dispatchRead s).trace = s.trace := rfl
@[simp] theorem dispatchRead_cfg (s : State) : (dispatchRead s).cfg = s.cfg := rfl
@[simp] theorem dispatchRead_respPos (s : State) : (dispatchRead s).respPos = s.respPos := rfl
@[simp] theorem dispatchRead_txRoom (s : State) : (dispatchRead s).txRoom = s.txRoom := rfl
@[simp] theorem dispatchRead_host (s : State) : (dispatchRead s).host = s.host := rfl
@[simp] theorem dispatchRead_resetIn (s : State) : (dispatchRead s).resetIn = s.resetIn := rfl
@[simp] theorem dispatchRead_draws (s : State) : (dispatchRead s).draws = s.draws := rfl
@[simp] theorem dispatchRead_resets (s : State) : (dispatchRead s).resets = s.resets := rfl

/-! ## dispatchWrite -/

@[simp] theorem dispatchWrite_st (s : State) : (dispatchWrite s).st = .execWrx := rfl
@[simp] theorem dispatchWrite_acc (s : State) : (dispatchWrite s).acc = s.acc := rfl
@[simp] theorem dispatchWrite_action (s : State) : (dispatchWrite s).action = s.action := rfl
@[simp] theorem dispatchWrite_addr (s : State) : (dispatchWrite s).addr = s.addr := rfl
@[simp] theorem dispatchWrite_size (s : State) : (dispatchWrite s).size = s.size := rfl
@[simp] theorem dispatchWrite_ract (s : State) : (dispatchWrite s).ract = Config.actWrite := rfl
@[simp] theorem dispatchWrite_rsize (s : State) : (dispatchWrite s).rsize = s.rsize := rfl
@[simp] theorem dispatchWrite_i (s : State) : (dispatchWrite s).i = 0 := rfl
@[simp] theorem dispatchWrite_j (s : State) : (dispatchWrite s).j = s.j := rfl
@[simp] theorem dispatchWrite_k (s : State) : (dispatchWrite s).k = s.k := rfl
@[simp] theorem dispatchWrite_buf (s : State) : (dispatchWrite s).buf = s.buf := rfl
@[simp] theorem dispatchWrite_srData (s : State) : (dispatchWrite s).srData = s.srData := rfl
@[simp] theorem dispatchWrite_srClk (s : State) : (dispatchWrite s).srClk = s.srClk := rfl
@[simp] theorem dispatchWrite_srLatch (s : State) : (dispatchWrite s).srLatch = s.srLatch := rfl
@[simp] theorem dispatchWrite_weN (s : State) : (dispatchWrite s).weN = s.weN := rfl
@[simp] theorem dispatchWrite_dDir (s : State) : (dispatchWrite s).dDir = s.dDir := rfl
@[simp] theorem dispatchWrite_dOut (s : State) : (dispatchWrite s).dOut = s.dOut := rfl
@[simp] theorem dispatchWrite_srShift (s : State) : (dispatchWrite s).srShift = s.srShift := rfl
@[simp] theorem dispatchWrite_srQ (s : State) : (dispatchWrite s).srQ = s.srQ := rfl
@[simp] theorem dispatchWrite_srLatched (s : State) : (dispatchWrite s).srLatched = s.srLatched := rfl
@[simp] theorem dispatchWrite_mem (s : State) : (dispatchWrite s).mem = s.mem := rfl
@[simp] theorem dispatchWrite_wcBusy (s : State) : (dispatchWrite s).wcBusy = s.wcBusy := rfl
@[simp] theorem dispatchWrite_rx (s : State) : (dispatchWrite s).rx = s.rx := rfl
@[simp] theorem dispatchWrite_tx (s : State) : (dispatchWrite s).tx = s.tx := rfl
@[simp] theorem dispatchWrite_trace (s : State) : (dispatchWrite s).trace = s.trace := rfl
@[simp] theorem dispatchWrite_cfg (s : State) : (dispatchWrite s).cfg = s.cfg := rfl
@[simp] theorem dispatchWrite_respPos (s : State) : (dispatchWrite s).respPos = s.respPos := rfl
@[simp] theorem dispatchWrite_txRoom (s : State) : (dispatchWrite s).txRoom = s.txRoom := rfl
@[simp] theorem dispatchWrite_host (s : State) : (dispatchWrite s).host = s.host := rfl
@[simp] theorem dispatchWrite_resetIn (s : State) : (dispatchWrite s).resetIn = s.resetIn := rfl
@[simp] theorem dispatchWrite_draws (s : State) : (dispatchWrite s).draws = s.draws := rfl
@[simp] theorem dispatchWrite_resets (s : State) : (dispatchWrite s).resets = s.resets := rfl

/-! ## dispatchInvalid -/

@[simp] theorem dispatchInvalid_st (s : State) : (dispatchInvalid s).st = .execInvalid := rfl
@[simp] theorem dispatchInvalid_acc (s : State) : (dispatchInvalid s).acc = s.acc := rfl
@[simp] theorem dispatchInvalid_action (s : State) : (dispatchInvalid s).action = s.action := rfl
@[simp] theorem dispatchInvalid_addr (s : State) : (dispatchInvalid s).addr = s.addr := rfl
@[simp] theorem dispatchInvalid_size (s : State) : (dispatchInvalid s).size = s.size := rfl
@[simp] theorem dispatchInvalid_ract (s : State) : (dispatchInvalid s).ract = s.ract := rfl
@[simp] theorem dispatchInvalid_rsize (s : State) : (dispatchInvalid s).rsize = s.rsize := rfl
@[simp] theorem dispatchInvalid_i (s : State) : (dispatchInvalid s).i = s.i := rfl
@[simp] theorem dispatchInvalid_j (s : State) : (dispatchInvalid s).j = s.j := rfl
@[simp] theorem dispatchInvalid_k (s : State) : (dispatchInvalid s).k = s.k := rfl
@[simp] theorem dispatchInvalid_buf (s : State) : (dispatchInvalid s).buf = s.buf := rfl
@[simp] theorem dispatchInvalid_srData (s : State) : (dispatchInvalid s).srData = s.srData := rfl
@[simp] theorem dispatchInvalid_srClk (s : State) : (dispatchInvalid s).srClk = s.srClk := rfl
@[simp] theorem dispatchInvalid_srLatch (s : State) : (dispatchInvalid s).srLatch = s.srLatch := rfl
@[simp] theorem dispatchInvalid_weN (s : State) : (dispatchInvalid s).weN = s.weN := rfl
@[simp] theorem dispatchInvalid_dDir (s : State) : (dispatchInvalid s).dDir = s.dDir := rfl
@[simp] theorem dispatchInvalid_dOut (s : State) : (dispatchInvalid s).dOut = s.dOut := rfl
@[simp] theorem dispatchInvalid_srShift (s : State) : (dispatchInvalid s).srShift = s.srShift := rfl
@[simp] theorem dispatchInvalid_srQ (s : State) : (dispatchInvalid s).srQ = s.srQ := rfl
@[simp] theorem dispatchInvalid_srLatched (s : State) : (dispatchInvalid s).srLatched = s.srLatched := rfl
@[simp] theorem dispatchInvalid_mem (s : State) : (dispatchInvalid s).mem = s.mem := rfl
@[simp] theorem dispatchInvalid_wcBusy (s : State) : (dispatchInvalid s).wcBusy = s.wcBusy := rfl
@[simp] theorem dispatchInvalid_rx (s : State) : (dispatchInvalid s).rx = s.rx := rfl
@[simp] theorem dispatchInvalid_tx (s : State) : (dispatchInvalid s).tx = s.tx := rfl
@[simp] theorem dispatchInvalid_trace (s : State) : (dispatchInvalid s).trace = s.trace := rfl
@[simp] theorem dispatchInvalid_cfg (s : State) : (dispatchInvalid s).cfg = s.cfg := rfl
@[simp] theorem dispatchInvalid_respPos (s : State) : (dispatchInvalid s).respPos = s.respPos := rfl
@[simp] theorem dispatchInvalid_txRoom (s : State) : (dispatchInvalid s).txRoom = s.txRoom := rfl
@[simp] theorem dispatchInvalid_host (s : State) : (dispatchInvalid s).host = s.host := rfl
@[simp] theorem dispatchInvalid_resetIn (s : State) : (dispatchInvalid s).resetIn = s.resetIn := rfl
@[simp] theorem dispatchInvalid_draws (s : State) : (dispatchInvalid s).draws = s.draws := rfl
@[simp] theorem dispatchInvalid_resets (s : State) : (dispatchInvalid s).resets = s.resets := rfl

/-! ## platformReset -/

theorem tearCell_eq (s : State) :
    tearCell s = { s with mem := (tearCell s).mem, draws := (tearCell s).draws } := by
  unfold tearCell; split <;> rfl

@[simp] theorem platformReset_st (s : State) : (platformReset s).st = .sync := rfl
@[simp] theorem platformReset_acc (s : State) : (platformReset s).acc = 0 := rfl
@[simp] theorem platformReset_action (s : State) : (platformReset s).action = 0 := rfl
@[simp] theorem platformReset_addr (s : State) : (platformReset s).addr = 0 := rfl
@[simp] theorem platformReset_size (s : State) : (platformReset s).size = 0 := rfl
@[simp] theorem platformReset_ract (s : State) : (platformReset s).ract = 0 := rfl
@[simp] theorem platformReset_rsize (s : State) : (platformReset s).rsize = 0 := rfl
@[simp] theorem platformReset_i (s : State) : (platformReset s).i = 0 := rfl
@[simp] theorem platformReset_j (s : State) : (platformReset s).j = 0 := rfl
@[simp] theorem platformReset_k (s : State) : (platformReset s).k = 0 := rfl
@[simp] theorem platformReset_buf (s : State) : (platformReset s).buf = none := rfl
@[simp] theorem platformReset_srData (s : State) : (platformReset s).srData = false := rfl
@[simp] theorem platformReset_srClk (s : State) : (platformReset s).srClk = false := rfl
@[simp] theorem platformReset_srLatch (s : State) : (platformReset s).srLatch = false := rfl
@[simp] theorem platformReset_weN (s : State) : (platformReset s).weN = true := rfl
@[simp] theorem platformReset_dDir (s : State) : (platformReset s).dDir = .input := rfl
@[simp] theorem platformReset_dOut (s : State) : (platformReset s).dOut = 0 := rfl
@[simp] theorem platformReset_srShift (s : State) : (platformReset s).srShift = 0 := rfl
@[simp] theorem platformReset_srQ (s : State) : (platformReset s).srQ = 0 := rfl
@[simp] theorem platformReset_srLatched (s : State) : (platformReset s).srLatched = false := rfl
@[simp] theorem platformReset_mem (s : State) : (platformReset s).mem = (tearCell s).mem := rfl
@[simp] theorem platformReset_wcBusy (s : State) : (platformReset s).wcBusy = false := rfl
@[simp] theorem platformReset_rx (s : State) : (platformReset s).rx = s.rx := by
  show (tearCell s).rx = _; rw [tearCell_eq]
@[simp] theorem platformReset_tx (s : State) : (platformReset s).tx = s.tx := by
  show (tearCell s).tx = _; rw [tearCell_eq]
@[simp] theorem platformReset_trace (s : State) : (platformReset s).trace = s.trace := by
  show (tearCell s).trace = _; rw [tearCell_eq]
@[simp] theorem platformReset_cfg (s : State) : (platformReset s).cfg = s.cfg := by
  show (tearCell s).cfg = _; rw [tearCell_eq]
@[simp] theorem platformReset_respPos (s : State) : (platformReset s).respPos = 0 := rfl
@[simp] theorem platformReset_txRoom (s : State) : (platformReset s).txRoom = s.txRoom := by
  show (tearCell s).txRoom = _; rw [tearCell_eq]
@[simp] theorem platformReset_host (s : State) : (platformReset s).host = s.host := by
  show (tearCell s).host = _; rw [tearCell_eq]
@[simp] theorem platformReset_resetIn (s : State) : (platformReset s).resetIn = none := rfl
@[simp] theorem platformReset_draws (s : State) : (platformReset s).draws = (tearCell s).draws := rfl
@[simp] theorem platformReset_resets (s : State) : (platformReset s).resets = s.resets + 1 := by
  show (tearCell s).resets + 1 = _; rw [tearCell_eq]

end Sys2Proof.Machine
end

