-- ==== Sys2Proof/Laws/Flow.lean ====
section
/-! SUPPORT. How procedures end. `Flow.Meets` says what holds at each end of a procedure that raises no fault; `Runs`
says exactly how a procedure without waits ends: it completes after `k` events, unless a platform reset falls before one
of them. Each has its lemma for the sequencing of two procedures. -/

namespace Sys2Proof.Machine

variable {α β : Type}

@[simp] theorem Flow.bind_ok (v : α) (s : State) (f : α → State → Flow β) : (Flow.ok v s).bind f = f v s := rfl
@[simp] theorem Flow.bind_wait (s : State) (f : α → State → Flow β) : (Flow.wait s : Flow α).bind f = .wait s := rfl
@[simp] theorem Flow.bind_reset (s : State) (f : α → State → Flow β) : (Flow.reset s : Flow α).bind f = .reset s := rfl
@[simp] theorem Flow.bind_fault (e : Fault) (f : α → State → Flow β) : (Flow.fault e : Flow α).bind f = .fault e := rfl

@[simp] theorem Flow.outcome_ok (v : α) (s : State) : (Flow.ok v s).outcome = .next s := rfl
@[simp] theorem Flow.outcome_wait (s : State) : (Flow.wait s : Flow α).outcome = .next s := rfl
@[simp] theorem Flow.outcome_reset (s : State) : (Flow.reset s : Flow α).outcome = .next (platformReset s) := rfl
@[simp] theorem Flow.outcome_fault (e : Fault) : (Flow.fault e : Flow α).outcome = .fault e := rfl

theorem Flow.bind_assoc {γ : Type} (m : Flow α) (f : α → State → Flow β) (g : β → State → Flow γ) :
    (m.bind f).bind g = m.bind fun v s => (f v s).bind g := by
  cases m <;> rfl

/-- No fault, and at each kind of end the given condition. -/
def Flow.Meets (m : Flow α) (ok : α → State → Prop) (wait reset : State → Prop) : Prop :=
  match m with
  | .ok v s => ok v s
  | .wait s => wait s
  | .reset s => reset s
  | .fault _ => False

theorem Flow.Meets.bind {m : Flow α} {f : α → State → Flow β} {P : α → State → Prop} {Q : β → State → Prop}
    {W R : State → Prop} (h : m.Meets P W R) (k : ∀ v s, P v s → (f v s).Meets Q W R) : (m.bind f).Meets Q W R := by
  cases m with
  | ok v s => exact k v s h
  | wait s => exact h
  | reset s => exact h
  | fault e => exact h

theorem Flow.Meets.mono {m : Flow α} {P P' : α → State → Prop} {W W' R R' : State → Prop} (h : m.Meets P W R)
    (hP : ∀ v s, P v s → P' v s) (hW : ∀ s, W s → W' s) (hR : ∀ s, R s → R' s) : m.Meets P' W' R' := by
  cases m with
  | ok v s => exact hP v s h
  | wait s => exact hW s h
  | reset s => exact hR s h
  | fault e => exact h

/-- What a step makes of a procedure that meets its conditions. -/
theorem Flow.Meets.outcome {m : Flow α} {P : α → State → Prop} {W R : State → Prop} (h : m.Meets P W R) :
    ∃ t, m.outcome = .next t ∧ ((∃ v, P v t) ∨ W t ∨ ∃ u, R u ∧ t = platformReset u) := by
  cases m with
  | ok v s => exact ⟨s, rfl, .inl ⟨v, h⟩⟩
  | wait s => exact ⟨s, rfl, .inr (.inl h)⟩
  | reset s => exact ⟨_, rfl, .inr (.inr ⟨s, h, rfl⟩)⟩
  | fault e => exact h.elim

/-! ## The reset countdown -/

/-- No reset falls before `k` events more. -/
def Allows (r : Option Nat) (k : Nat) : Prop := ∀ n, r = some n → k ≤ n

/-- The countdown after `k` events. -/
def spend (r : Option Nat) (k : Nat) : Option Nat := r.map (· - k)

@[simp] theorem allows_none (k : Nat) : Allows none k := fun _ h => by cases h
@[simp] theorem allows_zero (r : Option Nat) : Allows r 0 := fun _ _ => Nat.zero_le _
@[simp] theorem allows_some (n k : Nat) : Allows (some n) k ↔ k ≤ n := by simp [Allows]
@[simp] theorem spend_none (k : Nat) : spend none k = none := rfl
@[simp] theorem spend_some (n k : Nat) : spend (some n) k = some (n - k) := rfl
@[simp] theorem spend_zero (r : Option Nat) : spend r 0 = r := by cases r <;> simp
@[simp] theorem spend_spend (r : Option Nat) (a b : Nat) : spend (spend r a) b = spend r (a + b) := by
  cases r <;> simp [Nat.sub_sub]

theorem allows_spend {r : Option Nat} {a b : Nat} (h : Allows r (a + b)) : Allows r a ∧ Allows (spend r a) b := by
  cases r with
  | none => simp
  | some n => simp at h ⊢; omega

/-- `m`, begun in `s`, completes with `v` in `t` after `k` events, the countdown apart; a platform reset due after `n`
events, `n` below `k`, falls inside it, in a state with `R n`. -/
structure Runs (m : Flow α) (s : State) (k : Nat) (v : α) (t : State) (R : Nat → State → Prop) : Prop where
  done : Allows s.resetIn k → m = .ok v { t with resetIn := spend s.resetIn k }
  cut : ∀ n, s.resetIn = some n → n < k → ∃ u, m = .reset u ∧ R n u

/-- A procedure with no reset due. -/
theorem Runs.eq_ok {m : Flow α} {s t : State} {k : Nat} {v : α} {R : Nat → State → Prop} (h : Runs m s k v t R)
    (hs : s.resetIn = none) : m = .ok v { t with resetIn := none } := by
  have := h.done (by rw [hs]; simp)
  rwa [hs] at this

/-- The state a procedure completes in is named up to the countdown. -/
theorem Runs.retarget {m : Flow α} {s t t' : State} {k : Nat} {v : α} {R : Nat → State → Prop} (h : Runs m s k v t R)
    (e : ∀ r, { t with resetIn := r } = { t' with resetIn := r }) : Runs m s k v t' R :=
  ⟨fun ha => by rw [h.done ha, e], h.cut⟩

theorem Runs.pure (v : α) (s : State) (R : Nat → State → Prop) : Runs (.ok v s) s 0 v s R :=
  ⟨fun _ => by simp, fun n _ h => absurd h (Nat.not_lt_zero n)⟩

theorem Runs.mono {m : Flow α} {s t : State} {k : Nat} {v : α} {R R' : Nat → State → Prop} (h : Runs m s k v t R)
    (hR : ∀ n u, n < k → R n u → R' n u) : Runs m s k v t R' :=
  ⟨h.done, fun n hn hk => let ⟨u, hu, hr⟩ := h.cut n hn hk; ⟨u, hu, hR n u hk hr⟩⟩

/-- Two procedures in sequence. -/
theorem Runs.bind {m : Flow α} {f : α → State → Flow β} {s t t' : State} {k k' : Nat} {v : α} {v' : β}
    {R R' Q : Nat → State → Prop} (h : Runs m s k v t R)
    (h' : ∀ r, Runs (f v { t with resetIn := r }) { t with resetIn := r } k' v' t' R')
    (hR : ∀ n u, n < k → R n u → Q n u) (hR' : ∀ n u, n < k' → R' n u → Q (k + n) u) :
    Runs (m.bind f) s (k + k') v' t' Q := by
  refine ⟨fun ha => ?_, fun n hn hk => ?_⟩
  · obtain ⟨h1, h2⟩ := allows_spend ha
    rw [h.done h1, Flow.bind_ok, (h' (spend s.resetIn k)).done h2, spend_spend]
  · by_cases hlt : n < k
    · obtain ⟨u, hu, hr⟩ := h.cut n hn hlt
      exact ⟨u, by rw [hu, Flow.bind_reset], hR n u hlt hr⟩
    · have h1 : Allows s.resetIn k := by rw [hn]; simpa using hlt
      rw [h.done h1, Flow.bind_ok]
      obtain ⟨u, hu, hr⟩ := (h' (spend s.resetIn k)).cut (n - k) (by simp [hn]) (by omega)
      refine ⟨u, hu, ?_⟩
      have := hR' (n - k) u (by omega) hr
      rwa [show k + (n - k) = n by omega] at this

/-- A pure update after a procedure. -/
theorem Runs.map {m : Flow α} {s t : State} {k : Nat} {v : α} {R : Nat → State → Prop} (h : Runs m s k v t R)
    {f : α → State → Flow β} {v' : β} {t' : State}
    (hf : ∀ r, f v { t with resetIn := r } = .ok v' { t' with resetIn := r }) : Runs (m.bind f) s k v' t' R := by
  refine ⟨fun ha => ?_, fun n hn hk => ?_⟩
  · rw [h.done ha, Flow.bind_ok, hf]
  · obtain ⟨u, hu, hr⟩ := h.cut n hn hk
    exact ⟨u, by rw [hu, Flow.bind_reset], hr⟩

/-- A procedure that runs meets the conditions its ends have. -/
theorem Runs.meets {m : Flow α} {s t : State} {k : Nat} {v : α} {R : Nat → State → Prop} (h : Runs m s k v t R)
    {P : α → State → Prop} {W Q : State → Prop} (hP : ∀ r, P v { t with resetIn := r })
    (hQ : ∀ n u, R n u → Q u) : m.Meets P W Q := by
  by_cases ha : Allows s.resetIn k
  · rw [h.done ha]; exact hP _
  · unfold Allows at ha
    push Not at ha
    obtain ⟨n, hn, hk⟩ := ha
    obtain ⟨u, hu, hr⟩ := h.cut n hn hk
    rw [hu]; exact hQ n u hr

/-- One event: a reset due at once falls before it, in the state as it is. -/
theorem tick_runs (s : State) : Runs (tick s) s 1 () s (fun _ u => u = s) := by
  refine ⟨fun ha => ?_, fun n hn hk => ?_⟩
  · unfold tick
    cases hr : s.resetIn with
    | none =>
      simp only [spend_none]
      exact congrArg (Flow.ok ()) (by rw [← hr])
    | some n =>
      rw [hr, allows_some] at ha
      cases n with
      | zero => omega
      | succ n => rfl
  · obtain rfl : n = 0 := by omega
    exact ⟨s, by unfold tick; rw [hn], rfl⟩

/-- What every event before a write pulse, and outside one, leaves to a platform reset: the device's cells, the streams,
the parameters, and no write under way that was not under way before. -/
structure Keeps (s t : State) : Prop where
  mem : t.mem = s.mem
  cfg : t.cfg = s.cfg
  rx : t.rx = s.rx
  tx : t.tx = s.tx
  txRoom : t.txRoom = s.txRoom
  host : t.host = s.host
  draws : t.draws = s.draws
  resets : t.resets = s.resets
  weN : t.weN = s.weN
  wcBusy : t.wcBusy = s.wcBusy

theorem Keeps.refl (s : State) : Keeps s s := ⟨rfl, rfl, rfl, rfl, rfl, rfl, rfl, rfl, rfl, rfl⟩

theorem Keeps.trans {s t u : State} (h : Keeps s t) (h' : Keeps t u) : Keeps s u :=
  ⟨h'.mem.trans h.mem, h'.cfg.trans h.cfg, h'.rx.trans h.rx, h'.tx.trans h.tx, h'.txRoom.trans h.txRoom,
    h'.host.trans h.host, h'.draws.trans h.draws, h'.resets.trans h.resets, h'.weN.trans h.weN,
    h'.wcBusy.trans h.wcBusy⟩

/-- The count of events, rewritten. -/
theorem Runs.cost {m : Flow α} {s t : State} {k k' : Nat} {v : α} {R : Nat → State → Prop} (e : k = k')
    (h : Runs m s k v t R) : Runs m s k' v t R := e ▸ h

/-- Two procedures in sequence, neither writing the device. -/
theorem Runs.andThen {m : Flow α} {f : α → State → Flow β} {s t t' : State} {k k' : Nat} {v : α} {v' : β}
    (h : Runs m s k v t fun _ u => Keeps s u) (ht : Keeps s t)
    (h' : ∀ r, Runs (f v { t with resetIn := r }) { t with resetIn := r } k' v' t'
      fun _ u => Keeps { t with resetIn := r } u) :
    Runs (m.bind f) s (k + k') v' t' fun _ u => Keeps s u := by
  refine h.bind (R' := fun _ u => Keeps t u) (fun r => (h' r).mono fun _ u _ hu => ?_) (fun _ _ _ hu => hu)
    fun _ u _ hu => ht.trans hu
  exact ⟨hu.1, hu.2, hu.3, hu.4, hu.5, hu.6, hu.7, hu.8, hu.9, hu.10⟩

end Sys2Proof.Machine
end

