-- ==== Sys2Proof/Laws/Words.lean ====
section
/-! SUPPORT. Facts of the words: bytes joined and split, action blocks, the register word and its bits. -/

namespace Sys2Proof

/-- The capacity as a numeral (R5). -/
theorem Config.cap_eq : Config.cap = 2048 := rfl

/-- The address width as a numeral (R5). -/
theorem Config.abits_eq : Config.abits = 11 := rfl

/-- The four bytes of the magic (R90). -/
theorem Config.magicBytes_eq : Config.magicBytes = [0xCA, 0xFE, 0xBA, 0xBE] := rfl

/-- Splitting a `u16` and joining its bytes gives it back. -/
@[simp] theorem joinBytes_split (v : Half) : joinBytes (hiByte v) (loByte v) = v := by
  apply BitVec.eq_of_getLsbD_eq
  intro i hi
  simp only [joinBytes, hiByte, loByte, BitVec.getLsbD_or, BitVec.getLsbD_shiftLeft, BitVec.getLsbD_setWidth,
    BitVec.getLsbD_ushiftRight]
  by_cases h : i < 8
  · simp [h, hi]
  · simp [h, hi, show i - 8 < 8 by omega, show i - 8 < 16 by omega, show 8 + (i - 8) = i by omega]

@[simp] theorem hiByte_joinBytes (a b : Byte) : hiByte (joinBytes a b) = a := by
  apply BitVec.eq_of_getLsbD_eq
  intro i hi
  simp [joinBytes, hiByte, hi, show i < 16 by omega, show 8 + i < 16 by omega]

@[simp] theorem loByte_joinBytes (a b : Byte) : loByte (joinBytes a b) = b := by
  apply BitVec.eq_of_getLsbD_eq
  intro i hi
  simp [joinBytes, loByte, hi]

/-- The nine action blocks of R93 split the action bytes: every byte lies in exactly one, READ's and WRITE's among
them. -/
theorem action_blocks (act : Byte) :
    act = Config.actRead ∨ act = Config.actWrite ∨ inBlock 0xFE 0x02 act ∨ inBlock 0xFC 0x04 act ∨
      inBlock 0xF8 0x08 act ∨ inBlock 0xF0 0x10 act ∨ inBlock 0xE0 0x20 act ∨ inBlock 0xC0 0x40 act ∨
      inBlock 0x80 0x80 act := by
  revert act; decide

namespace Machine

/-- The bits of a word, written out. -/
theorem msbFirst_eq (w : Half) :
    msbFirst w = [w.getLsbD 15, w.getLsbD 14, w.getLsbD 13, w.getLsbD 12, w.getLsbD 11, w.getLsbD 10, w.getLsbD 9,
      w.getLsbD 8, w.getLsbD 7, w.getLsbD 6, w.getLsbD 5, w.getLsbD 4, w.getLsbD 3, w.getLsbD 2, w.getLsbD 1,
      w.getLsbD 0] := rfl

/-- The shift stage after a list of bits (R121). -/
def shiftIn (v : Half) (bits : List Bool) : Half :=
  bits.foldl (fun v b => (v <<< 1) ||| (if b then 1 else 0)) v

theorem shiftIn_cons (v : Half) (b : Bool) (r : List Bool) :
    shiftIn v (b :: r) = shiftIn ((v <<< 1) ||| (if b then 1 else 0)) r := rfl

theorem getLsbD_shiftIn_one (v : Half) (b : Bool) (i : Nat) (hi : i < 16) :
    ((v <<< 1) ||| (if b then 1 else 0)).getLsbD i = if i = 0 then b else v.getLsbD (i - 1) := by
  interval_cases i <;> cases b <;> simp

theorem getLsbD_shiftIn (v : Half) (bits : List Bool) (i : Nat) (hi : i < 16) :
    (shiftIn v bits).getLsbD i =
      if i < bits.length then bits.getD (bits.length - 1 - i) false else v.getLsbD (i - bits.length) := by
  induction bits generalizing v with
  | nil => simp [shiftIn]
  | cons b r ih =>
    rw [shiftIn_cons, ih, List.length_cons]
    by_cases h : i < r.length
    · rw [if_pos h, if_pos (by omega)]
      rw [show r.length + 1 - 1 - i = (r.length - 1 - i) + 1 by omega]
      simp
    · rw [if_neg h, getLsbD_shiftIn_one _ _ _ (by omega)]
      by_cases h2 : i = r.length
      · simp [h2]
      · rw [if_neg (by omega), if_neg (by omega)]
        congr 1

/-- Sixteen bits shifted in replace the stage (R122). -/
@[simp] theorem shiftIn_msbFirst (v w : Half) : shiftIn v (msbFirst w) = w := by
  apply BitVec.eq_of_getLsbD_eq
  intro i hi
  rw [getLsbD_shiftIn _ _ _ hi]
  have hl : (msbFirst w).length = 16 := rfl
  rw [hl, if_pos hi, msbFirst_eq]
  interval_cases i <;> rfl

/-! ## The register word -/

theorem encodeWord_dir (a : Half) (oe : Bool) : (encodeWord a oe).getLsbD 15 = !oe := by
  cases oe <;> simp [encodeWord, Config.dirBit, Config.aMask]

@[simp] theorem encodeWord_rsvd (a : Half) (oe : Bool) : encodeWord a oe &&& 0x7800 = 0 := by
  apply BitVec.eq_of_getLsbD_eq
  intro i hi
  cases oe <;> simp only [encodeWord, Config.dirBit, Config.aMask] <;> interval_cases i <;> simp

@[simp] theorem encodeWord_addr (a : Half) (oe : Bool) : (encodeWord a oe).setWidth Config.abits = a.setWidth Config.abits := by
  apply BitVec.eq_of_getLsbD_eq
  intro i hi
  cases oe <;> simp only [encodeWord, Config.dirBit, Config.aMask] <;> interval_cases i <;> simp [Config.abits_eq]

/-- The device address of a protocol address is its residue (R61). -/
theorem setWidth_toNat_mod (a : Half) : (a.setWidth Config.abits).toNat = a.toNat % 2048 := by
  simp [BitVec.toNat_setWidth, Config.abits_eq]

end Machine

end Sys2Proof
end

