-- ==== Sys2Proof/Laws/Serializer.lean ====
section
/-! SUPPORT. Exactly how the pin primitives and sr_write run (R7, R120, R121). -/

namespace Sys2Proof.Machine

/-- An event that, once it happens, completes in `t`. -/
theorem event_runs {α : Type} {s t : State} {v : α} {f : State → Flow α}
    (h : ∀ r, f { s with resetIn := r } = .ok v { t with resetIn := r }) :
    Runs ((tick s).bind fun _ s => f s) s 1 v t (fun _ u => Keeps s u) :=
  ((tick_runs s).mono fun _ u _ (hu : u = s) => hu ▸ Keeps.refl s).map h

theorem driveData_runs (b : Bool) (s : State) :
    Runs (drive .srData b s) s 1 () { s with srData := b, trace := s.trace ++ [.drive .srData b] }
      (fun _ u => Keeps s u) :=
  event_runs fun _ => rfl

theorem driveClkHigh_runs (s : State) (hc : s.srClk = false) :
    Runs (drive .srClk true s) s 1 ()
      { s with srClk := true, srShift := (s.srShift <<< 1) ||| (if s.srData then 1 else 0),
               trace := s.trace ++ [.drive .srClk true] }
      (fun _ u => Keeps s u) :=
  event_runs fun r => by simp [setLine, hc, onClkRise, record]

theorem driveClkLow_runs (s : State) :
    Runs (drive .srClk false s) s 1 () { s with srClk := false, trace := s.trace ++ [.drive .srClk false] }
      (fun _ u => Keeps s u) :=
  event_runs fun _ => rfl

theorem srShiftBit_runs (b : Bool) (s : State) (hc : s.srClk = false) :
    Runs (srShiftBit b s) s 3 ()
      { s with srData := b, srShift := (s.srShift <<< 1) ||| (if b then 1 else 0), trace := s.trace ++ bitEvents [b] }
      (fun _ u => Keeps s u) := by
  unfold srShiftBit
  refine Runs.cost (k := 1 + (1 + 1)) rfl ((driveData_runs b s).andThen (by constructor <;> rfl) fun r => ?_)
  refine (driveClkHigh_runs _ (by exact hc)).andThen (by constructor <;> rfl) fun r => ?_
  exact (driveClkLow_runs _).retarget fun r => by simp [bitEvents, hc]

theorem srShiftBits_runs (bits : List Bool) (s : State) (hc : s.srClk = false) :
    Runs (srShiftBits bits s) s (3 * bits.length) ()
      { s with srData := bits.getLastD s.srData, srShift := shiftIn s.srShift bits,
               trace := s.trace ++ bitEvents bits }
      (fun _ u => Keeps s u) := by
  induction bits generalizing s with
  | nil => exact (Runs.pure () s _).retarget fun r => by simp [shiftIn, bitEvents]
  | cons b l ih =>
    refine Runs.cost (k := 3 + 3 * l.length) (by simp; omega)
      ((srShiftBit_runs b s hc).andThen (by constructor <;> rfl) fun r => ?_)
    exact (ih _ (by exact hc)).retarget fun r => by simp [bitEvents, shiftIn, List.getLast?_cons]

theorem driveLatchHigh_runs (s : State) (hl : s.srLatch = false) (hw : s.weN = true) :
    Runs (drive .srLatch true s) s 1 ()
      { s with srLatch := true, srQ := s.srShift, srLatched := true,
               trace := s.trace ++ [.drive .srLatch true] ++ strobeMark s.dDir s.srShift }
      (fun _ u => Keeps s u) :=
  event_runs fun r => by
    simp [setLine, hl, onLatchRise, hw, record, contentionMark, strobeMark, srDir, srOut, Config.dirBit]

theorem driveLatchLow_runs (s : State) :
    Runs (drive .srLatch false s) s 1 () { s with srLatch := false, trace := s.trace ++ [.drive .srLatch false] }
      (fun _ u => Keeps s u) :=
  event_runs fun _ => rfl

theorem srStrobe_runs (s : State) (hl : s.srLatch = false) (hw : s.weN = true) :
    Runs (srStrobe s) s 2 ()
      { s with srQ := s.srShift, srLatched := true,
               trace := s.trace ++ ([.drive .srLatch true] ++ strobeMark s.dDir s.srShift ++ [.drive .srLatch false]) }
      (fun _ u => Keeps s u) := by
  unfold srStrobe
  refine Runs.cost (k := 1 + 1) rfl ((driveLatchHigh_runs s hl hw).andThen (by constructor <;> rfl) fun r => ?_)
  exact (driveLatchLow_runs _).retarget fun r => by simp [hl]

/-- sr_write with the lines at rest: fifty events, and the word stands in the shift stage and on the outputs (R120 to
R122). -/
theorem srWrite_runs (w : Half) (s : State) (hc : s.srClk = false) (hl : s.srLatch = false) (hw : s.weN = true) :
    Runs (srWrite w s) s 50 ()
      { s with srData := w.getLsbD 0, srShift := w, srQ := w, srLatched := true, trace := s.trace ++ srEvents s.dDir w }
      (fun _ u => Keeps s u) := by
  unfold srWrite
  refine Runs.cost (k := 3 * (msbFirst w).length + 2) rfl
    ((srShiftBits_runs (msbFirst w) s hc).andThen (by constructor <;> rfl) fun r => ?_)
  refine (srStrobe_runs _ (by exact hl) (by exact hw)).retarget fun r => ?_
  have hlast : (msbFirst w).getLastD s.srData = w.getLsbD 0 := rfl
  simp only [shiftIn_msbFirst, hlast, srEvents, List.append_assoc]

end Sys2Proof.Machine
end

