-- ==== Sys2Proof/Laws/ByteEngine.lean ====
section
/-! SUPPORT. Exactly how read_byte, the write pulse and write_byte run (R140 to R142), and what a platform reset finds
inside a write (R282). -/

namespace Sys2Proof.Machine

theorem setDirInput_runs (s : State) :
    Runs (setDir .input s) s 1 () { s with dDir := .input, trace := s.trace ++ [.setDir .input] }
      (fun _ u => Keeps s u) :=
  event_runs fun r => by simp [record, contentionMark]

theorem setDirOutput_runs (s : State) :
    Runs (setDir .output s) s 1 ()
      { s with dDir := .output, trace := s.trace ++ ([.setDir .output] ++ turnMark s) } (fun _ u => Keeps s u) :=
  event_runs fun r => by
    by_cases h : s.dDir = .input
    · simp [record, contentionMark, turnMark, h, srDir, srOut]
    · simp [record, turnMark, h]

theorem driveBus_runs (v : Byte) (s : State) :
    Runs (driveBus v s) s 1 () { s with dOut := v, trace := s.trace ++ [.driveBus v] } (fun _ u => Keeps s u) :=
  event_runs fun _ => rfl

theorem busRead_device (s : State) (hd : s.dDir = .input) (hq : srDir s = false) (hb : s.wcBusy = false) :
    busRead s = .ok (memRead s.mem (srAddr s).toNat) s := by
  unfold busRead
  rw [hd, hq, hb]
  rfl

/-- A sample while the device drives the bus (R62). -/
theorem sample_runs (s : State) (hd : s.dDir = .input) (hq : srDir s = false) (hb : s.wcBusy = false) :
    Runs (sample s) s 1 (memRead s.mem (srAddr s).toNat) { s with trace := s.trace ++ [.sample] }
      (fun _ u => Keeps s u) :=
  event_runs fun r => busRead_device (record .sample { s with resetIn := r }) hd hq hb

theorem delay_runs (t : Nat) (s : State) :
    Runs (delay t s) s 1 () { s with trace := s.trace ++ [.delay t] } (fun _ u => Keeps s u) :=
  event_runs fun _ => rfl

/-- read_byte with the lines at rest and the device idle: 52 events, and the byte of the cell the address names modulo
the device (R140, R143). -/
theorem readByte_runs (a : Half) (s : State) (hs : Quiet s) :
    Runs (readByte a s) s 52 (memRead s.mem (a.toNat % 2048))
      { s with dDir := .input, srData := a.getLsbD 0, srShift := encodeWord a true, srQ := encodeWord a true,
               srLatched := true, trace := s.trace ++ readEvents a }
      (fun _ u => Keeps s u) := by
  obtain ⟨hc, hl, hw, hb⟩ := hs
  unfold readByte
  refine Runs.cost (k := 1 + (50 + 1)) rfl ((setDirInput_runs s).andThen (by constructor <;> rfl) fun r => ?_)
  refine (srWrite_runs _ _ (by exact hc) (by exact hl) (by exact hw)).andThen (by constructor <;> rfl) fun r => ?_
  have h := sample_runs { s with dDir := .input, srData := (encodeWord a true).getLsbD 0,
                                 srShift := encodeWord a true, srQ := encodeWord a true, srLatched := true,
                                 trace := s.trace ++ [.setDir .input] ++ srEvents .input (encodeWord a true),
                                 resetIn := r } rfl (by exact encodeWord_dir a true) hb
  have ha : (srAddr { s with dDir := .input, srData := (encodeWord a true).getLsbD 0,
                             srShift := encodeWord a true, srQ := encodeWord a true, srLatched := true,
                             trace := s.trace ++ [.setDir .input] ++ srEvents .input (encodeWord a true),
                             resetIn := r }).toNat = a.toNat % 2048 := by
    simp only [srAddr, srOut, if_true, encodeWord_addr, setWidth_toNat_mod]
  rw [ha] at h
  refine h.retarget fun q => ?_
  have h0 : (encodeWord a true).getLsbD 0 = a.getLsbD 0 := by simp [encodeWord, Config.dirBit, Config.aMask]
  simp only [h0, readEvents, List.append_assoc]

/-! ## The write pulse -/

/-- What a platform reset finds inside a write of the cell `a`: a write under way, the address latched, and the cell as
it was or as it is to be. -/
structure Writing (s : State) (a : DevAddr) (v : Byte) (t : State) : Prop where
  window : t.weN = false ∨ t.wcBusy = true
  addr : srAddr t = a
  mem : t.mem = s.mem ∨ t.mem = memWrite s.mem a.toNat v
  cfg : t.cfg = s.cfg
  rx : t.rx = s.rx
  tx : t.tx = s.tx
  txRoom : t.txRoom = s.txRoom
  host : t.host = s.host
  draws : t.draws = s.draws
  resets : t.resets = s.resets

theorem driveWeLow_runs (s : State) :
    Runs (drive .weN false s) s 1 () { s with weN := false, trace := s.trace ++ [.drive .weN false] }
      (fun _ u => u = s) :=
  ((tick_runs s).map fun _ => rfl)

theorem onWeRise_ok (s : State) (hb : s.wcBusy = false) (hq : srDir s = true) (hd : s.dDir = .output) :
    onWeRise s = .ok () { s with mem := memWrite s.mem (srAddr s).toNat s.dOut, wcBusy := true } := by
  unfold onWeRise
  rw [if_neg (by simp [hb]), if_neg (by simp [hq]), if_neg (by simp [hd])]

theorem setLine_weN_rise (s : State) (hw : s.weN = false) : setLine .weN true s = onWeRise { s with weN := true } := by
  simp [setLine, hw]

theorem driveWeHigh_runs (s : State) (hw : s.weN = false) (hb : s.wcBusy = false) (hq : srDir s = true)
    (hd : s.dDir = .output) :
    Runs (drive .weN true s) s 1 ()
      { s with weN := true, mem := memWrite s.mem (srAddr s).toNat s.dOut, wcBusy := true,
               trace := s.trace ++ [.drive .weN true] }
      (fun _ u => u = s) :=
  (tick_runs s).map fun r =>
    (setLine_weN_rise (record (.drive .weN true) { s with resetIn := r }) hw).trans
      (onWeRise_ok { record (.drive .weN true) { s with resetIn := r } with weN := true } hb hq hd)

theorem delay_runs' (t : Nat) (s : State) :
    Runs (delay t s) s 1 () { s with trace := s.trace ++ [.delay t] } (fun _ u => u = s) :=
  ((tick_runs s).map fun _ => rfl)

theorem settle_runs (s : State) :
    Runs (settle s) s 1 () { s with wcBusy := false, trace := s.trace ++ [.delay s.cfg.tSettle] }
      (fun _ u => u = s) :=
  (delay_runs' s.cfg.tSettle s).map fun _ => rfl

/-- The pulse over a driven byte and a latched write word: four events and the commit (R142, R65). A reset at its first
event finds it not begun; at the other three it finds a write under way (R282). -/
theorem writePulse_runs (s : State) (hw : s.weN = true) (hb : s.wcBusy = false) (hq : srDir s = true)
    (hd : s.dDir = .output) :
    Runs (writePulse s) s 4 ()
      { s with mem := memWrite s.mem (srAddr s).toNat s.dOut, trace := s.trace ++ pulseEvents s.cfg }
      (fun n u => if n = 0 then Keeps s u else Writing s (srAddr s) s.dOut u) := by
  unfold writePulse
  refine Runs.cost (k := 1 + (1 + (1 + 1))) rfl ?_
  refine (driveWeLow_runs s).bind
    (R' := fun n u => Writing s (srAddr s) s.dOut u) (fun r => ?_) ?_ ?_
  · refine (delay_runs' _ _).bind (R' := fun n u => Writing s (srAddr s) s.dOut u) (fun r => ?_) ?_ ?_
    · refine (driveWeHigh_runs _ rfl (by exact hb) (by exact hq) (by exact hd)).bind
        (R' := fun n u => Writing s (srAddr s) s.dOut u) (fun r => ?_) ?_ ?_
      · refine ((settle_runs _).mono fun n u hn hu => ?_).retarget fun q => ?_
        · subst hu; exact ⟨.inr rfl, rfl, .inr rfl, rfl, rfl, rfl, rfl, rfl, rfl, rfl⟩
        · simp only [pulseEvents, List.append_assoc, hw, hb]; rfl
      · intro n u hn hu; subst hu; exact ⟨.inl rfl, rfl, .inl rfl, rfl, rfl, rfl, rfl, rfl, rfl, rfl⟩
      · intro n u hn hu; exact hu
    · intro n u hn hu; subst hu; exact ⟨.inl rfl, rfl, .inl rfl, rfl, rfl, rfl, rfl, rfl, rfl, rfl⟩
    · intro n u hn hu; exact hu
  · intro n u hn hu
    rw [if_pos (by omega), hu]; exact Keeps.refl s
  · intro n u hn hu
    rw [if_neg (by omega)]; exact hu

/-- write_byte up to its pulse (R141). -/
def writeSetup (a : Half) (v : Byte) (s : State) : Flow Unit :=
  (setDir .output s).bind fun _ s =>
  (srWrite (encodeWord a false) s).bind fun _ s =>
  driveBus v s

theorem writeByte_eq (a : Half) (v : Byte) (s : State) :
    writeByte a v s = (writeSetup a v s).bind fun _ s => writePulse s := by
  simp only [writeByte, writeSetup, Flow.bind_assoc]

/-- The state the pulse begins in. -/
def readyToPulse (a : Half) (v : Byte) (s : State) : State :=
  { s with dDir := .output, srData := a.getLsbD 0, srShift := encodeWord a false, srQ := encodeWord a false,
           srLatched := true, dOut := v,
           trace := s.trace ++ ([.setDir .output] ++ turnMark s ++ srEvents .output (encodeWord a false) ++ [.driveBus v]) }

theorem writeSetup_runs (a : Half) (v : Byte) (s : State) (hs : Quiet s) :
    Runs (writeSetup a v s) s 52 () (readyToPulse a v s) (fun _ u => Keeps s u) := by
  obtain ⟨hc, hl, hw, hb⟩ := hs
  have h0 : (encodeWord a false).getLsbD 0 = a.getLsbD 0 := by simp [encodeWord, Config.dirBit, Config.aMask]
  unfold writeSetup
  refine Runs.cost (k := 1 + (50 + 1)) rfl ((setDirOutput_runs s).andThen (by constructor <;> rfl) fun r => ?_)
  refine (srWrite_runs _ _ (by exact hc) (by exact hl) (by exact hw)).andThen (by constructor <;> rfl) fun r => ?_
  exact (driveBus_runs _ _).retarget fun q => by simp only [readyToPulse, h0, List.append_assoc]

/-- write_byte with the lines at rest and the device idle: 56 events, and the cell the address names modulo the device
takes the byte (R141, R143). A reset due after at most 52 events finds no write begun; after 53 to 55, a write under
way (R282). -/
theorem writeByte_runs (a : Half) (v : Byte) (s : State) (hs : Quiet s) :
    Runs (writeByte a v s) s 56 ()
      { s with dDir := .output, srData := a.getLsbD 0, srShift := encodeWord a false, srQ := encodeWord a false,
               srLatched := true, dOut := v, mem := memWrite s.mem (a.toNat % 2048) v,
               trace := s.trace ++ writeByteEvents s.cfg (turnMark s) a v }
      (fun n u => if n ≤ 52 then Keeps s u else Writing s (a.setWidth Config.abits) v u) := by
  have hq : ∀ r, srDir { readyToPulse a v s with resetIn := r } = true := fun r => encodeWord_dir a false
  have ha : ∀ r, srAddr { readyToPulse a v s with resetIn := r } = a.setWidth Config.abits := fun r => encodeWord_addr a false
  have hk : Keeps s (readyToPulse a v s) := by constructor <;> rfl
  rw [writeByte_eq]
  refine Runs.cost (k := 52 + 4) rfl ?_
  refine (writeSetup_runs a v s hs).bind
    (R' := fun n u => if n = 0 then Keeps s u else Writing s (a.setWidth Config.abits) v u) (fun r => ?_) ?_ ?_
  · have h := writePulse_runs { readyToPulse a v s with resetIn := r } hs.2.2.1 hs.2.2.2 (hq r) rfl
    rw [ha r] at h
    refine (h.mono fun n u hn hu => ?_).retarget fun q => ?_
    · by_cases h : n = 0
      · rw [if_pos h] at hu ⊢
        exact hk.trans ⟨hu.1, hu.2, hu.3, hu.4, hu.5, hu.6, hu.7, hu.8, hu.9, hu.10⟩
      · rw [if_neg h] at hu ⊢
        exact ⟨hu.1, hu.2, hu.3, hu.4, hu.5, hu.6, hu.7, hu.8, hu.9, hu.10⟩
    · simp only [readyToPulse, setWidth_toNat_mod, writeByteEvents, List.append_assoc]
  · intro n u hn hu
    rw [if_pos (by omega)]
    exact hu
  · intro n u hn hu
    by_cases h : n = 0
    · rw [if_pos h] at hu; rw [if_pos (by omega)]; exact hu
    · rw [if_neg h] at hu; rw [if_neg (by omega)]; exact hu

end Sys2Proof.Machine
end

