-- ==== Sys2Proof/Laws/Range.lean ====
section
/-! SUPPORT. Exactly how the loops of the range operations run, and what they leave (R170 to R175). -/

namespace Sys2Proof.Machine

/-- The clamp in closed form (R173). -/
theorem clamp_toNat (a n : Half) : (clamp a n).toNat = fits a.toNat n.toNat := by
  have := n.isLt
  unfold clamp fits; rw [Config.cap_eq]
  split
  · show 0 = _; omega
  · split
    · rw [BitVec.toNat_ofNat]; omega
    · omega

theorem inDevice_iff (a k : Half) : inDevice a k = true ↔ a.toNat + k.toNat < 2048 := decide_eq_true_iff

theorem cellAddr_toNat (a k : Half) (h : inDevice a k = true) : (cellAddr a k).toNat = a.toNat + k.toNat := by
  rw [inDevice_iff] at h
  simp only [cellAddr, BitVec.toNat_ofNat]
  omega

theorem cellAddr_mod (a k : Half) (h : inDevice a k = true) : (cellAddr a k).toNat % 2048 = a.toNat + k.toNat := by
  rw [cellAddr_toNat a k h]
  rw [inDevice_iff] at h
  omega

theorem succ_toNat (k : Half) (h : k.toNat < 65535) : (k + 1).toNat = k.toNat + 1 := by
  rw [BitVec.toNat_add]
  show (k.toNat + 1) % 65536 = _
  omega

/-! ## Reads -/

/-- The state after one round of read_range. -/
def readOne (a : Half) (s : State) : State :=
  let c := cellAddr a s.k
  { s with dDir := .input, srData := c.getLsbD 0, srShift := encodeWord c true, srQ := encodeWord c true,
           srLatched := true, trace := s.trace ++ readEvents c,
           buf := some ((bufBytes s).set s.k.toNat (memRead s.mem (c.toNat % 2048))), k := s.k + 1 }

/-- The state after `c` rounds of read_range. -/
def readMany : Nat → Half → State → State
  | 0, _, s => s
  | c + 1, a, s => readMany c a (readOne a s)

/-- What the rounds change. -/
theorem readMany_eq (c : Nat) (a : Half) (s : State) :
    readMany c a s =
      { s with dDir := (readMany c a s).dDir, srData := (readMany c a s).srData, srShift := (readMany c a s).srShift,
               srQ := (readMany c a s).srQ, srLatched := (readMany c a s).srLatched,
               trace := (readMany c a s).trace, buf := (readMany c a s).buf, k := (readMany c a s).k } := by
  induction c generalizing s with
  | zero => rfl
  | succ c ih =>
    show readMany c a (readOne a s) = _
    rw [ih]
    rfl

theorem readMany_resetIn (c : Nat) (a : Half) (s : State) (r : Option Nat) :
    readMany c a { s with resetIn := r } = { readMany c a s with resetIn := r } := by
  induction c generalizing s with
  | zero => rfl
  | succ c ih => exact ih (readOne a s)

theorem readMany_quiet (c : Nat) (a : Half) (s : State) (h : Quiet s) : Quiet (readMany c a s) := by
  rw [readMany_eq]; exact h

theorem readMany_keeps (c : Nat) (a : Half) (s : State) : Keeps s (readMany c a s) := by
  rw [readMany_eq]; constructor <;> rfl

/-- The rounds of read_range that are made run one after the other (R170, R175). -/
theorem readLoop_runs (fuel c : Nat) (a n bufcap : Half) (s : State) (b : List Byte) (hs : Quiet s)
    (hb : s.buf = some b) (hcap : bufcap.toNat ≤ b.length) (hf : c ≤ fuel)
    (hc : s.k.toNat + c ≤ min n.toNat bufcap.toNat ∧ (c = 0 ∨ a.toNat + s.k.toNat + c ≤ Config.cap))
    (hstop : c < fuel → s.k.toNat + c = min n.toNat bufcap.toNat ∨ Config.cap ≤ a.toNat + s.k.toNat + c) :
    Runs (readLoop fuel a n bufcap s) s (52 * c) () (readMany c a s) (fun _ u => Keeps s u) := by
  have hbl := bufcap.isLt
  induction fuel generalizing c s b with
  | zero =>
    obtain rfl : c = 0 := by omega
    exact Runs.pure () s _
  | succ fuel ih =>
    unfold readLoop
    cases c with
    | zero =>
      have := hstop (by omega)
      rw [if_neg (by have := s.k.isLt; rw [inDevice_iff]; simp only [Config.cap_eq] at *; omega)]
      exact Runs.pure () s _
    | succ c =>
      have hin : inDevice a s.k = true := by
        rw [inDevice_iff]; rw [Config.cap_eq] at hc; omega
      rw [if_pos ⟨by omega, by omega, hin⟩]
      refine Runs.cost (k := 52 + 52 * c) (by omega) ?_
      refine (readByte_runs (cellAddr a s.k) s hs).andThen (by constructor <;> rfl) fun r => ?_
      rw [bufWrite, if_pos (by simp only [bufBytes, hb, Option.getD_some]; omega), Flow.bind_ok]
      have hk : (s.k + 1).toNat = s.k.toNat + 1 := succ_toNat _ (by omega)
      have h := ih c { readOne a s with resetIn := r } (b.set s.k.toNat (memRead s.mem ((cellAddr a s.k).toNat % 2048)))
        hs (by simp only [readOne, bufBytes, hb, Option.getD_some]) (by simpa using hcap) (by omega)
        (by simp only [readOne, hk]; omega) (by simp only [readOne, hk]; omega)
      refine ⟨fun ha => ?_, fun m hm hlt => ?_⟩
      · have := h.done ha
        rw [readMany_resetIn] at this
        exact this
      · obtain ⟨u, hu, hk⟩ := h.cut m hm hlt
        exact ⟨u, hu, hk.1, hk.2, hk.3, hk.4, hk.5, hk.6, hk.7, hk.8, hk.9, hk.10⟩

@[simp] theorem deviceBytes_length (m : Memory) (a n : Nat) : (deviceBytes m a n).length = n := by
  simp [deviceBytes]

theorem deviceBytes_succ (m : Memory) (a n : Nat) :
    deviceBytes m a (n + 1) = memRead m a :: deviceBytes m (a + 1) n := by
  simp only [deviceBytes, List.range_succ_eq_map, List.map_cons, List.map_map, Nat.add_zero]
  congr 1
  apply List.map_congr_left
  intro t _
  simp only [Function.comp_apply, Nat.succ_eq_add_one]
  congr 1; omega

theorem readMany_k (c : Nat) (a : Half) (s : State) (h : s.k.toNat + c ≤ 65535) :
    (readMany c a s).k.toNat = s.k.toNat + c := by
  induction c generalizing s with
  | zero => rfl
  | succ c ih =>
    have hk : (s.k + 1).toNat = s.k.toNat + 1 := succ_toNat _ (by omega)
    show (readMany c a (readOne a s)).k.toNat = _
    rw [ih _ (by simp only [readOne, hk]; omega)]
    simp only [readOne, hk]; omega

/-- The buffer after the rounds: the bytes read stand at their places, the others are as they were (R170). -/
theorem readMany_buf (c : Nat) (a : Half) (s : State) (b : List Byte) (hb : s.buf = some b)
    (hl : s.k.toNat + c ≤ b.length) (hl' : b.length ≤ 65535) (hd : c = 0 ∨ a.toNat + s.k.toNat + c ≤ Config.cap) :
    (readMany c a s).buf =
      some (b.take s.k.toNat ++ deviceBytes s.mem (a.toNat + s.k.toNat) c ++ b.drop (s.k.toNat + c)) := by
  induction c generalizing s b with
  | zero => simp [readMany, hb, deviceBytes]
  | succ c ih =>
    have hk : (s.k + 1).toNat = s.k.toNat + 1 := succ_toNat _ (by omega)
    have hin : inDevice a s.k = true := by have := s.k.isLt; rw [inDevice_iff]; simp only [Config.cap_eq] at *; omega
    have hread := cellAddr_mod a s.k hin
    show (readMany c a (readOne a s)).buf = _
    rw [ih (readOne a s) (b.set s.k.toNat (memRead s.mem (a.toNat + s.k.toNat)))
      (by simp only [readOne, bufBytes, hb, Option.getD_some, hread])
      (by simp only [readOne, hk, List.length_set]; omega) (by simpa using hl')
      (by simp only [readOne, hk]; omega)]
    simp only [readOne, hk, deviceBytes_succ]
    congr 1
    have h1 : (b.set s.k.toNat (memRead s.mem (a.toNat + s.k.toNat))).take (s.k.toNat + 1) =
        b.take s.k.toNat ++ [memRead s.mem (a.toNat + s.k.toNat)] := by
      rw [List.take_add_one, List.take_set_of_le (Nat.le_refl _)]
      simp [show s.k.toNat < b.length by omega]
    have h2 : (b.set s.k.toNat (memRead s.mem (a.toNat + s.k.toNat))).drop (s.k.toNat + 1 + c) =
        b.drop (s.k.toNat + (c + 1)) := by
      rw [List.drop_set_of_lt (by omega)]
      congr 1; omega
    rw [h1, h2, show a.toNat + (s.k.toNat + 1) = a.toNat + s.k.toNat + 1 by omega]
    simp

/-! ## Writes -/

/-- The state after one round of write_range or write_fill. -/
def writeOne (a : Half) (v : Byte) (s : State) : State :=
  let c := cellAddr a s.k
  { s with dDir := .output, srData := c.getLsbD 0, srShift := encodeWord c false, srQ := encodeWord c false,
           srLatched := true, dOut := v, mem := memWrite s.mem (c.toNat % 2048) v,
           trace := s.trace ++ writeByteEvents s.cfg (turnMark s) c v, k := s.k + 1 }

/-- The state after a round for each byte. -/
def writeMany (a : Half) : List Byte → State → State
  | [], s => s
  | v :: r, s => writeMany a r (writeOne a v s)

/-- What the rounds change. -/
theorem writeMany_eq (a : Half) (data : List Byte) (s : State) :
    writeMany a data s =
      { s with dDir := (writeMany a data s).dDir, srData := (writeMany a data s).srData,
               srShift := (writeMany a data s).srShift, srQ := (writeMany a data s).srQ,
               srLatched := (writeMany a data s).srLatched, dOut := (writeMany a data s).dOut,
               mem := (writeMany a data s).mem, trace := (writeMany a data s).trace,
               k := (writeMany a data s).k } := by
  induction data generalizing s with
  | nil => rfl
  | cons v r ih =>
    show writeMany a r (writeOne a v s) = _
    rw [ih]
    rfl

theorem writeMany_resetIn (a : Half) (data : List Byte) (s : State) (r : Option Nat) :
    writeMany a data { s with resetIn := r } = { writeMany a data s with resetIn := r } := by
  induction data generalizing s with
  | nil => rfl
  | cons v l ih => exact ih (writeOne a v s)

/-- What a platform reset finds inside the rounds: some bytes written, and the next one not begun or under way
(R282). -/
def Interrupted (a : Half) (data : List Byte) (s u : State) : Prop :=
  ∃ p, ∃ h : p < data.length,
    Keeps (writeMany a (data.take p) s) u ∨
      Writing (writeMany a (data.take p) s) ((cellAddr a (writeMany a (data.take p) s).k).setWidth Config.abits) data[p] u

theorem Keeps.set_resetIn {s u : State} {r : Option Nat} (h : Keeps { s with resetIn := r } u) : Keeps s u :=
  ⟨h.1, h.2, h.3, h.4, h.5, h.6, h.7, h.8, h.9, h.10⟩

theorem Writing.set_resetIn {s u : State} {r : Option Nat} {a : DevAddr} {v : Byte}
    (h : Writing { s with resetIn := r } a v u) : Writing s a v u :=
  ⟨h.1, h.2, h.3, h.4, h.5, h.6, h.7, h.8, h.9, h.10⟩

/-- The rounds of write_range and write_fill that are made run one after the other: `data` cut to what fits the device
(R171, R172, R175). -/
theorem writeLoop_runs (a : Half) (data : List Byte) (s : State) (hs : Quiet s)
    (hk : s.k.toNat + data.length ≤ 65535) :
    Runs (writeLoop a data s) s (56 * fits (a.toNat + s.k.toNat) data.length) ()
      (writeMany a (data.take (fits (a.toNat + s.k.toNat) data.length)) s)
      (fun _ u => Interrupted a (data.take (fits (a.toNat + s.k.toNat) data.length)) s u) := by
  induction data generalizing s with
  | nil =>
    have : fits (a.toNat + s.k.toNat) ([] : List Byte).length = 0 := by simp [fits]
    rw [this]
    exact Runs.pure () s _
  | cons v l ih =>
    unfold writeLoop
    simp only [List.length_cons] at hk
    by_cases hin : inDevice a s.k = true
    · rw [if_pos hin]
      have hlt : a.toNat + s.k.toNat < Config.cap := by simpa [inDevice] using hin
      have hk1 : (s.k + 1).toNat = s.k.toNat + 1 := succ_toNat _ (by omega)
      have hfit : fits (a.toNat + s.k.toNat) (v :: l).length =
          fits (a.toNat + (s.k + 1).toNat) l.length + 1 := by
        simp only [fits, List.length_cons, hk1]; omega
      rw [hfit, List.take_succ_cons]
      refine Runs.cost (k := 56 + 56 * fits (a.toNat + (s.k + 1).toNat) l.length) (by omega) ?_
      refine (writeByte_runs (cellAddr a s.k) v s hs).bind
        (R' := fun _ u => Interrupted a (l.take (fits (a.toNat + (s.k + 1).toNat) l.length)) (writeOne a v s) u)
        (fun r => ?_) ?_ ?_
      · have h := ih { writeOne a v s with resetIn := r } hs (by simp only [writeOne, hk1]; omega)
        refine ⟨fun ha => ?_, fun m hm hlt => ?_⟩
        · have := h.done ha
          rw [writeMany_resetIn] at this
          exact this
        · obtain ⟨u, hu, p, hp, h1⟩ := h.cut m hm hlt
          rw [writeMany_resetIn] at h1
          exact ⟨u, hu, p, hp, h1.imp Keeps.set_resetIn Writing.set_resetIn⟩
      · intro n u hn hu
        refine ⟨0, by simp, ?_⟩
        by_cases h52 : n ≤ 52
        · rw [if_pos h52] at hu; exact .inl hu
        · rw [if_neg h52] at hu; exact .inr hu
      · rintro n u hn ⟨p, hp, h1⟩
        exact ⟨p + 1, by simpa using hp, h1⟩
    · rw [if_neg hin]
      have : fits (a.toNat + s.k.toNat) (v :: l).length = 0 := by
        rw [inDevice_iff] at hin
        simp only [fits, Config.cap_eq]; omega
      rw [this]
      exact Runs.pure () s _

theorem writeMany_k (a : Half) (data : List Byte) (s : State) (h : s.k.toNat + data.length ≤ 65535) :
    (writeMany a data s).k.toNat = s.k.toNat + data.length := by
  induction data generalizing s with
  | nil => rfl
  | cons v l ih =>
    simp only [List.length_cons] at h ⊢
    have hk : (s.k + 1).toNat = s.k.toNat + 1 := succ_toNat _ (by omega)
    show (writeMany a l (writeOne a v s)).k.toNat = _
    rw [ih _ (by simp only [writeOne, hk]; omega)]
    simp only [writeOne, hk]; omega

theorem writeMany_quiet (a : Half) (data : List Byte) (s : State) (h : Quiet s) : Quiet (writeMany a data s) := by
  rw [writeMany_eq]; exact h

/-- The rounds keep the memory's one form. -/
theorem writeMany_wf (a : Half) (data : List Byte) (s : State) (h : Memory.wf s.mem) :
    Memory.wf (writeMany a data s).mem := by
  induction data generalizing s with
  | nil => exact h
  | cons v l ih => exact ih _ (memWrite_wf _ h _ (Nat.mod_lt _ (by decide)) _)

/-- The cells the rounds write, and no other (R171, R67). -/
theorem writeMany_mem (a : Half) (data : List Byte) (s : State) (hm : s.mem.Pairwise fun c d => c.1 < d.1)
    (hd : data = [] ∨ a.toNat + s.k.toNat + data.length ≤ Config.cap) (x : Nat) :
    memRead (writeMany a data s).mem x =
      if a.toNat + s.k.toNat ≤ x ∧ x < a.toNat + s.k.toNat + data.length then
        data.getD (x - (a.toNat + s.k.toNat)) 0 else memRead s.mem x := by
  induction data generalizing s with
  | nil => rw [if_neg (by simp)]; rfl
  | cons v l ih =>
    have hd : a.toNat + s.k.toNat + (l.length + 1) ≤ 2048 := by simpa [Config.cap_eq] using hd
    have hk : (s.k + 1).toNat = s.k.toNat + 1 := succ_toNat _ (by omega)
    have hin : inDevice a s.k = true := by rw [inDevice_iff]; omega
    have hmod := cellAddr_mod a s.k hin
    show memRead (writeMany a l (writeOne a v s)).mem x = _
    rw [ih (writeOne a v s) (memWrite_sorted _ hm _ _)
      (by right; simp only [writeOne, hk, Config.cap_eq]; omega)]
    simp only [writeOne, hk, hmod, List.length_cons, memRead_memWrite _ hm]
    by_cases h0 : x = a.toNat + s.k.toNat
    · rw [if_neg (by omega), if_pos h0, if_pos (by omega)]
      simp [h0]
    · rw [if_neg h0]
      by_cases h1 : a.toNat + (s.k.toNat + 1) ≤ x ∧ x < a.toNat + (s.k.toNat + 1) + l.length
      · rw [if_pos h1, if_pos (by omega)]
        rw [show x - (a.toNat + s.k.toNat) = (x - (a.toNat + (s.k.toNat + 1))) + 1 by omega]
        simp
      · rw [if_neg h1, if_neg (by omega)]

end Sys2Proof.Machine
end

