-- ==== Sys2Proof/Laws/Sequencer.lean ====
section
/-! SUPPORT. What the sequencer's shared parts can do: SYNC, the HDR burst, a held or completed push of the response,
the payload collection (R201, R202, R207, R209). -/

namespace Sys2Proof.Machine

/-! ## Rooms and countdowns -/

theorem accepts_zero (s : State) : accepts s 0 = true := by
  unfold accepts; split <;> simp

/-- `r` is a countdown that can follow the one of `s`: with no reset due, none comes up. -/
def Later (s : State) (r : Option Nat) : Prop := s.resetIn = none → r = none

theorem Later.refl (s : State) : Later s s.resetIn := id

theorem tick_meets (s : State) :
    (tick s).Meets (fun _ t => ∃ r, Later s r ∧ t = { s with resetIn := r }) (fun _ => False)
      (fun u => s.resetIn ≠ none ∧ u = s) := by
  unfold tick
  split
  · exact ⟨s.resetIn, Later.refl s, rfl⟩
  · next h => exact ⟨by simp [h], rfl⟩
  · next n h => exact ⟨some n, fun h' => by simp [h'] at h, rfl⟩

/-- One event with a plain effect. -/
theorem event_meets {α : Type} {s : State} {f : State → Flow α} {P : α → State → Prop} {W R : State → Prop}
    (hf : ∀ r, Later s r → (f { s with resetIn := r }).Meets P W R) (hR : s.resetIn ≠ none → R s) :
    ((tick s).bind fun _ s => f s).Meets P W R := by
  refine ((tick_meets s).mono (fun _ _ h => h) (fun _ h => h.elim) (fun u h => ?_)).bind ?_
  · obtain ⟨h, rfl⟩ := h; exact hR h
  · rintro v t ⟨r, hr, rfl⟩; exact hf r hr

/-- `PollIdle()` ends the step with one delay recorded (R201, R202, R207). -/
theorem pollIdle_meets {α : Type} (s : State) {P : α → State → Prop} :
    (pollIdle s : Flow α).Meets P
      (fun u => ∃ r, Later s r ∧ u = { s with trace := s.trace ++ [.delay s.cfg.tPoll], resetIn := r })
      (fun u => s.resetIn ≠ none ∧ u = s) := by
  unfold pollIdle delay
  rw [Flow.bind_assoc]
  refine event_meets (fun r hr => ?_) fun h => ⟨h, rfl⟩
  exact ⟨r, hr, rfl⟩

/-! ## The response emitter -/

/-- One push (R70): it completes, or holds while the channel accepts nothing. -/
theorem txPush_meets (b : Byte) (s : State) :
    (txPush b s).Meets
      (fun _ t => accepts s 1 = true ∧ ∃ r, Later s r ∧
        t = { s with tx := s.tx ++ [b], txRoom := roomAfter s 1, resetIn := r })
      (fun u => accepts s 1 = false ∧ ∃ r, Later s r ∧ u = { s with resetIn := r })
      (fun u => s.resetIn ≠ none ∧ u = s) := by
  unfold txPush
  refine event_meets (fun r hr => ?_) fun h => ⟨h, rfl⟩
  cases hroom : s.txRoom with
  | none =>
    exact ⟨by simp [accepts, hroom], r, hr, by simp [roomAfter, hroom]⟩
  | some n =>
    cases n with
    | zero => exact ⟨by simp [accepts, hroom], r, hr, by simp [← hroom]⟩
    | succ n => exact ⟨by simp [accepts, hroom], r, hr, by simp [roomAfter, hroom]⟩

theorem accepts_succ (s : State) (n : Nat) (t : State) (ht : t.txRoom = roomAfter s 1) (h1 : accepts s 1 = true) :
    accepts t n = accepts s (n + 1) := by
  unfold accepts at *
  rw [ht]
  cases hr : s.txRoom with
  | none => simp [roomAfter, hr]
  | some k =>
    simp only [hr, decide_eq_true_eq] at h1
    simp only [roomAfter, hr, Option.map_some]
    by_cases h : n + 1 ≤ k
    · simp [h, show n ≤ k - 1 by omega]
    · simp [h, show ¬ n ≤ k - 1 by omega]

theorem roomAfter_succ (s : State) (n : Nat) (t : State) (ht : t.txRoom = roomAfter s 1) :
    roomAfter t n = roomAfter s (n + 1) := by
  unfold roomAfter at *
  rw [ht]
  cases s.txRoom with
  | none => rfl
  | some k => simp only [Option.map_some]; congr 1; omega

/-- `p` header bytes of `l` pushed. -/
def pushedHeader (l : List Byte) (p : Nat) (s : State) (r : Option Nat) : State :=
  { s with tx := s.tx ++ l.take p, txRoom := roomAfter s p, respPos := s.respPos + p, resetIn := r }

theorem roomAfter_zero (s : State) : roomAfter s 0 = s.txRoom := by
  unfold roomAfter; cases s.txRoom <;> rfl

theorem pushHeader_meets (l : List Byte) (s : State) :
    (pushHeader l s).Meets
      (fun _ t => accepts s l.length = true ∧ ∃ r, Later s r ∧ t = pushedHeader l l.length s r)
      (fun u => ∃ p, p < l.length ∧ accepts s p = true ∧ accepts s (p + 1) = false ∧ ∃ r, Later s r ∧ u = pushedHeader l p s r)
      (fun u => s.resetIn ≠ none ∧ ∃ p r, p < l.length ∧ accepts s p = true ∧ u = pushedHeader l p s r) := by
  induction l generalizing s with
  | nil =>
    refine ⟨accepts_zero s, s.resetIn, Later.refl s, ?_⟩
    simp [pushedHeader, roomAfter_zero]
  | cons b l ih =>
    unfold pushHeader
    refine ((txPush_meets b s).mono (fun _ _ h => h) (fun u h => ?_) (fun u h => ?_)).bind ?_
    · obtain ⟨ha, r, hr, rfl⟩ := h
      exact ⟨0, by simp, accepts_zero s, ha, r, hr, by simp [pushedHeader, roomAfter_zero]⟩
    · obtain ⟨hr, rfl⟩ := h
      exact ⟨hr, 0, u.resetIn, by simp, accepts_zero u, by simp [pushedHeader, roomAfter_zero]⟩
    · rintro _ t ⟨ha, r, hr, rfl⟩
      have key : ∀ p r', pushedHeader l p
          { s with tx := s.tx ++ [b], txRoom := roomAfter s 1, resetIn := r, respPos := s.respPos + 1 } r' =
          pushedHeader (b :: l) (p + 1) s r' := by
        intro p r'
        simp [pushedHeader, roomAfter, Function.comp_def, Nat.sub_sub, Nat.add_comm, Nat.add_left_comm]
      refine (ih _).mono (fun _ u h => ?_) (fun u h => ?_) (fun u h => ?_)
      · obtain ⟨h1, r', hr', rfl⟩ := h
        rw [accepts_succ s l.length _ rfl ha] at h1
        exact ⟨h1, r', fun h => hr' (hr h), key l.length r'⟩
      · obtain ⟨p, hp, h0, h1, r', hr', rfl⟩ := h
        rw [accepts_succ s p _ rfl ha] at h0
        rw [accepts_succ s (p + 1) _ rfl ha] at h1
        exact ⟨p + 1, by simpa using hp, h0, h1, r', fun h => hr' (hr h), key p r'⟩
      · obtain ⟨h0, p, r', hp, h1, rfl⟩ := h
        rw [accepts_succ s p _ rfl ha] at h1
        exact ⟨fun h => h0 (hr h), p + 1, r', by simpa using hp, h1, key p r'⟩

/-- `p` payload bytes from `buf[j]` on pushed. -/
def pushedPayload (p : Nat) (s : State) (r : Option Nat) : State :=
  { s with tx := s.tx ++ ((bufBytes s).drop s.j.toNat).take p, txRoom := roomAfter s p,
           j := s.j + BitVec.ofNat 16 p, resetIn := r }

theorem ofNat_succ_comm (j : Half) (p : Nat) : j + 1 + BitVec.ofNat 16 p = j + BitVec.ofNat 16 (p + 1) := by
  apply BitVec.eq_of_toNat_eq
  have h1 : (1 : Half).toNat = 1 := rfl
  simp only [BitVec.toNat_add, BitVec.toNat_ofNat, h1]
  omega

theorem pushPayload_meets (n : Nat) (s : State) (hn : s.j.toNat + n ≤ (bufBytes s).length)
    (hl : s.j.toNat + n ≤ 65535) :
    (pushPayload n s).Meets
      (fun _ t => accepts s n = true ∧ ∃ r, Later s r ∧ t = pushedPayload n s r)
      (fun u => ∃ p, p < n ∧ accepts s p = true ∧ accepts s (p + 1) = false ∧ ∃ r, Later s r ∧ u = pushedPayload p s r)
      (fun u => s.resetIn ≠ none ∧ ∃ p r, p < n ∧ accepts s p = true ∧ u = pushedPayload p s r) := by
  induction n generalizing s with
  | zero =>
    refine ⟨accepts_zero s, s.resetIn, Later.refl s, ?_⟩
    simp [pushedPayload, roomAfter_zero]
  | succ n ih =>
    have hlt : s.j.toNat < (bufBytes s).length := by omega
    unfold pushPayload bufRead
    rw [List.getElem?_eq_getElem hlt, Flow.bind_ok]
    have hk : (s.j + 1).toNat = s.j.toNat + 1 := succ_toNat _ (by omega)
    have htake : ∀ p, ((bufBytes s).drop s.j.toNat).take (p + 1) =
        (bufBytes s)[s.j.toNat] :: ((bufBytes s).drop (s.j.toNat + 1)).take p := fun p => by
      rw [List.drop_eq_getElem_cons hlt, List.take_succ_cons]
    refine ((txPush_meets _ s).mono (fun _ _ h => h) (fun u h => ?_) (fun u h => ?_)).bind ?_
    · obtain ⟨ha, r, hr, rfl⟩ := h
      exact ⟨0, by omega, accepts_zero s, ha, r, hr, by simp [pushedPayload, roomAfter_zero]⟩
    · obtain ⟨hr, rfl⟩ := h
      exact ⟨hr, 0, u.resetIn, by omega, accepts_zero u, by simp [pushedPayload, roomAfter_zero]⟩
    · rintro _ t ⟨ha, r, hr, rfl⟩
      have key : ∀ p r', pushedPayload p
          { s with tx := s.tx ++ [(bufBytes s)[s.j.toNat]], txRoom := roomAfter s 1, resetIn := r, j := s.j + 1 } r' =
          pushedPayload (p + 1) s r' := by
        intro p r'
        have hb : bufBytes
            { s with tx := s.tx ++ [(bufBytes s)[s.j.toNat]], txRoom := roomAfter s 1, resetIn := r, j := s.j + 1 } =
            bufBytes s := rfl
        simp only [pushedPayload, hb, hk, htake, ofNat_succ_comm, List.append_assoc, List.cons_append, List.nil_append]
        simp [roomAfter, Function.comp_def, Nat.sub_sub, Nat.add_comm]
      refine (ih _ (by show (s.j + 1).toNat + n ≤ (bufBytes s).length; omega)
        (by show (s.j + 1).toNat + n ≤ 65535; omega)).mono (fun _ u h => ?_) (fun u h => ?_) (fun u h => ?_)
      · obtain ⟨h1, r', hr', rfl⟩ := h
        rw [accepts_succ s n _ rfl ha] at h1
        exact ⟨h1, r', fun h => hr' (hr h), key n r'⟩
      · obtain ⟨p, hp, h0, h1, r', hr', rfl⟩ := h
        rw [accepts_succ s p _ rfl ha] at h0
        rw [accepts_succ s (p + 1) _ rfl ha] at h1
        exact ⟨p + 1, by omega, h0, h1, r', fun h => hr' (hr h), key p r'⟩
      · obtain ⟨h0, p, r', hp, h1, rfl⟩ := h
        rw [accepts_succ s p _ rfl ha] at h1
        exact ⟨fun h => h0 (hr h), p + 1, r', by omega, h1, key p r'⟩

/-- What RESP guarantees of its registers. -/
structure RespReady (s : State) : Prop where
  len : s.rsize.toNat ≤ (bufBytes s).length
  pos : s.respPos ≤ 9
  j : s.j.toNat ≤ s.rsize.toNat
  fresh : s.respPos < 9 → s.j = 0

theorem respHeader_length (s : State) : (respHeader s).length = 9 := rfl

theorem remaining_length (s : State) (h : RespReady s) :
    (remaining s).length = 9 - s.respPos + (s.rsize.toNat - s.j.toNat) := by
  have := h.len
  simp only [remaining, List.length_append, List.length_drop, respHeader_length, List.length_take]
  omega

/-- A response of which `more` has been pushed: the stream, the room and RESP's own positions have moved, nothing else,
and the bytes pushed with those still to push are the bytes there were to push. -/
structure Pushed (s u : State) (more : List Byte) : Prop where
  frame : ∃ pos jj r, Later s r ∧
    u = { s with tx := s.tx ++ more, txRoom := roomAfter s more.length, respPos := pos, j := jj, resetIn := r }
  rest : more ++ remaining u = remaining s
  ready : RespReady u
  room : accepts s more.length = true

/-- The end of RESP (R209). -/
def responded (s : State) (r : Option Nat) : State :=
  { enterSync s with tx := s.tx ++ remaining s, txRoom := roomAfter s (remaining s).length, respPos := 9, j := s.rsize,
                     resetIn := r }

theorem roomAfter_add (s t : State) (m n : Nat) (h : t.txRoom = roomAfter s m) :
    roomAfter t n = roomAfter s (m + n) := by
  unfold roomAfter at *
  rw [h]; cases s.txRoom <;> simp [Nat.sub_sub]

theorem accepts_add (s t : State) (m n : Nat) (h : t.txRoom = roomAfter s m) (hm : accepts s m = true) :
    accepts t n = accepts s (m + n) := by
  unfold accepts at *
  unfold roomAfter at h
  rw [h]
  cases hr : s.txRoom with
  | none => rfl
  | some k =>
    simp only [hr, decide_eq_true_eq] at hm
    simp only [Option.map_some, decide_eq_decide]
    omega

/-- The header bytes pushed, as part of the response. -/
theorem pushedHeader_pushed (s : State) (h : RespReady s) (p : Nat) (r : Option Nat) (hr : Later s r)
    (hp : p ≤ ((respHeader s).drop s.respPos).length) (ha : accepts s p = true) :
    Pushed s (pushedHeader ((respHeader s).drop s.respPos) p s r) (((respHeader s).drop s.respPos).take p) := by
  have hl : (((respHeader s).drop s.respPos).take p).length = p := by rw [List.length_take]; omega
  rw [List.length_drop, respHeader_length] at hp
  refine ⟨⟨s.respPos + p, s.j, r, hr, by rw [hl]; rfl⟩, ?_, ⟨h.len, ?_, h.j, ?_⟩, by rw [hl]; exact ha⟩
  · show _ ++ ((respHeader s).drop (s.respPos + p) ++ ((bufBytes s).take s.rsize.toNat).drop s.j.toNat) = _
    rw [← List.drop_drop, ← List.append_assoc, List.take_append_drop]
    rfl
  · have := h.pos; show s.respPos + p ≤ 9; omega
  · intro (hlt : s.respPos + p < 9)
    exact h.fresh (by omega)

theorem j_add_toNat (s : State) (h : RespReady s) (p : Nat) (hp : p ≤ s.rsize.toNat - s.j.toNat) :
    (s.j + BitVec.ofNat 16 p).toNat = s.j.toNat + p := by
  have := h.j
  have := s.rsize.isLt
  rw [BitVec.toNat_add, BitVec.toNat_ofNat]
  omega

/-- The payload bytes pushed, as part of the response. -/
theorem pushedPayload_pushed (s : State) (h : RespReady s) (h9 : s.respPos = 9) (p : Nat) (r : Option Nat)
    (hr : Later s r) (hp : p ≤ s.rsize.toNat - s.j.toNat) (ha : accepts s p = true) :
    Pushed s (pushedPayload p s r) (((bufBytes s).drop s.j.toNat).take p) := by
  have hlen := h.len
  have hj := h.j
  have hl : (((bufBytes s).drop s.j.toNat).take p).length = p := by
    rw [List.length_take, List.length_drop]; omega
  have hjp := j_add_toNat s h p hp
  refine ⟨⟨s.respPos, s.j + BitVec.ofNat 16 p, r, hr, by rw [hl]; rfl⟩, ?_, ⟨h.len, h.pos, ?_, ?_⟩, by rw [hl]; exact ha⟩
  · have h9' : ∀ u : State, u.respPos = 9 → (respHeader u).drop u.respPos = [] := fun u hu => by rw [hu]; rfl
    simp only [remaining, h9' s h9, h9' (pushedPayload p s r) h9, List.nil_append]
    show _ ++ ((bufBytes s).take s.rsize.toNat).drop (s.j + BitVec.ofNat 16 p).toNat = _
    rw [hjp, ← List.drop_drop]
    have : ((bufBytes s).drop s.j.toNat).take p = (((bufBytes s).take s.rsize.toNat).drop s.j.toNat).take p := by
      rw [List.drop_take, List.take_take]
      congr 1; omega
    rw [this, List.take_append_drop]
  · show (s.j + BitVec.ofNat 16 p).toNat ≤ s.rsize.toNat
    omega
  · intro (hlt : s.respPos < 9); omega

theorem Pushed.trans {s t u : State} {m n : List Byte} (h : Pushed s t m) (h' : Pushed t u n) : Pushed s u (m ++ n) := by
  obtain ⟨⟨pos, jj, r, hr, rfl⟩, h2, h3, h4⟩ := h
  obtain ⟨⟨pos', jj', r', hr', rfl⟩, h2', h3', h4'⟩ := h'
  refine ⟨⟨pos', jj', r', fun h => hr' (hr h), ?_⟩, ?_, h3', ?_⟩
  · simp [roomAfter, Nat.sub_sub, Function.comp_def]
  · rw [List.append_assoc, h2', h2]
  · rw [accepts_add s _ m.length n.length rfl h4] at h4'
    rwa [List.length_append]

/-- The RESP step (R209): the whole response is pushed and SYNC entered, or a push holds (R70), or a reset falls. -/
theorem respStep_meets (s : State) (h : RespReady s) :
    (respStep s).Meets
      (fun _ t => accepts s (remaining s).length = true ∧ ∃ r, Later s r ∧ t = responded s r)
      (fun u => ∃ more, Pushed s u more ∧ more.length < (remaining s).length ∧ accepts s (more.length + 1) = false)
      (fun u => s.resetIn ≠ none ∧ ∃ more, Pushed s u more) := by
  have hlen := h.len
  have hpos := h.pos
  have hj := h.j
  have hbl := s.rsize.isLt
  have hrem := remaining_length s h
  have hhl : ((respHeader s).drop s.respPos).length = 9 - s.respPos := by
    rw [List.length_drop, respHeader_length]
  unfold respStep
  refine ((pushHeader_meets ((respHeader s).drop s.respPos) s).mono (fun _ _ h => h) (fun u hu => ?_)
    (fun u hu => ?_)).bind ?_
  · obtain ⟨p, hp, ha, hb, r, hr, rfl⟩ := hu
    refine ⟨_, pushedHeader_pushed s h p r hr (by omega) ha, ?_, ?_⟩
    · rw [List.length_take, hrem]; omega
    · rwa [List.length_take, min_eq_left (by omega)]
  · obtain ⟨h0, p, r, hp, ha, rfl⟩ := hu
    exact ⟨h0, _, pushedHeader_pushed s h p r (fun e => absurd e h0) (by omega) ha⟩
  · rintro _ t ⟨ha, r, hr, rfl⟩
    have hp1 := pushedHeader_pushed s h _ r hr (Nat.le_refl _) ha
    rw [List.take_length] at hp1
    generalize ht : pushedHeader ((respHeader s).drop s.respPos) ((respHeader s).drop s.respPos).length s r = t at hp1 ⊢
    have ht9 : t.respPos = 9 := by rw [← ht]; show s.respPos + _ = 9; rw [hhl]; omega
    have htj : t.j = s.j := by rw [← ht]; rfl
    have htr : t.rsize = s.rsize := by rw [← ht]; rfl
    have htb : bufBytes t = bufBytes s := by rw [← ht]; rfl
    have htroom : t.txRoom = roomAfter s ((respHeader s).drop s.respPos).length := by rw [← ht]; rfl
    have hr' := hp1.ready
    refine ((pushPayload_meets (t.rsize.toNat - t.j.toNat) t (by rw [htr, htj, htb]; omega)
      (by rw [htr, htj]; omega)).mono (fun _ _ h => h) (fun u hu => ?_) (fun u hu => ?_)).bind ?_
    · obtain ⟨p, hp, ha', hb, r', hl', rfl⟩ := hu
      have hp2 := pushedPayload_pushed t hr' ht9 p r' hl' (by omega) ha'
      have hlp : (((bufBytes t).drop t.j.toNat).take p).length = p := by
        rw [List.length_take, List.length_drop, htb]; rw [htr] at hp; omega
      refine ⟨_, hp1.trans hp2, ?_, ?_⟩
      · rw [List.length_append, hlp, hhl, hrem]; rw [htr, htj] at hp; omega
      · rw [accepts_add s t _ (p + 1) htroom ha] at hb
        rw [List.length_append, hlp]
        exact hb
    · obtain ⟨h0, p, r', hp, ha', rfl⟩ := hu
      have hp2 := pushedPayload_pushed t hr' ht9 p r' (fun e => absurd e h0) (by omega) ha'
      obtain ⟨⟨_, _, _, hl, _⟩, _, _, _⟩ := hp1.trans hp2
      exact ⟨fun e => h0 (by rw [← ht]; exact hr e), _, hp1.trans hp2⟩
    · rintro _ u ⟨ha', r', hl', rfl⟩
      have hlen' : (remaining s).length =
          ((respHeader s).drop s.respPos).length + (t.rsize.toNat - t.j.toNat) := by
        rw [hrem, hhl, htr, htj]
      refine ⟨?_, r', fun e => hl' (by rw [← ht]; exact hr e), ?_⟩
      · rw [hlen', ← accepts_add s t _ _ htroom ha]; exact ha'
      · have hj2 : t.j + BitVec.ofNat 16 (t.rsize.toNat - t.j.toNat) = s.rsize := by
          apply BitVec.eq_of_toNat_eq
          rw [j_add_toNat t hr' _ (Nat.le_refl _), htr, htj]; omega
        have hrem2 : remaining s = (respHeader s).drop s.respPos ++
            ((bufBytes t).drop t.j.toNat).take (t.rsize.toNat - t.j.toNat) := by
          rw [htb, htr, htj, ← List.drop_take]; rfl
        unfold responded pushedPayload
        rw [hj2, roomAfter_add s t _ _ htroom, ← hlen', hrem2, ← ht]
        have h9 : s.respPos + (9 - s.respPos) = 9 := by omega
        simp [pushedHeader, enterSync, respHeader_length, h9]

/-! ## The payload collection -/

theorem bufWrite_ok {n : Nat} {v : Byte} {s : State} {b : List Byte} (hb : s.buf = some b) (hn : n < b.length) :
    bufWrite n v s = .ok () { s with buf := some (b.set n v) } := by
  have : bufBytes s = b := by simp [bufBytes, hb]
  simp [bufWrite, this, hn]

/-- `p` payload bytes collected. -/
def collected (p : Nat) (s : State) (r : Option Nat) : State :=
  { s with i := s.i + BitVec.ofNat 16 p, rx := s.rx.drop p,
           buf := s.buf.map fun b => b.take s.i.toNat ++ s.rx.take p ++ b.drop (s.i.toNat + p), resetIn := r }

theorem collected_zero (s : State) (r : Option Nat) : collected 0 s r = { s with resetIn := r } := by
  cases hb : s.buf <;> simp [collected, hb]

/-- EXEC_WRX (R207): the bytes that wait are taken into the buffer in order, up to `size` of them; short of that the step
ends with one idle delay. -/
theorem collect_meets (fuel : Nat) (s : State) (b : List Byte) (hb : s.buf = some b) (hl : b.length = s.size.toNat)
    (hi : s.i.toNat ≤ s.size.toNat) (hf : s.rx.length ≤ fuel) :
    (collect fuel s).Meets
      (fun _ t => s.size.toNat - s.i.toNat ≤ s.rx.length ∧ ∃ r, Later s r ∧
        t = { collected (s.size.toNat - s.i.toNat) s r with st := .execWcommit })
      (fun u => s.rx.length < s.size.toNat - s.i.toNat ∧ ∃ r, Later s r ∧
        u = { collected s.rx.length s r with trace := s.trace ++ [.delay s.cfg.tPoll] })
      (fun u => s.resetIn ≠ none ∧ ∃ p r, p ≤ s.rx.length ∧ p ≤ s.size.toNat - s.i.toNat ∧ u = collected p s r) := by
  have hsz := s.size.isLt
  induction fuel generalizing s b with
  | zero =>
    have hrx : s.rx = [] := List.length_eq_zero_iff.mp (by omega)
    unfold collect
    by_cases he : s.i = s.size
    · rw [if_pos he]
      have h0 : s.size.toNat - s.i.toNat = 0 := by rw [he]; omega
      refine ⟨by omega, s.resetIn, Later.refl s, ?_⟩
      rw [h0, collected_zero]
    · rw [if_neg he, if_neg (by simp [rxAvail, hrx])]
      have hne : s.i.toNat ≠ s.size.toNat := fun e => he (BitVec.eq_of_toNat_eq e)
      refine (pollIdle_meets s).mono (fun _ _ h => h) (fun u h => ?_) (fun u h => ?_)
      · obtain ⟨r, hr, rfl⟩ := h
        refine ⟨by rw [hrx, List.length_nil]; omega, r, hr, ?_⟩
        have h0 : s.rx.length = 0 := by rw [hrx]; rfl
        rw [h0, collected_zero]
      · obtain ⟨h0, rfl⟩ := h
        exact ⟨h0, 0, u.resetIn, by omega, by omega, by rw [collected_zero]⟩
  | succ fuel ih =>
    unfold collect
    by_cases he : s.i = s.size
    · rw [if_pos he]
      have h0 : s.size.toNat - s.i.toNat = 0 := by rw [he]; omega
      refine ⟨by omega, s.resetIn, Later.refl s, ?_⟩
      rw [h0, collected_zero]
    · rw [if_neg he]
      have hne : s.i.toNat ≠ s.size.toNat := fun e => he (BitVec.eq_of_toNat_eq e)
      cases hrx : s.rx with
      | nil =>
        rw [if_neg (by simp [rxAvail, hrx])]
        refine (pollIdle_meets s).mono (fun _ _ h => h) (fun u h => ?_) (fun u h => ?_)
        · obtain ⟨r, hr, rfl⟩ := h
          refine ⟨by rw [List.length_nil]; omega, r, hr, ?_⟩
          rw [List.length_nil, collected_zero]
        · obtain ⟨h0, rfl⟩ := h
          exact ⟨h0, 0, u.resetIn, by omega, by omega, by rw [collected_zero]⟩
      | cons v l =>
        rw [if_pos (by simp [rxAvail, hrx])]
        have hk : (s.i + 1).toNat = s.i.toNat + 1 := succ_toNat _ (by omega)
        refine event_meets (fun r hr => ?_) fun h0 => ⟨h0, 0, s.resetIn, by omega, by omega, by rw [collected_zero]⟩
        simp only [rxPop, hrx, Flow.bind_ok]
        rw [bufWrite_ok (b := b) (by exact hb) (by omega), Flow.bind_ok]
        have key : ∀ p r', collected p
            { s with rx := l, resetIn := r, buf := some (b.set s.i.toNat v), i := s.i + 1 } r' =
            collected (p + 1) s r' := by
          intro p r'
          have h1 : (b.set s.i.toNat v).take (s.i.toNat + 1) = b.take s.i.toNat ++ [v] := by
            rw [List.take_add_one, List.take_set_of_le (Nat.le_refl _)]
            simp [show s.i.toNat < b.length by omega]
          have h2 : (b.set s.i.toNat v).drop (s.i.toNat + 1 + p) = b.drop (s.i.toNat + (p + 1)) := by
            rw [List.drop_set_of_lt (by omega)]
            congr 1; omega
          simp only [collected, hk, hb, hrx, Option.map_some, h1, h2, ofNat_succ_comm, List.drop_succ_cons,
            List.take_succ_cons]
          simp
        refine (ih { s with rx := l, resetIn := r, buf := some (b.set s.i.toNat v), i := s.i + 1 }
          (b.set s.i.toNat v) rfl (by simpa using hl) (by simp only [hk]; omega)
          (by rw [hrx] at hf; simpa using hf) hsz).mono (fun _ t h => ?_) (fun u h => ?_) (fun u h => ?_)
        · obtain ⟨h1, r', hr', rfl⟩ := h
          simp only [hk] at h1
          refine ⟨by simp only [List.length_cons]; omega, r', fun e => hr' (hr e), ?_⟩
          rw [key]
          simp only [hk]
          rw [show s.size.toNat - (s.i.toNat + 1) + 1 = s.size.toNat - s.i.toNat by omega]
        · obtain ⟨h1, r', hr', rfl⟩ := h
          simp only [hk] at h1
          refine ⟨by simp only [List.length_cons]; omega, r', fun e => hr' (hr e), ?_⟩
          rw [key]
          rfl
        · obtain ⟨h0, p, r', hp, hp2, rfl⟩ := h
          simp only [hk] at hp hp2
          exact ⟨fun e => h0 (hr e), p + 1, r', by simp only [List.length_cons]; omega, by omega, key p r'⟩

/-! ## SYNC, HDR and EXEC_ALLOC -/

/-- The SYNC step (R201). -/
theorem syncStep_meets (s : State) :
    (syncStep s).Meets
      (fun _ t => (s.acc = Config.magic ∧ t = { s with st := .hdr }) ∨
        (s.acc ≠ Config.magic ∧ ∃ b l r, s.rx = b :: l ∧ Later s r ∧
          t = { s with rx := l, acc := (s.acc <<< 8) ||| b.setWidth 32, resetIn := r }))
      (fun u => s.acc ≠ Config.magic ∧ s.rx = [] ∧ ∃ r, Later s r ∧
        u = { s with trace := s.trace ++ [.delay s.cfg.tPoll], resetIn := r })
      (fun u => s.resetIn ≠ none ∧ u = s) := by
  unfold syncStep
  by_cases h : s.acc = Config.magic
  · rw [if_pos h]; exact .inl ⟨h, rfl⟩
  · rw [if_neg h]
    by_cases hn : s.rx = []
    · rw [if_neg (by simp [rxAvail, hn])]
      exact (pollIdle_meets s).mono (fun _ _ h => h) (fun u hu => ⟨h, hn, hu⟩) fun _ hu => hu
    · obtain ⟨b, l, hrx⟩ := List.exists_cons_of_ne_nil hn
      rw [if_pos (by simp [rxAvail, hrx])]
      refine event_meets (fun r hr => ?_) fun h0 => ⟨h0, rfl⟩
      simp only [rxPop, hrx, Flow.bind_ok]
      exact .inr ⟨h, b, l, r, rfl, hr, rfl⟩

/-- The HDR step (R202): five bytes popped and decoded, or nothing popped. -/
theorem hdrStep_meets (s : State) :
    (hdrStep s).Meets
      (fun i t => ∃ b4 b5 b6 b7 b8 l r, s.rx = b4 :: b5 :: b6 :: b7 :: b8 :: l ∧ Later s r ∧
        i = decodeCommand b4 (joinBytes b5 b6) (joinBytes b7 b8) ∧ t = { s with rx := l, resetIn := r })
      (fun u => s.rx.length < 5 ∧ ∃ r, Later s r ∧
        u = { s with trace := s.trace ++ [.delay s.cfg.tPoll], resetIn := r })
      (fun u => s.resetIn ≠ none ∧ u = s) := by
  unfold hdrStep
  by_cases h : rxAvail s < Config.hdrBytes
  · rw [if_pos h]
    exact (pollIdle_meets s).mono (fun _ _ h => h) (fun u hu => ⟨h, hu⟩) fun _ hu => hu
  · rw [if_neg h]
    have h5 : 5 ≤ s.rx.length := Nat.le_of_not_lt h
    refine event_meets (fun r hr => ?_) fun h0 => ⟨h0, rfl⟩
    obtain ⟨b4, b5, b6, b7, b8, l, hrx⟩ : ∃ b4 b5 b6 b7 b8 l, s.rx = b4 :: b5 :: b6 :: b7 :: b8 :: l := by
      match hs : s.rx, h5 with
      | b4 :: b5 :: b6 :: b7 :: b8 :: l, _ => exact ⟨b4, b5, b6, b7, b8, l, rfl⟩
    simp only [popCommand, rxPop, hrx, Flow.bind_ok]
    exact ⟨b4, b5, b6, b7, b8, l, r, rfl, hr, rfl, rfl⟩

/-- The state after a successful allocation (R203). -/
def allocated (s : State) : State :=
  { s with buf := some (List.replicate s.size.toNat 0x00), rsize := clamp s.addr s.size }

theorem allocStep_ok (arm : State → Flow Unit) (s : State) (h : allocOk s = true) :
    allocStep arm s = arm (allocated s) := by
  simp [allocStep, allocate, h, allocated]

/-- An allocation failure (R204). -/
theorem allocStep_fail (arm : State → Flow Unit) (s : State) (h : allocOk s = false) :
    allocStep arm s = .ok () (enterSync s) := by
  simp [allocStep, allocate, h]

end Sys2Proof.Machine
end

