-- ==== Sys2Proof/Laws/Commands.lean ====
section
/-! SUPPORT. How the range operations and each command's arm run from their own sequencer state to the end of the
response, or to where they wait (R170, R171, R206 to R209). -/

namespace Sys2Proof.Machine

/-! ## What no part of a command undoes -/

/-- The parameters and the agenda stay, the memory keeps its one form, bytes leave `rx` only at its head and enter `tx`
only at its end. -/
structure Follows (s u : State) : Prop where
  cfg : u.cfg = s.cfg
  host : u.host = s.host
  mem : Memory.wf s.mem → Memory.wf u.mem
  rx : ∃ n, u.rx = s.rx.drop n
  tx : s.tx <+: u.tx

theorem Follows.refl (s : State) : Follows s s := ⟨rfl, rfl, id, ⟨0, rfl⟩, List.prefix_refl _⟩

theorem Follows.trans {s t u : State} (h : Follows s t) (h' : Follows t u) : Follows s u := by
  obtain ⟨n, hn⟩ := h.rx
  obtain ⟨m, hm⟩ := h'.rx
  exact ⟨h'.cfg.trans h.cfg, h'.host.trans h.host, fun w => h'.mem (h.mem w), ⟨n + m, by rw [hm, hn, List.drop_drop]⟩,
    h.tx.trans h'.tx⟩

theorem Keeps.follows {s u : State} (h : Keeps s u) : Follows s u :=
  ⟨h.cfg, h.host, fun w => h.mem ▸ w, ⟨0, h.rx⟩, h.tx ▸ List.prefix_refl _⟩

theorem Pushed.follows {s u : State} {more : List Byte} (h : Pushed s u more) : Follows s u := by
  obtain ⟨⟨pos, jj, r, -, rfl⟩, -, -, -⟩ := h
  exact ⟨rfl, rfl, id, ⟨0, rfl⟩, List.prefix_append _ _⟩

theorem collected_follows (p : Nat) (s : State) (r : Option Nat) : Follows s (collected p s r) :=
  ⟨rfl, rfl, id, ⟨p, rfl⟩, List.prefix_refl _⟩

theorem writeMany_follows (a : Half) (data : List Byte) (s : State) : Follows s (writeMany a data s) := by
  refine ⟨by rw [writeMany_eq], by rw [writeMany_eq], writeMany_wf a data s, ⟨0, by rw [writeMany_eq, List.drop_zero]⟩, ?_⟩
  rw [writeMany_eq]

theorem Writing.follows {s u : State} {a : DevAddr} {v : Byte} (h : Writing s a v u) : Follows s u := by
  refine ⟨h.cfg, h.host, fun w => ?_, ⟨0, h.rx⟩, h.tx ▸ List.prefix_refl _⟩
  rcases h.mem with h | h <;> rw [h]
  · exact w
  · exact memWrite_wf _ w _ (by have := a.isLt; rw [Config.cap_eq]; omega) _

theorem Interrupted.follows {a : Half} {data : List Byte} {s u : State} (h : Interrupted a data s u) :
    Follows s u := by
  obtain ⟨p, hp, h | h⟩ := h
  · exact (writeMany_follows a _ s).trans h.follows
  · exact (writeMany_follows a _ s).trans h.follows

theorem responded_follows (s : State) (r : Option Nat) : Follows s (responded s r) :=
  ⟨rfl, rfl, id, ⟨0, rfl⟩, List.prefix_append _ _⟩

/-- A platform reset leaves the parameters, the streams and the memory's one form (R280, R282). -/
theorem platformReset_follows (s : State) : Follows s (platformReset s) := by
  refine ⟨platformReset_cfg s, platformReset_host s, fun w => ?_, ⟨0, platformReset_rx s⟩,
    platformReset_tx s ▸ List.prefix_refl _⟩
  rw [platformReset_mem]
  unfold tearCell
  split
  · exact memWrite_wf _ w _ (by have := (srAddr s).isLt; rw [Config.cap_eq]; omega) _
  · exact w

/-! ## The range operations -/

/-- How many bytes read_range reads (R170). -/
def readCount (a n bufcap : Half) : Nat := min (min n.toNat bufcap.toNat) (Config.cap - a.toNat)

theorem readRange_runs (a n bufcap : Half) (s : State) (b : List Byte) (hs : Quiet s) (hb : s.buf = some b)
    (hcap : bufcap.toNat ≤ b.length) :
    Runs (readRange a n bufcap s) s (52 * readCount a n bufcap) (BitVec.ofNat 16 (readCount a n bufcap))
      (readMany (readCount a n bufcap) a { s with k := 0 }) (fun _ u => Keeps s u) := by
  have hn := n.isLt
  have h0 : (0 : Half).toNat = 0 := rfl
  have hloop := readLoop_runs n.toNat (readCount a n bufcap) a n bufcap { s with k := 0 } b hs hb hcap
    (by unfold readCount; omega) (by simp only [h0]; unfold readCount; omega)
    (by simp only [h0]; unfold readCount; omega)
  have hk : (readMany (readCount a n bufcap) a { s with k := 0 }).k = BitVec.ofNat 16 (readCount a n bufcap) := by
    apply BitVec.eq_of_toNat_eq
    rw [readMany_k _ _ _ (by simp only [h0]; unfold readCount; omega)]
    simp only [h0, BitVec.toNat_ofNat]
    unfold readCount; omega
  unfold readRange
  rw [if_neg (by simp [bufValid, hb])]
  have := hloop.map (f := fun _ s => Flow.ok s.k s) (v' := BitVec.ofNat 16 (readCount a n bufcap))
    (t' := readMany (readCount a n bufcap) a { s with k := 0 }) (fun r => by rw [← hk])
  exact ⟨this.done, fun m hm hk => let ⟨u, hu, h⟩ := this.cut m hm hk
    ⟨u, hu, h.1, h.2, h.3, h.4, h.5, h.6, h.7, h.8, h.9, h.10⟩⟩

theorem Interrupted.set_k {a : Half} {data : List Byte} {s u : State} (h : Interrupted a data { s with k := 0 } u) :
    Follows s u := by
  have := h.follows
  exact ⟨this.1, this.2, this.3, this.4, this.5⟩

theorem writeRange_runs (a : Half) (data : List Byte) (s : State) (hs : Quiet s) (hl : data.length ≤ 65535) :
    Runs (writeRange a data s) s (56 * fits a.toNat data.length) ()
      (writeMany a (data.take (fits a.toNat data.length)) { s with k := 0 }) (fun _ u => Follows s u) := by
  have h0 : (0 : Half).toNat = 0 := rfl
  have := writeLoop_runs a data { s with k := 0 } hs (by simp only [h0]; omega)
  simp only [h0, Nat.add_zero] at this
  exact ⟨this.done, fun m hm hk => let ⟨u, hu, h⟩ := this.cut m hm hk; ⟨u, hu, h.set_k⟩⟩

/-! ## READ, WRITE and INVALID from their own states -/

/-- After EXEC_READ (R206). -/
def readDone (s : State) : State := enterResp (readMany s.rsize.toNat s.addr { s with k := 0 })

theorem execReadStep_runs (s : State) (b : List Byte) (hs : Quiet s) (hb : s.buf = some b)
    (hl : b.length = s.size.toNat) (hr : s.rsize = clamp s.addr s.size) :
    Runs (execReadStep s) s (52 * s.rsize.toNat) () (readDone s) (fun _ u => Keeps s u) := by
  have hc : readCount s.addr s.rsize s.size = s.rsize.toNat := by
    rw [readCount, hr, clamp_toNat]; unfold fits; omega
  have h := readRange_runs s.addr s.rsize s.size s b hs hb (by omega)
  rw [hc] at h
  exact h.map fun r => rfl

/-- After EXEC_WCOMMIT (R207). -/
def writeDone (s : State) : State :=
  enterResp (writeMany s.addr ((bufBytes s).take s.rsize.toNat) { s with k := 0 })

theorem execWcommitStep_runs (s : State) (b : List Byte) (hs : Quiet s) (hb : s.buf = some b)
    (hl : b.length = s.size.toNat) (hr : s.rsize = clamp s.addr s.size) :
    Runs (execWcommitStep s) s (56 * s.rsize.toNat) () (writeDone s) (fun _ u => Follows s u) := by
  have hbb : bufBytes s = b := by simp [bufBytes, hb]
  have hfit : s.rsize.toNat = fits s.addr.toNat s.size.toNat := by rw [hr, clamp_toNat]
  have hle : s.rsize.toNat ≤ b.length := by rw [hfit, hl]; unfold fits; omega
  have hsz := s.size.isLt
  have hlen : (b.take s.rsize.toNat).length = s.rsize.toNat := by rw [List.length_take]; omega
  have hfit2 : fits s.addr.toNat s.rsize.toNat = s.rsize.toNat := by rw [hfit]; unfold fits; omega
  unfold execWcommitStep bufSlice
  rw [hbb, if_pos hle, Flow.bind_ok]
  have h := writeRange_runs s.addr (b.take s.rsize.toNat) s hs (by omega)
  rw [hlen, hfit2, List.take_take, Nat.min_self] at h
  exact h.map fun r => by
    rw [writeDone, hbb]; rfl

/-- After EXEC_INVALID (R208). -/
def invalidDone (s : State) : State := enterResp { s with ract := Config.invalidAct }

/-- What a command meets once its own work is done in `d`: the whole response, a held push, or a reset. -/
theorem respond_meets (s d : State) (h : RespReady d) (h9 : d.respPos = 0) (hd : d.resetIn = s.resetIn)
    (hroom : d.txRoom = s.txRoom) (r : Option Nat) (hr : Later s r) (hf : Follows s d) :
    (respStep { d with resetIn := r }).Meets
      (fun _ t => accepts s (9 + d.rsize.toNat) = true ∧ ∃ r, Later s r ∧ t = responded d r)
      (fun u => ∃ more, Pushed d u more ∧ more.length < 9 + d.rsize.toNat ∧ accepts s (more.length + 1) = false)
      (fun u => s.resetIn ≠ none ∧ Follows s u) := by
  have hj : d.j = 0 := h.fresh (by omega)
  have hlen : (remaining d).length = 9 + d.rsize.toNat := by
    rw [remaining_length d h, h9, hj]; rfl
  have hpush : ∀ u more, Pushed { d with resetIn := r } u more → Pushed d u more := by
    rintro u more ⟨⟨pos, jj, r', hl, rfl⟩, h2, h3, h4⟩
    exact ⟨⟨pos, jj, r', fun e => hl (hr (hd ▸ e)), rfl⟩, h2, h3, h4⟩
  have hacc : ∀ n, accepts d n = accepts s n := fun n => by unfold accepts; rw [hroom]
  refine (respStep_meets { d with resetIn := r } ⟨h.1, h.2, h.3, h.4⟩).mono ?_ ?_ ?_
  · rintro _ t ⟨ha, r', hl, rfl⟩
    refine ⟨?_, r', fun e => hl (hr e), rfl⟩
    rw [← hacc, ← hlen]; exact ha
  · rintro u ⟨more, hp, hlt, ha⟩
    refine ⟨more, hpush u more hp, ?_, ?_⟩
    · rw [← hlen]; exact hlt
    · rw [← hacc]; exact ha
  · rintro u ⟨h0, more, hp⟩
    exact ⟨fun e => h0 (hr e), hf.trans (hpush u more hp).follows⟩

/-- The ends of a command whose own work leaves `d`. -/
def Flow.Responds (m : Flow Unit) (s d : State) : Prop :=
  m.Meets (fun _ t => accepts s (9 + d.rsize.toNat) = true ∧ ∃ r, Later s r ∧ t = responded d r)
    (fun u => ∃ more, Pushed d u more ∧ more.length < 9 + d.rsize.toNat ∧ accepts s (more.length + 1) = false)
    (fun u => s.resetIn ≠ none ∧ Follows s u)

/-- A procedure that runs, then the response. -/
theorem Runs.responds {m : Flow Unit} {s d : State} {k : Nat} {R : Nat → State → Prop} (h : Runs m s k () d R)
    (hd : d.resetIn = s.resetIn) (hroom : d.txRoom = s.txRoom) (hready : RespReady d) (h9 : d.respPos = 0)
    (hf : Follows s d) (hR : ∀ n u, R n u → Follows s u) : (m.bind fun _ s => respStep s).Responds s d := by
  by_cases ha : Allows s.resetIn k
  · rw [h.done ha, Flow.bind_ok]
    exact respond_meets s d hready h9 hd hroom (spend s.resetIn k) (fun e => by rw [e]; rfl) hf
  · unfold Allows at ha
    push Not at ha
    obtain ⟨n, hn, hk⟩ := ha
    obtain ⟨u, hu, hr⟩ := h.cut n hn hk
    rw [hu]
    exact ⟨by simp [hn], hR n u hr⟩

theorem readDone_eq (s : State) : ∃ d q sr sq sl b tr kk,
    readDone s = { s with dDir := d, srData := q, srShift := sr, srQ := sq, srLatched := sl, buf := b, trace := tr,
                          k := kk, st := .resp, j := 0, respPos := 0 } := by
  simp only [readDone, enterResp]
  rw [readMany_eq]
  exact ⟨_, _, _, _, _, _, _, _, rfl⟩

theorem readDone_resetIn (s : State) : (readDone s).resetIn = s.resetIn := by
  obtain ⟨_, _, _, _, _, _, _, _, he⟩ := readDone_eq s; rw [he]

theorem readDone_ready (s : State) (b : List Byte) (hb : s.buf = some b) (hl : b.length = s.size.toNat)
    (hr : s.rsize = clamp s.addr s.size) : RespReady (readDone s) := by
  have hfit : s.rsize.toNat = fits s.addr.toNat s.size.toNat := by rw [hr, clamp_toNat]
  have hsz := s.size.isLt
  have h0 : (0 : Half).toNat = 0 := rfl
  have hbuf := readMany_buf s.rsize.toNat s.addr { s with k := 0 } b hb (by simp only [h0]; unfold fits at hfit; omega)
    (by omega) (by simp only [h0]; unfold fits at hfit; omega)
  have hrs : (readDone s).rsize = s.rsize := by obtain ⟨_, _, _, _, _, _, _, _, he⟩ := readDone_eq s; rw [he]
  refine ⟨?_, Nat.zero_le _, Nat.zero_le _, fun _ => rfl⟩
  rw [hrs]
  show _ ≤ ((readMany s.rsize.toNat s.addr { s with k := 0 }).buf.getD []).length
  rw [hbuf]
  simp only [h0, Option.getD_some, List.length_append, deviceBytes_length, List.length_take, List.length_drop]
  unfold fits at hfit; omega

/-- READ from EXEC_READ on (R206, R209). -/
theorem runRead_meets (s : State) (b : List Byte) (hs : Quiet s) (hb : s.buf = some b)
    (hl : b.length = s.size.toNat) (hr : s.rsize = clamp s.addr s.size) : (runRead s).Responds s (readDone s) := by
  obtain ⟨_, _, _, _, _, _, _, _, he⟩ := readDone_eq s
  exact (execReadStep_runs s b hs hb hl hr).responds (readDone_resetIn s) (by rw [he]) (readDone_ready s b hb hl hr) rfl
    ⟨by rw [he], by rw [he], fun w => by rw [he]; exact w, ⟨0, by rw [he, List.drop_zero]⟩, by rw [he]⟩
    fun _ _ h => h.follows

theorem writeDone_eq (s : State) : ∃ d q sr sq sl o m tr kk,
    writeDone s = { s with dDir := d, srData := q, srShift := sr, srQ := sq, srLatched := sl, dOut := o, mem := m,
                           trace := tr, k := kk, st := .resp, j := 0, respPos := 0 } := by
  simp only [writeDone, enterResp]
  rw [writeMany_eq]
  exact ⟨_, _, _, _, _, _, _, _, _, rfl⟩

theorem writeDone_ready (s : State) (b : List Byte) (hb : s.buf = some b) (hl : b.length = s.size.toNat)
    (hr : s.rsize = clamp s.addr s.size) : RespReady (writeDone s) := by
  have hfit : s.rsize.toNat = fits s.addr.toNat s.size.toNat := by rw [hr, clamp_toNat]
  obtain ⟨_, _, _, _, _, _, _, _, _, he⟩ := writeDone_eq s
  rw [he]
  refine ⟨?_, Nat.zero_le _, Nat.zero_le _, fun _ => rfl⟩
  show s.rsize.toNat ≤ (s.buf.getD []).length
  rw [hb, Option.getD_some, hl, hfit]
  unfold fits; omega

/-- WRITE from EXEC_WCOMMIT on (R207, R209). -/
theorem runCommit_meets (s : State) (b : List Byte) (hs : Quiet s) (hb : s.buf = some b)
    (hl : b.length = s.size.toNat) (hr : s.rsize = clamp s.addr s.size) :
    (runCommit s).Responds s (writeDone s) := by
  obtain ⟨_, _, _, _, _, _, _, _, _, he⟩ := writeDone_eq s
  refine (execWcommitStep_runs s b hs hb hl hr).responds (by rw [he]) (by rw [he]) (writeDone_ready s b hb hl hr) rfl ?_
    fun _ _ h => h
  have hw := writeMany_wf s.addr ((bufBytes s).take s.rsize.toNat) { s with k := 0 }
  refine ⟨by rw [he], by rw [he], hw, ⟨0, by rw [he, List.drop_zero]⟩, by rw [he]⟩

/-- INVALID from EXEC_INVALID on (R208, R209). -/
theorem runInvalid_meets (s : State) (b : List Byte) (hb : s.buf = some b) (hl : b.length = s.size.toNat)
    (hr : s.rsize = clamp s.addr s.size) : (runInvalid s).Responds s (invalidDone s) := by
  have hfit : s.rsize.toNat = fits s.addr.toNat s.size.toNat := by rw [hr, clamp_toNat]
  have hrun : Runs (.ok () (invalidDone s)) s 0 () (invalidDone s) fun _ _ => False :=
    ⟨fun _ => by simp [invalidDone, enterResp], fun n _ h => absurd h (Nat.not_lt_zero n)⟩
  refine hrun.responds rfl rfl ?_ rfl ⟨rfl, rfl, id, ⟨0, rfl⟩, List.prefix_refl _⟩ fun _ _ h => h.elim
  refine ⟨?_, Nat.zero_le _, Nat.zero_le _, fun _ => rfl⟩
  show s.rsize.toNat ≤ (s.buf.getD []).length
  rw [hb, Option.getD_some, hl, hfit]
  unfold fits; omega

/-- EXEC_WCOMMIT entered with the whole payload. -/
def filled (s : State) : State :=
  { collected (s.size.toNat - s.i.toNat) s s.resetIn with st := .execWcommit }

theorem writeDone_set_resetIn (s : State) (r : Option Nat) :
    writeDone { s with resetIn := r } = { writeDone s with resetIn := r } :=
  congrArg enterResp (writeMany_resetIn s.addr ((bufBytes s).take s.rsize.toNat) { s with k := 0 } r)

theorem writeDone_resetIn (s : State) : (writeDone s).resetIn = s.resetIn := by
  obtain ⟨_, _, _, _, _, _, _, _, _, he⟩ := writeDone_eq s; rw [he]

/-- The countdown of the state a command's work leaves is of no account. -/
theorem Flow.Responds.retarget {m : Flow Unit} {s s' d : State} {q : Option Nat}
    (h : m.Responds s' { d with resetIn := q }) (hq : d.resetIn = none → q = none)
    (hl : s.resetIn = none → s'.resetIn = none) (hroom : s'.txRoom = s.txRoom) (hf : Follows s s') :
    m.Responds s d := by
  have hacc : ∀ n, accepts s' n = accepts s n := fun n => by unfold accepts; rw [hroom]
  refine h.mono ?_ ?_ ?_
  · rintro _ t ⟨ha, r, hr, rfl⟩
    exact ⟨by rw [← hacc]; exact ha, r, fun e => hr (hl e), rfl⟩
  · rintro u ⟨more, ⟨⟨pos, jj, r, hr, rfl⟩, h2, h3, h4⟩, hm, ha⟩
    exact ⟨more, ⟨⟨pos, jj, r, fun e => hr (hq e), rfl⟩, h2, h3, h4⟩, hm, by rw [← hacc]; exact ha⟩
  · rintro u ⟨h0, hu⟩
    exact ⟨fun e => h0 (hl e), hf.trans hu⟩

/-- WRITE from EXEC_WRX on (R207, R209): the payload is complete and committed, or waited for. -/
theorem runWrite_meets (s : State) (b : List Byte) (hs : Quiet s) (hb : s.buf = some b)
    (hl : b.length = s.size.toNat) (hr : s.rsize = clamp s.addr s.size) (hi : s.i.toNat ≤ s.size.toNat) :
    (s.size.toNat - s.i.toNat ≤ s.rx.length ∧ (runWrite s).Responds s (writeDone (filled s))) ∨
      (s.rx.length < s.size.toNat - s.i.toNat ∧
        (runWrite s).Meets (fun _ _ => False)
          (fun u => ∃ r, Later s r ∧ u = { collected s.rx.length s r with trace := s.trace ++ [.delay s.cfg.tPoll] })
          (fun u => s.resetIn ≠ none ∧ Follows s u)) := by
  have hc := collect_meets s.rx.length s b hb hl hi (Nat.le_refl _)
  by_cases hlt : s.size.toNat - s.i.toNat ≤ s.rx.length
  · refine .inl ⟨hlt, ?_⟩
    unfold runWrite execWrxStep Flow.Responds
    refine (hc.mono (fun _ t h => h.2) (fun u h => ?_) (fun u h => ?_)).bind ?_
    · omega
    · obtain ⟨h0, p, r, -, -, rfl⟩ := h
      exact ⟨h0, collected_follows p s r⟩
    · rintro _ t ⟨r, hlr, rfl⟩
      have h := runCommit_meets { filled s with resetIn := r }
        (b.take s.i.toNat ++ s.rx.take (s.size.toNat - s.i.toNat) ++ b.drop (s.i.toNat + (s.size.toNat - s.i.toNat)))
        hs (by simp [filled, collected, hb]) (by
          simp only [List.length_append, List.length_take, List.length_drop]
          show _ = s.size.toNat
          omega) hr
      rw [writeDone_set_resetIn] at h
      exact h.retarget (fun e => hlr (by rw [writeDone_resetIn] at e; exact e)) (fun e => hlr e) rfl
        ⟨rfl, rfl, id, ⟨_, rfl⟩, List.prefix_refl _⟩
  · refine .inr ⟨by omega, ?_⟩
    unfold runWrite execWrxStep
    refine (hc.mono (fun _ t h => h.1) (fun u h => h.2) (fun u h => ?_)).bind ?_
    · obtain ⟨h0, p, r, -, -, rfl⟩ := h
      exact ⟨h0, collected_follows p s r⟩
    · intro _ t h; omega

end Sys2Proof.Machine
end

