-- ==== Sys2Proof/Laws/Ready.lean ====
section
/-! SUPPORT. The procedures from a machine that is `Ready`, as equations: no reset is due, so each completes. -/

namespace Sys2Proof.Machine

/-- The state read_byte leaves (R140). -/
def afterRead (a : Half) (s : State) : State :=
  { s with dDir := .input, srData := a.getLsbD 0, srShift := encodeWord a true, srQ := encodeWord a true,
           srLatched := true, trace := s.trace ++ readEvents a }

/-- The state write_byte leaves (R141). -/
def afterWrite (a : Half) (v : Byte) (s : State) : State :=
  { s with dDir := .output, srData := a.getLsbD 0, srShift := encodeWord a false, srQ := encodeWord a false,
           srLatched := true, dOut := v, mem := memWrite s.mem (a.toNat % 2048) v,
           trace := s.trace ++ writeByteEvents s.cfg (turnMark s) a v }

theorem set_resetIn_self {s : State} (h : s.resetIn = none) : { s with resetIn := none } = s := by rw [← h]

theorem Ready.afterRead {s : State} (h : Ready s) (a : Half) : Ready (afterRead a s) := h

theorem Ready.afterWrite {s : State} (h : Ready s) (a : Half) (v : Byte) : Ready (afterWrite a v s) := h

theorem readByte_ok (a : Half) {s : State} (h : Ready s) :
    readByte a s = .ok (memRead s.mem (a.toNat % 2048)) (afterRead a s) :=
  ((readByte_runs a s h.1).eq_ok h.2).trans (congrArg _ (set_resetIn_self (s := afterRead a s) h.2))

theorem writeByte_ok (a : Half) (v : Byte) {s : State} (h : Ready s) :
    writeByte a v s = .ok () (afterWrite a v s) :=
  ((writeByte_runs a v s h.1).eq_ok h.2).trans (congrArg _ (set_resetIn_self (s := afterWrite a v s) h.2))

theorem readRange_ok (a n bufcap : Half) {s : State} (b : List Byte) (h : Ready s) (hb : s.buf = some b)
    (hcap : bufcap.toNat ≤ b.length) :
    readRange a n bufcap s =
      .ok (BitVec.ofNat 16 (readCount a n bufcap)) (readMany (readCount a n bufcap) a { s with k := 0 }) := by
  refine ((readRange_runs a n bufcap s b h.1 hb hcap).eq_ok h.2).trans (congrArg _ (set_resetIn_self ?_))
  rw [readMany_eq]; exact h.2

theorem writeRange_ok (a : Half) (data : List Byte) {s : State} (h : Ready s) (hl : data.length ≤ 65535) :
    writeRange a data s =
      .ok () (writeMany a (data.take (fits a.toNat data.length)) { s with k := 0 }) := by
  refine ((writeRange_runs a data s h.1 hl).eq_ok h.2).trans (congrArg _ (set_resetIn_self ?_))
  rw [writeMany_eq]; exact h.2

/-- The pin events of the rounds of read_range (R175). -/
theorem readMany_trace (c : Nat) (a : Half) (s : State) (h : s.k.toNat + c ≤ 65535) :
    (readMany c a s).trace = s.trace ++ (List.range c).flatMap fun t => readEvents (a + s.k + BitVec.ofNat 16 t) := by
  induction c generalizing s with
  | zero => simp [readMany]
  | succ c ih =>
    have hk : (s.k + 1).toNat = s.k.toNat + 1 := succ_toNat _ (by omega)
    show (readMany c a (readOne a s)).trace = _
    rw [ih _ (by simp only [readOne, hk]; omega)]
    have hc : cellAddr a s.k = a + s.k := by
      apply BitVec.eq_of_toNat_eq; simp [cellAddr, BitVec.toNat_add]
    simp only [readOne, hc, List.range_succ_eq_map, List.flatMap_cons, List.flatMap_map, List.append_assoc]
    have : ∀ t : Nat, a + s.k + BitVec.ofNat 16 (t + 1) = a + (s.k + 1) + BitVec.ofNat 16 t := fun t => by
      rw [show BitVec.ofNat 16 (t + 1) = 1 + BitVec.ofNat 16 t by
        apply BitVec.eq_of_toNat_eq; simp [BitVec.toNat_add, Nat.add_comm]]
      ac_rfl
    simp [this]

/-- The pin events of the rounds of write_range (R175). -/
theorem writeMany_trace (a : Half) (data : List Byte) (s : State) (h : s.k.toNat + data.length ≤ 65535) :
    (writeMany a data s).trace = s.trace ++ writeRangeEvents s.cfg (turnMark s) (a + s.k) data := by
  induction data generalizing s with
  | nil => simp [writeMany, writeRangeEvents]
  | cons v r ih =>
    simp only [List.length_cons] at h
    have hk : (s.k + 1).toNat = s.k.toNat + 1 := succ_toNat _ (by omega)
    have hc : cellAddr a s.k = a + s.k := by
      apply BitVec.eq_of_toNat_eq; simp [cellAddr, BitVec.toNat_add]
    show (writeMany a r (writeOne a v s)).trace = _
    rw [ih _ (by simp only [writeOne, hk]; omega)]
    have ht : turnMark (writeOne a v s) = [] := rfl
    rw [ht]
    simp only [writeOne, hc, writeRangeEvents, List.append_assoc, BitVec.add_assoc]

/-- One step of a run. -/
theorem run_succ (k : Nat) (s t : State) (h : step s = .next t) : core.run (k + 1) s = core.run k t := by
  have gen : ∀ (M : Host.Core) (s t : M.State), M.step s = .next t → M.run (k + 1) s = M.run k t := by
    intro M s t h
    simp [Host.Core.run, h]
  exact gen core s t h

end Sys2Proof.Machine
end

