-- ==== Sys2Proof/Laws/Exec.lean ====
section
/-! SUPPORT. What `exec` of each command comes to: the abort, or its arm from the allocated state; and how an arm that
`Responds` ends when no reset is due. -/

namespace Sys2Proof.Machine

/-- The state in which EXEC_ALLOC dispatches (R203). -/
def entered (act : Byte) (addr size : Half) (s : State) : State := allocated (latchCommand act addr size s)

theorem allocOk_iff (act : Byte) (addr size : Half) (s : State) :
    allocOk (latchCommand act addr size s) = true ↔ canAllocate s size := by
  rw [allocOk, Bool.or_eq_true, beq_iff_eq, decide_eq_true_iff]
  rfl

/-- EXEC_ALLOC leaves the command its buffer (R203). -/
theorem hasBuffer_entered (act : Byte) (addr size : Half) (s : State) (h : canAllocate s size) :
    HasBuffer (entered act addr size s) :=
  ⟨List.replicate size.toNat 0, rfl, List.length_replicate, (allocOk_iff act addr size s).mpr h, rfl⟩

theorem exec_read (addr size : Half) (s : State) (h : canAllocate s size) :
    exec (.read addr size) s = (runRead (dispatchRead (entered 0x00 addr size s))).outcome := by
  show (allocStep _ _).outcome = _
  rw [allocStep_ok _ _ ((allocOk_iff _ _ _ _).mpr h)]
  rfl

theorem exec_write (addr size : Half) (s : State) (h : canAllocate s size) :
    exec (.write addr size) s = (runWrite (dispatchWrite (entered 0x01 addr size s))).outcome := by
  show (allocStep _ _).outcome = _
  rw [allocStep_ok _ _ ((allocOk_iff _ _ _ _).mpr h)]
  rfl

theorem exec_invalidRows (act : Byte) (addr size : Half) (s : State) (i : Instr)
    (hi : i ∈ invalidRows act addr size) : exec i s = invalidCommand act addr size s := by
  simp only [invalidRows, List.mem_cons, List.not_mem_nil, or_false] at hi
  rcases hi with rfl | rfl | rfl | rfl | rfl | rfl | rfl <;> rfl

theorem exec_invalid (act : Byte) (addr size : Half) (s : State) (i : Instr) (hi : i ∈ invalidRows act addr size)
    (h : canAllocate s size) : exec i s = (runInvalid (dispatchInvalid (entered act addr size s))).outcome := by
  rw [exec_invalidRows act addr size s i hi]
  show (allocStep _ _).outcome = _
  rw [allocStep_ok _ _ ((allocOk_iff _ _ _ _).mpr h)]
  rfl

/-- Every instruction is READ, WRITE or an INVALID row. -/
theorem instr_cases (i : Instr) :
    (i = .read i.address i.count) ∨ (i = .write i.address i.count) ∨ i ∈ invalidRows i.action i.address i.count := by
  cases i <;> simp [Instr.action, Instr.address, Instr.count, invalidRows]

/-- The abort of R204. -/
theorem exec_abort (i : Instr) (s : State) (h : ¬ canAllocate s i.count) :
    exec i s = .next { s with st := .sync, acc := 0, buf := none, action := i.action, addr := i.address,
                              size := i.count } := by
  have key : ∀ arm, allocStep arm (latchCommand i.action i.address i.count s) =
      .ok () (enterSync (latchCommand i.action i.address i.count s)) := fun arm => by
    apply allocStep_fail
    rw [← Bool.not_eq_true, allocOk_iff]
    exact h
  rcases instr_cases i with hi | hi | hi
  · rw [hi]; rw [hi] at key; show (allocStep _ _).outcome = _; erw [key]; rfl
  · rw [hi]; rw [hi] at key; show (allocStep _ _).outcome = _; erw [key]; rfl
  · rw [exec_invalidRows _ _ _ s i hi]; show (allocStep _ _).outcome = _; rw [key]; rfl

theorem accepts_mono (s : State) {m n : Nat} (h : accepts s n = true) (hm : m ≤ n) : accepts s m = true := by
  unfold accepts at *
  split at h
  · rfl
  · simp at *; omega

/-- With no reset due an arm completes its response or holds it. -/
theorem Flow.Responds.ends {m : Flow Unit} {s d : State} (h : m.Responds s d) (hr : s.resetIn = none) :
    (accepts s (9 + d.rsize.toNat) = true ∧ m.outcome = .next (responded d none)) ∨
      ∃ u more, m.outcome = .next u ∧ Pushed d u more ∧ more.length < 9 + d.rsize.toNat ∧
        accepts s (more.length + 1) = false := by
  unfold Flow.Responds at h
  match m, h with
  | .ok v t, h =>
    obtain ⟨ha, r, hl, rfl⟩ := h
    exact .inl ⟨ha, by rw [hl hr]; rfl⟩
  | .wait u, h =>
    obtain ⟨more, h1, h2, h3⟩ := h
    exact .inr ⟨u, more, rfl, h1, h2, h3⟩
  | .reset u, h => exact absurd hr h.1
  | .fault _, h => exact h.elim

/-- With no reset due and room for the response, an arm completes it. -/
theorem Flow.Responds.done {m : Flow Unit} {s d : State} (h : m.Responds s d) (hr : s.resetIn = none)
    (ha : accepts s (9 + d.rsize.toNat) = true) : m.outcome = .next (responded d none) := by
  rcases h.ends hr with h | ⟨u, more, _, _, hl, hf⟩
  · exact h.2
  · rw [accepts_mono s ha (by omega)] at hf; cases hf

/-- READ's arm from its allocated state (R206). -/
theorem entered_read (addr size : Half) (s : State) (hq : Quiet s) :
    (runRead (dispatchRead (entered 0x00 addr size s))).Responds s
      (readDone (dispatchRead (entered 0x00 addr size s))) :=
  (runRead_meets (dispatchRead (entered 0x00 addr size s)) _ hq rfl
    (by simp [dispatchRead, entered, allocated, latchCommand]) rfl).mono
    (fun _ _ h => h) (fun _ h => h) fun _ h => ⟨h.1, h.2.1, h.2.2, h.2.3, h.2.4, h.2.5⟩

/-- INVALID's arm from its allocated state (R208). -/
theorem entered_invalid (act : Byte) (addr size : Half) (s : State) :
    (runInvalid (dispatchInvalid (entered act addr size s))).Responds s
      (invalidDone (dispatchInvalid (entered act addr size s))) :=
  (runInvalid_meets (dispatchInvalid (entered act addr size s)) _ rfl
    (by simp [dispatchInvalid, entered, allocated, latchCommand]) rfl).mono
    (fun _ _ h => h) (fun _ h => h) fun _ h => ⟨h.1, h.2.1, h.2.2, h.2.3, h.2.4, h.2.5⟩

/-- WRITE's arm from its allocated state (R207). -/
theorem entered_write (addr size : Half) (s : State) (hq : Quiet s) :
    (size.toNat ≤ s.rx.length ∧
        (runWrite (dispatchWrite (entered 0x01 addr size s))).Responds s
          (writeDone (filled (dispatchWrite (entered 0x01 addr size s))))) ∨
      (s.rx.length < size.toNat ∧
        (runWrite (dispatchWrite (entered 0x01 addr size s))).Meets (fun _ _ => False)
          (fun u => ∃ r, Later s r ∧ u =
            { collected s.rx.length (dispatchWrite (entered 0x01 addr size s)) r with
              trace := s.trace ++ [.delay s.cfg.tPoll] })
          (fun u => s.resetIn ≠ none ∧ Follows s u)) := by
  have hf : ∀ u, Follows (dispatchWrite (entered 0x01 addr size s)) u → Follows s u := fun u h =>
    ⟨h.1, h.2, h.3, h.4, h.5⟩
  rcases runWrite_meets (dispatchWrite (entered 0x01 addr size s)) _ hq rfl
    (by simp [dispatchWrite, entered, allocated, latchCommand]) rfl (Nat.zero_le _) with ⟨h1, h2⟩ | ⟨h1, h2⟩
  · exact .inl ⟨h1, h2.mono (fun _ _ h => h) (fun _ h => h) fun _ h => ⟨h.1, hf _ h.2⟩⟩
  · exact .inr ⟨h1, h2.mono (fun _ _ h => h) (fun _ h => h) fun _ h => ⟨h.1, hf _ h.2⟩⟩

end Sys2Proof.Machine
end

