-- ==== Sys2Proof/Laws/PerInstr.lean ====
section
/-! SUPPORT. The per-instruction family `FrameShape`: the shape of each instruction's request frame (R90). -/

namespace Sys2Proof.Laws.FrameShape

/-- The frame has nine fixed bytes, the magic first, then the action, the address and the size, big-endian (R90). -/
def Statement (i : Instr) : Prop :=
  (encode i).length = 9 ∧ (encode i).take 4 = Config.magicBytes ∧ (encode i)[4]? = some i.action ∧
    (encode i)[5]? = some (hiByte i.address) ∧ (encode i)[6]? = some (loByte i.address) ∧
    (encode i)[7]? = some (hiByte i.count) ∧ (encode i)[8]? = some (loByte i.count)

theorem read (addr size : Half) : Statement (.read addr size) := ⟨rfl, rfl, rfl, rfl, rfl, rfl, rfl⟩
theorem write (addr size : Half) : Statement (.write addr size) := ⟨rfl, rfl, rfl, rfl, rfl, rfl, rfl⟩
theorem invalid02 (act : Byte) (addr size : Half) : Statement (.invalid02 act addr size) :=
  ⟨rfl, rfl, rfl, rfl, rfl, rfl, rfl⟩
theorem invalid04 (act : Byte) (addr size : Half) : Statement (.invalid04 act addr size) :=
  ⟨rfl, rfl, rfl, rfl, rfl, rfl, rfl⟩
theorem invalid08 (act : Byte) (addr size : Half) : Statement (.invalid08 act addr size) :=
  ⟨rfl, rfl, rfl, rfl, rfl, rfl, rfl⟩
theorem invalid10 (act : Byte) (addr size : Half) : Statement (.invalid10 act addr size) :=
  ⟨rfl, rfl, rfl, rfl, rfl, rfl, rfl⟩
theorem invalid20 (act : Byte) (addr size : Half) : Statement (.invalid20 act addr size) :=
  ⟨rfl, rfl, rfl, rfl, rfl, rfl, rfl⟩
theorem invalid40 (act : Byte) (addr size : Half) : Statement (.invalid40 act addr size) :=
  ⟨rfl, rfl, rfl, rfl, rfl, rfl, rfl⟩
theorem invalid80 (act : Byte) (addr size : Half) : Statement (.invalid80 act addr size) :=
  ⟨rfl, rfl, rfl, rfl, rfl, rfl, rfl⟩

end Sys2Proof.Laws.FrameShape
end

