-- ==== Sys2Proof/Laws/Reset.lean ====
section
/-! SUPPORT. The platform reset: what it forgets, and where a reset due at once falls in the procedures of a command
(R280, R282). -/

namespace Sys2Proof.Machine

/-- A platform reset depends on none of the sequencer's registers, nor on the countdown (R280). -/
theorem platformReset_congr {s t : State}
    (h : t = { s with st := t.st, acc := t.acc, action := t.action, addr := t.addr, size := t.size, ract := t.ract,
                      rsize := t.rsize, i := t.i, j := t.j, k := t.k, buf := t.buf, srShift := t.srShift,
                      respPos := t.respPos, resetIn := t.resetIn }) : platformReset t = platformReset s := by
  rw [h]
  unfold platformReset tearCell
  by_cases hc : s.weN = false ∨ s.wcBusy = true
  · rw [if_pos hc, if_pos (by exact hc)]; rfl
  · rw [if_neg hc, if_neg (by exact hc)]

/-- A reset due at once falls before the first event. -/
theorem tick_due {s : State} (hr : s.resetIn = some 0) : tick s = .reset s := by rw [tick, hr]

/-- A reset due at once falls before the response's next byte (R212, R282). -/
theorem respStep_due {s : State} (h : RespReady s) (hr : s.resetIn = some 0) (hp : s.respPos < 9 ∨ s.j ≠ s.rsize) :
    respStep s = .reset s := by
  unfold respStep
  by_cases h9 : s.respPos < 9
  · obtain ⟨b, l, hl⟩ := List.exists_cons_of_ne_nil (l := (respHeader s).drop s.respPos) (by
      rw [Ne, List.drop_eq_nil_iff, respHeader_length]; omega)
    rw [hl, pushHeader, txPush, tick_due hr]; rfl
  · have hj : s.j.toNat ≠ s.rsize.toNat := fun e => (hp.resolve_left h9) (BitVec.eq_of_toNat_eq e)
    have := h.j
    have := h.len
    rw [List.drop_eq_nil_of_le (by rw [respHeader_length]; omega), pushHeader, Flow.bind_ok,
      show s.rsize.toNat - s.j.toNat = (s.rsize.toNat - s.j.toNat - 1) + 1 by omega, pushPayload, bufRead,
      List.getElem?_eq_getElem (by omega), Flow.bind_ok, txPush, tick_due hr]
    rfl

/-- The same from the response's entry, where no byte has been pushed. -/
theorem enterResp_due {s : State} (hr : s.resetIn = some 0) : respStep (enterResp s) = .reset (enterResp s) := by
  unfold respStep
  show (pushHeader (_ :: _) _).bind _ = _
  rw [pushHeader, txPush, tick_due (by exact hr)]; rfl

/-- `m` falls to a reset in a state the reset makes what it makes of `s`. -/
def Flow.FallsTo {α : Type} (m : Flow α) (s : State) : Prop := ∃ u, m = .reset u ∧ platformReset u = platformReset s

theorem Flow.FallsTo.outcome {α : Type} {m : Flow α} {s : State} (h : m.FallsTo s) :
    m.outcome = .next (platformReset s) := by
  obtain ⟨u, rfl, h⟩ := h
  exact congrArg _ h

/-- From the entry to RESP a reset due at once falls before the first byte (R208, R282). -/
theorem runInvalid_due {s : State} (hr : s.resetIn = some 0) : (runInvalid s).FallsTo s :=
  ⟨_, by show respStep (enterResp _) = _; exact enterResp_due hr, platformReset_congr rfl⟩

/-- A reset due at once falls before READ's first cell, or before its first response byte (R206, R282). -/
theorem runRead_due {s : State} (hb : HasBuffer s) (hr : s.resetIn = some 0) : (runRead s).FallsTo s := by
  obtain ⟨b, hb, _, _, hrz⟩ := hb
  have hfit : s.rsize.toNat = fits s.addr.toNat s.size.toNat := by rw [hrz, clamp_toNat]
  have hv : ¬ bufValid s = false := by simp [bufValid, hb]
  unfold runRead execReadStep readRange
  rw [if_neg hv]
  cases hn : s.rsize.toNat with
  | zero => exact ⟨enterResp { s with k := 0 }, enterResp_due hr, platformReset_congr rfl⟩
  | succ n =>
    unfold fits at hfit; rw [Config.cap_eq] at hfit
    rw [readLoop, if_pos ⟨by show 0 < _; omega, by show 0 < _; omega,
      (inDevice_iff _ _).mpr (by show s.addr.toNat + 0 < _; omega)⟩, readByte, setDir, tick_due (by exact hr)]
    exact ⟨{ s with k := 0 }, rfl, platformReset_congr rfl⟩

/-- A reset due at once falls before WRITE's first cell, or before its first response byte (R207, R282). -/
theorem runCommit_due {s : State} (hb : HasBuffer s) (hr : s.resetIn = some 0) : (runCommit s).FallsTo s := by
  obtain ⟨b, hb, hl, _, hrz⟩ := hb
  have hfit : s.rsize.toNat = fits s.addr.toNat s.size.toNat := by rw [hrz, clamp_toNat]
  have hbb : bufBytes s = b := by simp [bufBytes, hb]
  unfold fits at hfit; rw [Config.cap_eq] at hfit
  unfold runCommit execWcommitStep bufSlice writeRange
  rw [if_pos (by rw [hbb]; omega), Flow.bind_ok]
  have hlen : ((bufBytes s).take s.rsize.toNat).length = s.rsize.toNat := by rw [List.length_take, hbb]; omega
  generalize (bufBytes s).take s.rsize.toNat = data at hlen
  cases data with
  | nil => exact ⟨enterResp { s with k := 0 }, enterResp_due hr, platformReset_congr rfl⟩
  | cons v l =>
    rw [List.length_cons] at hlen
    rw [writeLoop, if_pos ((inDevice_iff _ _).mpr (by show s.addr.toNat + 0 < _; omega)), writeByte, setDir,
      tick_due (by exact hr)]
    exact ⟨{ s with k := 0 }, rfl, platformReset_congr rfl⟩

/-- A reset due at once falls before the next payload byte, before the idle delay, or later where the payload is complete
(R207, R282). -/
theorem runWrite_due {s : State} (hb : HasBuffer s) (hr : s.resetIn = some 0) : (runWrite s).FallsTo s := by
  unfold runWrite execWrxStep collect
  by_cases hi : s.i = s.size
  · rw [if_pos hi, Flow.bind_ok]
    obtain ⟨u, hu, he⟩ := runCommit_due (s := { s with st := .execWcommit }) hb hr
    exact ⟨u, hu, he.trans (platformReset_congr rfl)⟩
  · rw [if_neg hi]
    refine ⟨s, ?_, rfl⟩
    by_cases hn : 1 ≤ rxAvail s
    · rw [if_pos hn, show rxAvail s = (rxAvail s - 1) + 1 by omega]
      show ((tick s).bind _).bind _ = _
      rw [tick_due hr]; rfl
    · rw [if_neg hn, pollIdle, delay, tick_due hr]; rfl

/-- A reset due at once falls in a command that can allocate its buffer, whichever it is (R203, R282). -/
theorem exec_due {s : State} (i : Instr) (hc : canAllocate s i.count) (hr : s.resetIn = some 0) :
    exec i s = .next (platformReset s) := by
  have hb := fun act => hasBuffer_entered act i.address i.count s hc
  rcases instr_cases i with hi | hi | hi
  · rw [hi, exec_read _ _ s hc, (runRead_due (s := dispatchRead (entered _ _ _ s)) (hb _) hr).outcome]
    exact congrArg _ (platformReset_congr rfl)
  · rw [hi, exec_write _ _ s hc, (runWrite_due (s := dispatchWrite (entered _ _ _ s)) (hb _) hr).outcome]
    exact congrArg _ (platformReset_congr rfl)
  · rw [exec_invalid _ _ _ s i hi hc, (runInvalid_due (s := dispatchInvalid (entered _ _ _ s)) hr).outcome]
    exact congrArg _ (platformReset_congr rfl)

end Sys2Proof.Machine
end

