-- ==== Sys2Proof/Laws/Twin.lean ====
section
/-! SUPPORT. Two machines side by side that differ only in registers the CORE's procedures do not read: the procedures
end alike, a platform reset inside them included (R251, R282). -/

namespace Sys2Proof.Machine

variable {α β : Type} {s t : State}

/-- The two states agree in everything but the registers R23 to R30, R40 and the response's position. -/
abbrev Alike (s t : State) : Prop := eraseRegs s = eraseRegs t

/-- The registers but the shift stage. -/
def regs (s : State) : Byte × Half × Half × Byte × Half × Half × Half × Half × Nat :=
  (s.action, s.addr, s.size, s.ract, s.rsize, s.i, s.j, s.k, s.respPos)

theorem Alike.out (h : Alike s t) : ∃ a ad sz ra rz i j k sh p, t =
    { s with action := a, addr := ad, size := sz, ract := ra, rsize := rz, i := i, j := j, k := k, srShift := sh,
             respPos := p } := by
  refine ⟨t.action, t.addr, t.size, t.ract, t.rsize, t.i, t.j, t.k, t.srShift, t.respPos, ?_⟩
  have e : t = { eraseRegs t with action := t.action, addr := t.addr, size := t.size, ract := t.ract, rsize := t.rsize,
                                  i := t.i, j := t.j, k := t.k, srShift := t.srShift, respPos := t.respPos } := rfl
  rwa [← show eraseRegs s = eraseRegs t from h] at e

theorem Alike.platformReset (h : Alike s t) : platformReset s = platformReset t := by
  obtain ⟨_, _, _, _, _, _, _, _, _, _, rfl⟩ := h.out
  exact (platformReset_congr rfl).symm

/-- The two procedures end in the same way, with the same value or fault, and in states as `P` and `W` say; where a
platform reset falls in one it falls in the other, and they come out of it equal. -/
def Flow.Twin (m m' : Flow α) (P : State → State → Prop) (W : State → State → Prop) : Prop :=
  match m, m' with
  | .ok v s, .ok v' t => v = v' ∧ P s t
  | .wait s, .wait t => W s t
  | .reset s, .reset t => platformReset s = platformReset t
  | .fault f, .fault f' => f = f'
  | _, _ => False

variable {m m' : Flow α} {P P' W : State → State → Prop}

theorem Flow.Twin.bind {f f' : α → State → Flow β} {Q : State → State → Prop} (h : m.Twin m' P W)
    (k : ∀ v s t, P s t → (f v s).Twin (f' v t) Q W) : (m.bind f).Twin (m'.bind f') Q W := by
  cases m <;> cases m' <;> first | exact h.elim | exact h | skip
  obtain ⟨rfl, h⟩ := h
  exact k _ _ _ h

theorem Flow.Twin.mono (h : m.Twin m' P W) (k : ∀ s t, P s t → P' s t) : m.Twin m' P' W := by
  cases m <;> cases m' <;> first | exact h.elim | exact h | exact ⟨h.1, k _ _ h.2⟩

/-- Where both procedures run, the states they complete in are the exact ones. -/
theorem Flow.Twin.exact {k : Nat} {v v' : α} {a b : State} {R R' : Nat → State → Prop} (h : m.Twin m' P W)
    (h1 : Runs m s k v a R) (h2 : Runs m' t k v' b R') (hr : t.resetIn = s.resetIn) :
    m.Twin m' (fun s' t' => P s' t' ∧ ∃ r, s' = { a with resetIn := r } ∧ t' = { b with resetIn := r }) W := by
  by_cases ha : Allows s.resetIn k
  · have e1 := h1.done ha
    have e2 := h2.done (hr ▸ ha)
    rw [e1, e2] at h ⊢
    exact ⟨h.1, h.2, _, rfl, by rw [hr]⟩
  · unfold Allows at ha
    push Not at ha
    obtain ⟨n, hn, hk⟩ := ha
    obtain ⟨u, e1, _⟩ := h1.cut n hn hk
    obtain ⟨u', e2, _⟩ := h2.cut n (hr ▸ hn) hk
    rw [e1, e2] at h ⊢
    exact h

/-! ## The pin primitives and the byte engine -/

/-- What a procedure that writes no register but the shift stage leaves of two alike states. -/
structure Beside (s t s' t' : State) : Prop where
  alike : Alike s' t'
  left : regs s' = regs s
  right : regs t' = regs t

theorem Beside.trans {s' t' s'' t'' : State} (h : Beside s t s' t') (h' : Beside s' t' s'' t'') : Beside s t s'' t'' :=
  ⟨h'.alike, h'.left.trans h.left, h'.right.trans h.right⟩

/-- One event. -/
theorem event_twin {f : State → Flow α} (h : Alike s t)
    (hf : ∀ r, (f { s with resetIn := r }).Twin (f { t with resetIn := r }) P W) :
    ((tick s).bind fun _ s => f s).Twin ((tick t).bind fun _ s => f s) P W := by
  have e : t.resetIn = s.resetIn := by obtain ⟨_, _, _, _, _, _, _, _, _, _, rfl⟩ := h.out; rfl
  have h' := hf s.resetIn
  unfold tick
  rw [e]
  cases hr : s.resetIn with
  | none => rw [hr] at h'; rw [show { s with resetIn := none } = s by rw [← hr]] at h'
            rw [show { t with resetIn := none } = t by rw [← hr, ← e]] at h'; exact h'
  | some n =>
    cases n with
    | zero => exact h.platformReset
    | succ n => exact hf (some n)

theorem ite_twin {c c' : Prop} [Decidable c] [Decidable c'] {a b a' b' : Flow α} (hc : c ↔ c')
    (ha : c → a.Twin a' P W) (hb : ¬ c → b.Twin b' P W) : (if c then a else b).Twin (if c' then a' else b') P W := by
  by_cases h : c
  · rw [if_pos h, if_pos (hc.mp h)]; exact ha h
  · rw [if_neg h, if_neg (h ∘ hc.mpr)]; exact hb h

theorem onWeRise_twin (h : Alike s t) :
    (onWeRise s).Twin (onWeRise t)
      (fun s' t' => Beside s t s' t' ∧ s'.srShift = s.srShift ∧ t'.srShift = t.srShift) W := by
  obtain ⟨_, _, _, _, _, _, _, _, _, _, rfl⟩ := h.out
  exact ite_twin Iff.rfl (fun _ => rfl) fun _ => ite_twin Iff.rfl (fun _ => rfl) fun _ =>
    ite_twin Iff.rfl (fun _ => rfl) fun _ => ⟨rfl, ⟨rfl, rfl, rfl⟩, rfl, rfl⟩

theorem drive_twin (l : Line) (x : Bool) (h : Alike s t) (hl : l = .srLatch → s.srShift = t.srShift) :
    (drive l x s).Twin (drive l x t)
      (fun s' t' => Beside s t s' t' ∧ (l ≠ .srClk → s'.srShift = s.srShift ∧ t'.srShift = t.srShift)) W := by
  obtain ⟨_, _, _, _, _, _, _, _, sh, _, rfl⟩ := h.out
  refine event_twin h fun r => ?_
  cases l with
  | srData => exact ⟨rfl, ⟨rfl, rfl, rfl⟩, fun _ => ⟨rfl, rfl⟩⟩
  | srClk =>
    by_cases hx : (x && !s.srClk) = true
    · simp only [setLine, record, hx, if_true]
      exact ⟨rfl, ⟨rfl, rfl, rfl⟩, fun e => absurd rfl e⟩
    · simp only [setLine, record, hx]
      exact ⟨rfl, ⟨rfl, rfl, rfl⟩, fun e => absurd rfl e⟩
  | srLatch =>
    obtain rfl : s.srShift = sh := hl rfl
    by_cases hx : (x && !s.srLatch) = true
    · simp only [setLine, record, hx, if_true, onLatchRise]
      by_cases hw : s.weN = false
      · simp only [hw, if_true]; exact (rfl : _ = _)
      · simp only [hw]; exact ⟨rfl, ⟨rfl, rfl, rfl⟩, fun _ => ⟨rfl, rfl⟩⟩
    · simp only [setLine, record, hx]
      exact ⟨rfl, ⟨rfl, rfl, rfl⟩, fun _ => ⟨rfl, rfl⟩⟩
  | weN =>
    by_cases hx : (x && !s.weN) = true
    · simp only [setLine, record, hx, if_true]
      refine Flow.Twin.mono (onWeRise_twin ?_) fun _ _ h => ⟨⟨h.1.1, h.1.2, h.1.3⟩, fun _ => h.2⟩
      rfl
    · simp only [setLine, record, hx]
      exact ⟨rfl, ⟨rfl, rfl, rfl⟩, fun _ => ⟨rfl, rfl⟩⟩

theorem setDir_twin (d : BusDir) (h : Alike s t) :
    (setDir d s).Twin (setDir d t) (fun s' t' => Beside s t s' t' ∧ s'.srClk = s.srClk ∧ s'.srLatch = s.srLatch ∧
      s'.weN = s.weN ∧ s'.wcBusy = s.wcBusy) W := by
  obtain ⟨_, _, _, _, _, _, _, _, _, _, rfl⟩ := h.out
  refine event_twin h fun r => ?_
  by_cases hd : s.dDir = .input
  · simp only [record, hd, if_true]; exact ⟨rfl, ⟨rfl, rfl, rfl⟩, rfl, rfl, rfl, rfl⟩
  · simp only [record, hd, if_false]; exact ⟨rfl, ⟨rfl, rfl, rfl⟩, rfl, rfl, rfl, rfl⟩

theorem driveBus_twin (v : Lines) (h : Alike s t) : (driveBus v s).Twin (driveBus v t) (Beside s t) W := by
  obtain ⟨_, _, _, _, _, _, _, _, _, _, rfl⟩ := h.out
  exact event_twin h fun r => ⟨rfl, rfl, rfl, rfl⟩

theorem delay_twin (n : Nat) (h : Alike s t) : (delay n s).Twin (delay n t) (Beside s t) W := by
  obtain ⟨_, _, _, _, _, _, _, _, _, _, rfl⟩ := h.out
  exact event_twin h fun r => ⟨rfl, rfl, rfl, rfl⟩

theorem busRead_twin (h : Alike s t) : (busRead s).Twin (busRead t) (Beside s t) W := by
  have e1 : t.dDir = s.dDir ∧ srDir t = srDir s ∧ t.wcBusy = s.wcBusy ∧ srAddr t = srAddr s ∧ t.mem = s.mem ∧
      t.dOut = s.dOut ∧ t.draws = s.draws := by
    obtain ⟨_, _, _, _, _, _, _, _, _, _, rfl⟩ := h.out
    exact ⟨rfl, rfl, rfl, rfl, rfl, rfl, rfl⟩
  obtain ⟨e1, e2, e3, e4, e5, e6, e7⟩ := e1
  unfold busRead drawBus
  rw [e1, e2, e3, e4, e5, e6, e7]
  split
  · exact ite_twin Iff.rfl (fun _ => rfl) fun _ => ⟨rfl, h, rfl, rfl⟩
  · exact ⟨rfl, by obtain ⟨_, _, _, _, _, _, _, _, _, _, rfl⟩ := h.out; rfl, rfl, rfl⟩
  · exact ⟨rfl, by obtain ⟨_, _, _, _, _, _, _, _, _, _, rfl⟩ := h.out; rfl, rfl, rfl⟩
  · exact ⟨rfl, h, rfl, rfl⟩

theorem sample_twin (h : Alike s t) : (sample s).Twin (sample t) (Beside s t) W := by
  obtain ⟨_, _, _, _, _, _, _, _, _, _, rfl⟩ := h.out
  exact event_twin h fun r => (busRead_twin (by rfl)).mono fun _ _ h => ⟨h.1, h.2, h.3⟩

theorem srShiftBits_twin (bits : List Bool) (h : Alike s t) :
    (srShiftBits bits s).Twin (srShiftBits bits t) (Beside s t) W := by
  induction bits generalizing s t with
  | nil => exact ⟨rfl, h, rfl, rfl⟩
  | cons b l ih =>
    refine ((drive_twin .srData b h (fun e => by cases e)).bind fun _ _ _ h1 => ?_ : (srShiftBit b s).Twin _ _ W).bind
      (P := Beside s t) fun _ _ _ h1 => (ih h1.alike).mono fun _ _ h2 => h1.trans h2
    refine (drive_twin .srClk true h1.1.alike (fun e => by cases e)).bind fun _ _ _ h2 => ?_
    exact (drive_twin .srClk false h2.1.alike (fun e => by cases e)).mono fun _ _ h3 => (h1.1.trans h2.1).trans h3.1

/-- sr_write with the lines at rest loads its word into both shift stages (R122). -/
theorem srWrite_twin (w : Half) (h : Alike s t) (hc : s.srClk = false) :
    (srWrite w s).Twin (srWrite w t) (Beside s t) W := by
  have e : t.srClk = s.srClk ∧ t.resetIn = s.resetIn := by
    obtain ⟨_, _, _, _, _, _, _, _, _, _, rfl⟩ := h.out; exact ⟨rfl, rfl⟩
  refine ((srShiftBits_twin (msbFirst w) h).exact (srShiftBits_runs _ s hc) (srShiftBits_runs _ t (e.1 ▸ hc)) e.2).bind
    fun _ a b h1 => ?_
  obtain ⟨h1, r, ha, hb⟩ := h1
  have hs : a.srShift = b.srShift := by rw [ha, hb]; simp only [shiftIn_msbFirst]
  refine (drive_twin .srLatch true h1.alike fun _ => hs).bind fun _ _ _ h2 => ?_
  obtain ⟨h2, h3⟩ := h2
  obtain ⟨h3, h4⟩ := h3 (by decide)
  exact (drive_twin .srLatch false h2.alike fun _ => by rw [h3, h4, hs]).mono fun _ _ h5 => (h1.trans h2).trans h5.1

theorem Alike.quiet (h : Alike s t) (hs : Quiet s) : Quiet t ∧ t.resetIn = s.resetIn := by
  obtain ⟨_, _, _, _, _, _, _, _, _, _, rfl⟩ := h.out; exact ⟨hs, rfl⟩

theorem readByte_twin (a : Half) (h : Alike s t) (hs : Quiet s) :
    (readByte a s).Twin (readByte a t) (fun s' t' => Beside s t s' t' ∧ Quiet s') W := by
  obtain ⟨ht, e⟩ := h.quiet hs
  refine Flow.Twin.mono (Flow.Twin.exact (P := Beside s t) ?_ (readByte_runs a s hs) (readByte_runs a t ht) e) ?_
  · refine (setDir_twin .input h).bind fun _ _ _ h1 => ?_
    refine (srWrite_twin _ h1.1.alike (h1.2.1.trans hs.1)).bind fun _ _ _ h2 => ?_
    exact (sample_twin h2.alike).mono fun _ _ h3 => (h1.1.trans h2).trans h3
  · rintro a b ⟨h, r, rfl, -⟩; exact ⟨h, hs⟩

theorem writeByte_twin (a : Half) (v : Byte) (h : Alike s t) (hs : Quiet s) :
    (writeByte a v s).Twin (writeByte a v t) (fun s' t' => Beside s t s' t' ∧ Quiet s') W := by
  obtain ⟨ht, e⟩ := h.quiet hs
  refine Flow.Twin.mono (Flow.Twin.exact (P := Beside s t) ?_ (writeByte_runs a v s hs) (writeByte_runs a v t ht) e)
    (by rintro a b ⟨h, r, rfl, -⟩; exact ⟨h, hs⟩)
  have cfg : ∀ {s t : State}, Alike s t → t.cfg = s.cfg := fun h => by
    obtain ⟨_, _, _, _, _, _, _, _, _, _, rfl⟩ := h.out; rfl
  refine (setDir_twin .output h).bind fun _ _ _ h1 => ?_
  refine (srWrite_twin _ h1.1.alike (h1.2.1.trans hs.1)).bind fun _ _ _ h2 => ?_
  refine (driveBus_twin v h2.alike).bind fun _ _ _ h3 => ?_
  refine (drive_twin .weN false h3.alike (fun e => by cases e)).bind fun _ _ _ h4 => ?_
  rw [cfg h4.1.alike]
  refine (delay_twin _ h4.1.alike).bind fun _ _ _ h5 => ?_
  refine (drive_twin .weN true h5.alike (fun e => by cases e)).bind fun _ _ _ h6 => ?_
  unfold settle
  rw [cfg h6.1.alike]
  refine (delay_twin _ h6.1.alike).bind fun _ _ _ h7 => ?_
  have h := (((((h1.1.trans h2).trans h3).trans h4.1).trans h5).trans h6.1).trans h7
  exact ⟨rfl, by obtain ⟨_, _, _, _, _, _, _, _, _, _, rfl⟩ := h.alike.out; rfl, h.left, h.right⟩

/-! ## The range operations -/

/-- The states differ only in `i`, `j`, the shift stage and the response's position: `k` is live. -/
def InLoop (s t : State) : Prop := ∃ i j sh p, t = { s with i := i, j := j, srShift := sh, respPos := p }

theorem InLoop.beside {s' t' : State} (h : InLoop s t) (hb : Beside s t s' t') : InLoop s' t' := by
  obtain ⟨_, _, _, _, rfl⟩ := h
  obtain ⟨ha, hl, hr⟩ := hb
  obtain ⟨_, _, _, _, _, _, _, _, _, _, rfl⟩ := ha.out
  simp only [regs, Prod.mk.injEq] at hl hr
  obtain ⟨l1, l2, l3, l4, l5, -, -, l8, -⟩ := hl
  obtain ⟨r1, r2, r3, r4, r5, -, -, r8, -⟩ := hr
  rw [r1, r2, r3, r4, r5, r8, ← l1, ← l2, ← l3, ← l4, ← l5, ← l8]
  exact ⟨_, _, _, _, rfl⟩

theorem bufWrite_twin (n : Nat) (v : Byte) (h : Alike s t) :
    (bufWrite n v s).Twin (bufWrite n v t) (fun s' t' => ∃ b, s' = { s with buf := b } ∧ t' = { t with buf := b }) W := by
  obtain ⟨_, _, _, _, _, _, _, _, _, _, rfl⟩ := h.out
  exact ite_twin Iff.rfl (fun _ => ⟨rfl, _, rfl, rfl⟩) fun _ => rfl

theorem readLoop_twin (fuel : Nat) (a n bufcap : Half) (h : InLoop s t) (hs : Quiet s) :
    (readLoop fuel a n bufcap s).Twin (readLoop fuel a n bufcap t) InLoop W := by
  induction fuel generalizing s t with
  | zero => exact ⟨rfl, h⟩
  | succ fuel ih =>
    have hk : t.k = s.k ∧ Alike s t := by obtain ⟨_, _, _, _, rfl⟩ := h; exact ⟨rfl, rfl⟩
    unfold readLoop
    rw [hk.1]
    refine ite_twin Iff.rfl (fun _ => ?_) fun _ => ⟨rfl, h⟩
    refine (readByte_twin _ hk.2 hs).bind fun v s' t' h1 => ?_
    obtain ⟨_, _, _, _, rfl⟩ := h.beside h1.1
    refine (bufWrite_twin _ v h1.1.alike).bind fun _ _ _ h2 => ?_
    obtain ⟨b, rfl, rfl⟩ := h2
    exact ih ⟨_, _, _, _, rfl⟩ h1.2

theorem writeLoop_twin (a : Half) (data : List Byte) (h : InLoop s t) (hs : Quiet s) :
    (writeLoop a data s).Twin (writeLoop a data t) InLoop W := by
  induction data generalizing s t with
  | nil => exact ⟨rfl, h⟩
  | cons v l ih =>
    have hk : t.k = s.k ∧ Alike s t := by obtain ⟨_, _, _, _, rfl⟩ := h; exact ⟨rfl, rfl⟩
    unfold writeLoop
    rw [hk.1]
    refine ite_twin Iff.rfl (fun _ => ?_) fun _ => ⟨rfl, h⟩
    refine (writeByte_twin _ _ hk.2 hs).bind fun _ s' t' h1 => ?_
    obtain ⟨_, _, _, _, rfl⟩ := h.beside h1.1
    exact ih ⟨_, _, _, _, rfl⟩ h1.2

/-! ## The response -/

/-- The states differ only in registers RESP does not read. -/
def InResp (s t : State) : Prop := s.st = .resp ∧ ∃ i k sh, t = { s with i := i, k := k, srShift := sh }

theorem InResp.live (h : InResp s t) : LiveEq s t := by
  obtain ⟨hst, _, _, _, rfl⟩ := h
  exact ⟨rfl, fun _ _ => ⟨rfl, rfl, rfl, fun _ => ⟨rfl, fun _ => rfl⟩, fun e => (by rw [hst] at e; cases e),
    fun _ => ⟨rfl, rfl⟩⟩⟩

theorem txPush_twin (b : Byte) (h : InResp s t) : (txPush b s).Twin (txPush b t) InResp LiveEq := by
  obtain ⟨hst, _, _, _, rfl⟩ := h
  refine event_twin rfl fun r => ?_
  cases hr : s.txRoom with
  | none => exact ⟨rfl, hst, _, _, _, rfl⟩
  | some n =>
    cases n with
    | zero => exact InResp.live ⟨hst, _, _, _, rfl⟩
    | succ n => exact ⟨rfl, hst, _, _, _, rfl⟩

theorem pushHeader_twin (l : List Byte) (h : InResp s t) : (pushHeader l s).Twin (pushHeader l t) InResp LiveEq := by
  induction l generalizing s t with
  | nil => exact ⟨rfl, h⟩
  | cons b l ih =>
    refine (txPush_twin b h).bind fun _ _ _ h1 => ?_
    obtain ⟨hst, _, _, _, rfl⟩ := h1
    exact ih ⟨hst, _, _, _, rfl⟩

theorem pushPayload_twin (n : Nat) (h : InResp s t) : (pushPayload n s).Twin (pushPayload n t) InResp LiveEq := by
  induction n generalizing s t with
  | zero => exact ⟨rfl, h⟩
  | succ n ih =>
    have h0 := h
    obtain ⟨_, _, _, _, rfl⟩ := h0
    unfold pushPayload bufRead
    show Flow.Twin (Flow.bind (match (bufBytes s)[s.j.toNat]? with | some b => _ | none => _) _)
      (Flow.bind (match (bufBytes s)[s.j.toNat]? with | some b => _ | none => _) _) _ _
    cases (bufBytes s)[s.j.toNat]? with
    | none => exact (rfl : (_ : Fault) = _)
    | some b =>
      refine (txPush_twin b h).bind fun _ _ _ h1 => ?_
      obtain ⟨hst, _, _, _, rfl⟩ := h1
      exact ih ⟨hst, _, _, _, rfl⟩

theorem respStep_twin (h : InResp s t) : (respStep s).Twin (respStep t) LiveEq LiveEq := by
  have h0 := h
  obtain ⟨_, _, _, _, rfl⟩ := h0
  refine (pushHeader_twin _ h).bind fun _ _ _ h1 => ?_
  have h2 := h1
  obtain ⟨_, _, _, _, rfl⟩ := h2
  refine (pushPayload_twin _ h1).bind fun _ _ _ h3 => ?_
  obtain ⟨_, _, _, _, rfl⟩ := h3
  exact ⟨rfl, rfl, fun e => absurd rfl e⟩

/-! ## The commands -/

/-- The states differ only in registers a command's work does not read. -/
def InCommand (s t : State) : Prop := ∃ i j k sh p, t = { s with i := i, j := j, k := k, srShift := sh, respPos := p }

theorem enterResp_twin (h : InCommand s t) : (respStep (enterResp s)).Twin (respStep (enterResp t)) LiveEq LiveEq := by
  obtain ⟨_, _, _, _, _, rfl⟩ := h
  exact respStep_twin ⟨rfl, _, _, _, rfl⟩

theorem InLoop.command (h : InLoop s t) : InCommand s t := by
  obtain ⟨_, _, _, _, rfl⟩ := h
  exact ⟨_, _, _, _, _, rfl⟩

theorem InCommand.loop (h : InCommand s t) : InLoop { s with k := 0 } { t with k := 0 } := by
  obtain ⟨_, _, _, _, _, rfl⟩ := h
  exact ⟨_, _, _, _, rfl⟩

theorem readRange_twin (a n bufcap : Half) (h : InCommand s t) (hs : Quiet s) :
    (readRange a n bufcap s).Twin (readRange a n bufcap t) InCommand W := by
  have hb : t.buf = s.buf := by obtain ⟨_, _, _, _, _, rfl⟩ := h; rfl
  refine ite_twin (by rw [bufValid, bufValid, hb]) (fun _ => ⟨rfl, h⟩) fun _ => ?_
  refine (readLoop_twin _ _ _ _ h.loop hs).bind fun _ _ _ h1 => ⟨?_, h1.command⟩
  obtain ⟨_, _, _, _, rfl⟩ := h1
  rfl

theorem runRead_twin (h : InCommand s t) (hs : Quiet s) : (runRead s).Twin (runRead t) LiveEq LiveEq := by
  have h0 := h
  obtain ⟨_, _, _, _, _, rfl⟩ := h0
  unfold runRead execReadStep
  rw [Flow.bind_assoc, Flow.bind_assoc]
  exact (readRange_twin _ _ _ h hs).bind fun _ _ _ h => enterResp_twin h

theorem runCommit_twin (h : InCommand s t) (hs : Quiet s) : (runCommit s).Twin (runCommit t) LiveEq LiveEq := by
  have h0 := h
  obtain ⟨_, _, _, _, _, rfl⟩ := h0
  unfold runCommit execWcommitStep writeRange
  rw [Flow.bind_assoc, Flow.bind_assoc]
  refine Flow.Twin.bind (P := fun a b => InCommand a b ∧ Quiet a) (ite_twin Iff.rfl (fun _ => ⟨rfl, h, hs⟩) fun _ => rfl)
    fun _ _ _ h1 => ?_
  obtain ⟨h1, hq⟩ := h1
  have h2 := h1
  obtain ⟨_, _, _, _, _, rfl⟩ := h2
  rw [Flow.bind_assoc, Flow.bind_assoc]
  exact (writeLoop_twin _ _ h1.loop hq).bind fun _ _ _ h2 => enterResp_twin h2.command

/-- INVALID does not read `ract` either (R208). -/
theorem runInvalid_twin (ra : Byte) (h : InCommand { s with ract := ra } t) :
    (runInvalid s).Twin (runInvalid t) LiveEq LiveEq := by
  obtain ⟨_, _, _, _, _, rfl⟩ := h
  exact enterResp_twin (s := { s with ract := Config.invalidAct }) ⟨_, _, _, _, _, rfl⟩

theorem pollIdle_twin (h : Alike s t)
    (hW : ∀ tr r, W { s with trace := tr, resetIn := r } { t with trace := tr, resetIn := r }) :
    (pollIdle s : Flow α).Twin (pollIdle t) P W := by
  obtain ⟨_, _, _, _, _, _, _, _, _, _, rfl⟩ := h.out
  unfold pollIdle delay
  rw [Flow.bind_assoc, Flow.bind_assoc]
  exact event_twin h fun r => hW _ r

theorem rxPop_twin (h : Alike s t) :
    (rxPop s).Twin (rxPop t) (fun s' t' => ∃ l, s' = { s with rx := l } ∧ t' = { t with rx := l }) W := by
  have hr : t.rx = s.rx := by obtain ⟨_, _, _, _, _, _, _, _, _, _, rfl⟩ := h.out; rfl
  unfold rxPop
  rw [hr]
  cases s.rx with
  | nil => exact (rfl : (_ : Fault) = _)
  | cons b l => exact ⟨rfl, l, rfl, rfl⟩

/-- The states differ only in registers EXEC_WRX does not read: `i` is live. -/
def InWrx (s t : State) : Prop :=
  s.st = .execWrx ∧ ∃ j k sh p, t = { s with j := j, k := k, srShift := sh, respPos := p }

theorem collect_twin (fuel : Nat) (h : InWrx s t) (hs : Quiet s) :
    (collect fuel s).Twin (collect fuel t) (fun s' t' => InCommand s' t' ∧ Quiet s') LiveEq := by
  have live : ∀ {s t : State}, InWrx s t → LiveEq s t := fun ⟨hst, _, _, _, _, e⟩ => by
    rw [e]
    exact ⟨rfl, fun _ _ => ⟨rfl, rfl, rfl, fun _ => ⟨rfl, fun _ => rfl⟩, fun _ => rfl, fun e => (by rw [hst] at e; cases e)⟩⟩
  induction fuel generalizing s t with
  | zero =>
    obtain ⟨hst, _, _, _, _, rfl⟩ := h
    unfold collect
    exact ite_twin Iff.rfl (fun _ => ⟨rfl, ⟨_, _, _, _, _, rfl⟩, hs⟩) fun _ =>
      ite_twin Iff.rfl (fun _ => live ⟨hst, _, _, _, _, rfl⟩) fun _ =>
        pollIdle_twin rfl fun _ _ => live ⟨hst, _, _, _, _, rfl⟩
  | succ fuel ih =>
    obtain ⟨hst, _, _, _, _, rfl⟩ := h
    unfold collect
    refine ite_twin Iff.rfl (fun _ => ⟨rfl, ⟨_, _, _, _, _, rfl⟩, hs⟩) fun _ =>
      ite_twin Iff.rfl (fun _ => event_twin rfl fun r => ?_) fun _ =>
        pollIdle_twin rfl fun _ _ => live ⟨hst, _, _, _, _, rfl⟩
    refine (rxPop_twin (by rfl)).bind fun b _ _ h1 => ?_
    obtain ⟨l, rfl, rfl⟩ := h1
    refine (bufWrite_twin _ b (by rfl)).bind fun _ _ _ h2 => ?_
    obtain ⟨b, rfl, rfl⟩ := h2
    refine @ih _ _ ?_ ?_
    · exact ⟨hst, _, _, _, _, rfl⟩
    · exact hs

theorem runWrite_twin (h : InWrx s t) (hs : Quiet s) : (runWrite s).Twin (runWrite t) LiveEq LiveEq := by
  have h0 := h
  obtain ⟨_, _, _, _, _, rfl⟩ := h0
  exact (collect_twin _ h hs).bind fun _ _ _ h1 => runCommit_twin h1.1 h1.2

/-- What the steps that end alike leave. -/
theorem Flow.Twin.outcome {m m' : Flow α} (h : m.Twin m' LiveEq LiveEq) {s' : State} (hs : m.outcome = .next s') :
    ∃ t', m'.outcome = .next t' ∧ LiveEq s' t' := by
  have refl : ∀ s : State, LiveEq s s := fun s =>
    ⟨rfl, fun _ _ => ⟨rfl, rfl, rfl, fun _ => ⟨rfl, fun _ => rfl⟩, fun _ => rfl, fun _ => ⟨rfl, rfl⟩⟩⟩
  cases m <;> cases m' <;> first | exact h.elim | skip
  · injection hs with hs; subst hs; exact ⟨_, rfl, h.2⟩
  · injection hs with hs; subst hs; exact ⟨_, rfl, h⟩
  · injection hs with hs; subst hs
    exact ⟨_, rfl, by rw [show platformReset _ = platformReset _ from h]; exact refl _⟩
  · cases hs

/-- A command reads none of the registers it finds (R251): HDR and EXEC_ALLOC write them first. -/
theorem exec_twin (i : Instr) (h : Alike s t) (hs : Quiet s) {s' : State} (he : exec i s = .next s') :
    ∃ t', exec i t = .next t' ∧ LiveEq s' t' := by
  obtain ⟨_, _, _, ra, _, _, _, _, _, _, rfl⟩ := h.out
  by_cases hc : canAllocate s i.count
  · rcases instr_cases i with hi | hi | hi
    · rw [hi, exec_read _ _ _ hc] at he
      rw [hi, exec_read _ _ _ (by exact hc)]
      exact (runRead_twin (s := dispatchRead (entered _ _ _ s)) ⟨_, _, _, _, _, rfl⟩ hs).outcome he
    · rw [hi, exec_write _ _ _ hc] at he
      rw [hi, exec_write _ _ _ (by exact hc)]
      exact (runWrite_twin (s := dispatchWrite (entered _ _ _ s)) ⟨rfl, _, _, _, _, rfl⟩ hs).outcome he
    · rw [exec_invalid _ _ _ _ i hi hc] at he
      rw [exec_invalid _ _ _ _ i hi (by exact hc)]
      exact (runInvalid_twin (s := dispatchInvalid (entered _ _ _ s)) ra ⟨_, _, _, _, _, rfl⟩).outcome he
  · rw [exec_abort i _ hc] at he
    injection he with he
    rw [exec_abort i _ (by exact hc)]
    subst he
    exact ⟨_, rfl, rfl, fun h => absurd rfl h⟩

end Sys2Proof.Machine
end

