-- ==== Sys2Proof/Tests/Slice0.lean ====
section
/-! SUPPORT. Tests of the model. Expected values are those of spec/95_test_vectors.md or of the rule named. The
theorems named `test_wit_` show, for a statement with hypotheses, a state and operands that meet all of them. -/

namespace Sys2Proof.Machine

/-! ## Small states -/

/-- The reset state with bytes waiting. -/
def withRx (rx : List Byte) : State := { State.reset with rx := rx }

/-- SYNC has matched the magic; `rx` follows it. -/
def atHdr (rx : List Byte) : State := { State.reset with st := .hdr, acc := Config.magic, rx := rx }

/-- An outcome's next state, if it is one. -/
def after (o : Host.Outcome State Fault Refusal) : Option State :=
  match o with
  | .next s => some s
  | _ => none

/-- A procedure's value and state, where it completes. -/
def Flow.result {α : Type} (m : Flow α) : Option (α × State) :=
  match m with
  | .ok v s => some (v, s)
  | _ => none

/-- A command of one byte at address 0 in the sequencer state `st`, with the action `act`. -/
def inCommand (st : SeqState) (act : Byte) : State :=
  { State.reset with st := st, action := act, ract := resolvedAction act, size := 1, rsize := 1, buf := some [0x5A] }

/-! ## The valued parameters (R5) -/

/-- The values of R5's table, and how they hang together. -/
theorem test_literals : Config.literals.wf ∧ Config.literals =
    { cap := 2048, abits := 11, aMask := 0x07FF, wordBits := 16, dirBit := 15, magic := 0xCAFEBABE, invalidAct := 0xFF,
      actRead := 0, actWrite := 1, hdrBytes := 5, dLines := 8 } ∧
    Config.magicBytes = [0xCA, 0xFE, 0xBA, 0xBE] := by decide

/-! ## Well-formed instructions (R93) -/

/-- One ill-formed term for each check: the byte before the block's first, or after its last. -/
theorem test_wf_refuses :
    (Instr.invalid02 0x01 0 0).wf = false ∧ (Instr.invalid02 0x04 0 0).wf = false ∧
    (Instr.invalid04 0x03 0 0).wf = false ∧ (Instr.invalid04 0x08 0 0).wf = false ∧
    (Instr.invalid08 0x07 0 0).wf = false ∧ (Instr.invalid08 0x10 0 0).wf = false ∧
    (Instr.invalid10 0x0F 0 0).wf = false ∧ (Instr.invalid10 0x20 0 0).wf = false ∧
    (Instr.invalid20 0x1F 0 0).wf = false ∧ (Instr.invalid20 0x40 0 0).wf = false ∧
    (Instr.invalid40 0x3F 0 0).wf = false ∧ (Instr.invalid40 0x80 0 0).wf = false ∧
    (Instr.invalid80 0x7F 0 0).wf = false := by decide

/-- The first and last byte of each block are accepted. -/
theorem test_wf_accepts :
    (Instr.read 0xFFFF 0xFFFF).wf ∧ (Instr.write 0 0).wf ∧ (Instr.invalid02 0x02 0 0).wf ∧
    (Instr.invalid02 0x03 0 0).wf ∧ (Instr.invalid04 0x04 0 0).wf ∧ (Instr.invalid04 0x07 0 0).wf ∧
    (Instr.invalid08 0x08 0 0).wf ∧ (Instr.invalid08 0x0F 0 0).wf ∧ (Instr.invalid10 0x10 0 0).wf ∧
    (Instr.invalid10 0x1F 0 0).wf ∧ (Instr.invalid20 0x20 0 0).wf ∧ (Instr.invalid20 0x3F 0 0).wf ∧
    (Instr.invalid40 0x40 0 0).wf ∧ (Instr.invalid40 0x7F 0 0).wf ∧ (Instr.invalid80 0x80 0 0).wf ∧
    (Instr.invalid80 0xFF 0 0).wf := by decide

/-! ## Decoding: each row's word, written out from its `encoding` string (R91) -/

theorem test_decode_read : decodeTableWord 72 0xCAFEBABE0007F80010 = some (.read 0x07F8 0x0010) := by decide
theorem test_decode_write : decodeTableWord 72 0xCAFEBABE011234ABCD = some (.write 0x1234 0xABCD) := by decide
theorem test_decode_invalid02 : decodeTableWord 72 0xCAFEBABE0200000004 = some (.invalid02 0x02 0 4) := by decide
theorem test_decode_invalid04 : decodeTableWord 72 0xCAFEBABE0700010000 = some (.invalid04 0x07 1 0) := by decide
theorem test_decode_invalid08 : decodeTableWord 72 0xCAFEBABE0C80000100 = some (.invalid08 0x0C 0x8000 0x0100) := by
  decide
theorem test_decode_invalid10 : decodeTableWord 72 0xCAFEBABE1F00FFFF00 = some (.invalid10 0x1F 0x00FF 0xFF00) := by
  decide
theorem test_decode_invalid20 : decodeTableWord 72 0xCAFEBABE3E00000000 = some (.invalid20 0x3E 0 0) := by decide
theorem test_decode_invalid40 : decodeTableWord 72 0xCAFEBABE4008000001 = some (.invalid40 0x40 0x0800 1) := by decide
theorem test_decode_invalid80 : decodeTableWord 72 0xCAFEBABEFFFFFFFFFF = some (.invalid80 0xFF 0xFFFF 0xFFFF) := by
  decide
theorem test_decode_no_magic : decodeTableWord 72 0xCAFEBABF0000000000 = none := by decide
theorem test_decode_short : decode [0xCA, 0xFE, 0xBA, 0xBE, 0, 0, 0, 0] = .error .tooShort := rfl
theorem test_encode_write : encode (.write 0x07F8 16) = [0xCA, 0xFE, 0xBA, 0xBE, 0x01, 0x07, 0xF8, 0x00, 0x10] := by
  decide

/-! ## The encoder and the clamper -/

/-- The vectors E1 to E9. -/
theorem test_encoder_vectors :
    encodeWord 0x0000 true = 0x0000 ∧ encodeWord 0x07FF false = 0x87FF ∧ encodeWord 0x0800 true = 0x0000 ∧
    encodeWord 0xFFFF false = 0x87FF ∧ encodeWord 0x1234 true = 0x0234 ∧ encodeWord 0x0234 false = 0x8234 ∧
    encodeWord 0x07F8 false = 0x87F8 ∧ encodeWord 0x0003 true = 0x0003 ∧ encodeWord 0x0803 true = 0x0003 := by decide

/-- The corner table of R173 with K1 and K2. -/
theorem test_clamp_vectors :
    clamp 0 0 = 0 ∧ clamp 0 4 = 4 ∧ clamp 2000 100 = 48 ∧ clamp 2040 16 = 8 ∧ clamp 2047 2 = 1 ∧ clamp 0 2049 = 2048 ∧
    clamp 2048 5 = 0 ∧ clamp 2049 5 = 0 ∧ clamp 0xFFFF 2 = 0 ∧ clamp 100 0xFFFF = 1948 ∧ clamp 0 0xFFFF = 2048 ∧
    clamp 2047 0 = 0 := by decide

/-! ## The serializer and the byte engine -/

/-- SR1: the sixteen data levels, and what is left. -/
theorem test_sr1 :
    msbFirst 0x8234 = [true, false, false, false, false, false, true, false, false, false, true, true, false, true,
      false, false] ∧
    (srWrite 0x8234 { State.reset with srShift := 0xFFFF, srQ := 0x0003 }).result.map
      (fun r => (r.2.srShift, r.2.srQ, r.2.srClk, r.2.srLatch, r.2.srData, r.2.trace.length)) =
      some (0x8234, 0x8234, false, false, false, 50) := by decide +kernel

/-- B1: `mem[3] = 0x5A`, the latched word 0x87F8; 52 events, no marker. -/
theorem test_b1 :
    (readByte 3 { State.reset with mem := [(3, 0x5A)], srQ := 0x87F8, srLatched := true }).result.map
      (fun r => (r.1, r.2.srQ, r.2.trace.length, r.2.trace.getLast?)) = some (0x5A, 0x0003, 52, some .sample) := by
  decide +kernel

/-- B2: 56 events and one marker, straight after the first event. -/
theorem test_b2 :
    (writeByte 0x07F8 0xA5 { State.reset with srQ := 0x0003, srLatched := true }).result.map
      (fun r => (r.2.mem, r.2.dOut, r.2.srQ, r.2.weN)) = some ([(0x07F8, 0xA5)], 0xA5, 0x87F8, true) ∧
    (writeByte 0x07F8 0xA5 { State.reset with srQ := 0x0003, srLatched := true }).result.map
      (fun r => (r.2.trace.take 2, r.2.trace.length)) = some ([.setDir .output, .contention], 57) := by decide +kernel

/-- B4: addresses above the device alias. -/
theorem test_b4 :
    (writeByte 0xFFFF 0x12 State.reset).result.map (fun r => r.2.mem) = some [(0x07FF, 0x12)] ∧
    (readByte 0x0803 { State.reset with mem := [(3, 0x77)] }).result.map (fun r => r.1) = some 0x77 := by decide +kernel

/-- B7: the checks of R65 in their order. -/
theorem test_b7 :
    onWeRise { State.reset with srQ := 0x8005, srLatched := true } = .fault (.writeFloatingBus 5) ∧
    onWeRise { State.reset with srQ := 0x0005, srLatched := true, dDir := .output } =
      .fault (.writeWhileOutputEnabled 5) ∧
    onWeRise { State.reset with srQ := 0x0005, srLatched := true, wcBusy := true } =
      .fault (.writeCycleViolation 5) := ⟨rfl, rfl, rfl⟩

/-- B6: a sample before the settle delay ends. -/
theorem test_b6 : ∃ s, drive .weN true
      { State.reset with weN := false, srQ := 0x8005, srLatched := true, dDir := .output } = .ok () s ∧
    readByte 0x0007 s = .fault (.writeCycleViolation 7) := ⟨_, rfl, rfl⟩

/-! ## The range operations -/

/-- RR2 and RR6 on a small scale: the capacity and the device's end bound the count. -/
theorem test_read_range :
    (readRange 0 3 1 { State.reset with buf := some [0, 0], mem := [(0, 7), (1, 8)] }).result.map
      (fun r => (r.1, r.2.buf)) = some (1, some [7, 0]) ∧
    (readRange 2047 5 5 { State.reset with buf := some [1, 1, 1, 1, 1], mem := [(2047, 9)] }).result.map
      (fun r => (r.1, r.2.buf)) = some (1, some [9, 1, 1, 1, 1]) := by decide +kernel

/-- WR1 and WR2. -/
theorem test_write_range :
    (writeRange 2046 [0x11, 0x22, 0x33] State.reset).result.map (fun r => (r.2.mem, r.2.k)) =
      some ([(2046, 0x11), (2047, 0x22)], 2) ∧
    (writeRange 2048 [0x11] State.reset).result.map (fun r => (r.2.mem, r.2.trace)) = some ([], []) := by decide +kernel

/-- WF1 cut to its last two cells: `write_fill(2046, FF, 100)`. -/
theorem test_write_fill :
    (writeFill 2046 0xFF 100 State.reset).result.map (fun r => (r.2.mem, r.2.k)) =
      some ([(2046, 0xFF), (2047, 0xFF)], 2) := by decide +kernel

/-! ## Memory and reset -/

theorem test_memory_reset_wf : Memory.wf State.reset.mem := by decide +kernel

/-- Writing what an unlisted cell reads as removes the entry. -/
theorem test_memory_canonical :
    memWrite [(3, 0x01), (9, 0x02)] 5 0xAA = [(3, 0x01), (5, 0xAA), (9, 0x02)] ∧
    memWrite [(3, 0x01), (9, 0x02)] 9 0x00 = [(3, 0x01)] ∧ memWrite [] 7 0x00 = [] := by decide +kernel

/-- R47. -/
theorem test_reset_lines :
    (State.reset.srData, State.reset.srClk, State.reset.srLatch, State.reset.weN) = (false, false, false, true) ∧
    State.reset.dDir = .input ∧ State.reset.st = .sync ∧ State.reset.buf = none := by decide +kernel

/-! ## SYNC, HDR and the steps -/

/-- Y2: after five of the six bytes `acc` is 0xCACAFEBA; the sixth completes the magic. -/
theorem test_sync_y2 :
    (after (step { withRx [0xBE] with acc := 0xCACAFEBA })).map (fun t => (t.acc, t.rx)) = some (0xCAFEBABE, []) ∧
    (after (step { withRx [] with acc := 0xCAFEBABE })).map State.st = some .hdr := by decide +kernel

/-- P6: with four bytes HDR pops nothing. -/
theorem test_hdr_four_bytes : (after (step (atHdr [0, 0, 0, 0]))).map State.rx = some [0, 0, 0, 0] := by decide +kernel

/-- The next step fetches and runs the placed word (a READ of four bytes, S6). -/
theorem test_fetch_word :
    (after (step (State.reset.withFetchWord 72 0xCAFEBABE0000000004))).map State.tx =
      some [0xCA, 0xFE, 0xBA, 0xBE, 0, 0, 0, 0, 4, 0, 0, 0, 0] := by decide +kernel

/-! ## The commands -/

/-- S6. -/
theorem test_read_s6 :
    (after (exec (.read 0 4)
      { State.reset with mem := [(0, 0x10), (1, 0x11), (2, 0x12), (3, 0x13)] })).map State.tx =
      some [0xCA, 0xFE, 0xBA, 0xBE, 0x00, 0x00, 0x00, 0x00, 0x04, 0x10, 0x11, 0x12, 0x13] := by decide +kernel

/-- P4: a READ above the device. -/
theorem test_read_p4 :
    (after (exec (.read 0x0801 4) State.reset)).map (fun t => (t.tx, t.trace)) =
      some ([0xCA, 0xFE, 0xBA, 0xBE, 0x00, 0x08, 0x01, 0x00, 0x00], []) := by decide +kernel

/-- P3 at the last cell: two bytes drained, one written, one echoed. -/
theorem test_write_truncated :
    (after (exec (.write 0x07FF 2) (withRx [0xA1, 0xA2, 0x33]))).map (fun t => (t.tx, t.mem, t.rx)) =
      some ([0xCA, 0xFE, 0xBA, 0xBE, 0x01, 0x07, 0xFF, 0x00, 0x01, 0xA1], [(0x07FF, 0xA1)], [0x33]) := by decide +kernel

/-- Z2. -/
theorem test_write_z2 :
    (after (exec (.write 0x0005 0) (withRx [0xAA]))).map (fun t => (t.tx, t.rx)) =
      some ([0xCA, 0xFE, 0xBA, 0xBE, 0x01, 0x00, 0x05, 0x00, 0x00], [0xAA]) := by decide +kernel

/-- S4. -/
theorem test_invalid02_s4 :
    (after (exec (.invalid02 0x02 0 4) State.reset)).map (fun t => (t.tx, t.trace)) =
      some ([0xCA, 0xFE, 0xBA, 0xBE, 0xFF, 0, 0, 0, 4, 0, 0, 0, 0], []) := by decide +kernel

/-- R208: the clamp of a range that leaves the device by one byte; nothing after the header is drained. -/
theorem test_invalid04_clamped :
    (after (exec (.invalid04 0x04 2046 3) (withRx [0x55]))).map (fun t => (t.tx, t.rx)) =
      some ([0xCA, 0xFE, 0xBA, 0xBE, 0xFF, 0x07, 0xFE, 0x00, 0x02, 0, 0], [0x55]) := by decide +kernel

theorem test_invalid08_above_device :
    (after (exec (.invalid08 0x08 2048 5) State.reset)).map State.tx =
      some [0xCA, 0xFE, 0xBA, 0xBE, 0xFF, 0x08, 0x00, 0x00, 0x00] := by decide +kernel

theorem test_invalid10_no_bytes :
    (after (exec (.invalid10 0x10 0x1234 0) State.reset)).map State.tx =
      some [0xCA, 0xFE, 0xBA, 0xBE, 0xFF, 0x12, 0x34, 0x00, 0x00] := by decide +kernel

theorem test_invalid20_registers :
    (after (exec (.invalid20 0x20 1 1) State.reset)).map (fun t => (t.action, t.ract)) = some (0x20, 0xFF) := by decide +kernel

theorem test_invalid40_registers :
    (after (exec (.invalid40 0x7F 0 2) State.reset)).map (fun t => (t.rsize, t.j)) = some (2, 2) := by decide +kernel

/-- H5. -/
theorem test_invalid80_h5 :
    (after (exec (.invalid80 0x80 16 2) State.reset)).map State.tx =
      some [0xCA, 0xFE, 0xBA, 0xBE, 0xFF, 0x00, 0x10, 0x00, 0x02, 0, 0] := by decide +kernel

/-- H4 under a smaller BUF_BYTES: the abort comes before the dispatch, and nothing is emitted. -/
theorem test_allocation_failure :
    (after (exec (.invalid80 0xFF 0xFFFF 0xFFFF)
      { State.reset with cfg := { Config.Params.default with bufBytes := 65534 } })).map (fun t => (t.tx, t.st)) =
      some ([], .sync) := by decide +kernel

/-! ## Witnesses -/

theorem ready_reset : Ready State.reset := ⟨⟨rfl, rfl, rfl, rfl⟩, rfl⟩

/-- DecodeOfEncodeIsIdentity: both ends of a block, the widest operands. -/
theorem test_wit_decode_encode :
    (Instr.invalid02 0x02 0 0).wf = true ∧ (Instr.invalid80 0xFF 0xFFFF 0xFFFF).wf = true := by decide

/-- EncodeOfDecodeIsIdentity: nine bytes and no more; and a tail. -/
theorem test_wit_encode_decode :
    decode [0xCA, 0xFE, 0xBA, 0xBE, 0xFF, 0xFF, 0xFF, 0xFF, 0xFF] = .ok (.invalid80 0xFF 0xFFFF 0xFFFF, []) ∧
    decode [0xCA, 0xFE, 0xBA, 0xBE, 0, 0, 0, 0, 0, 0xCA] = .ok (.read 0 0, [0xCA]) := ⟨rfl, rfl⟩

/-- StepRunsDecodedCommand: with and without an agenda, no reset due and one due at once. -/
theorem test_wit_step_runs : ∃ s u : State,
    s.st = .hdr ∧ decode (Config.magicBytes ++ s.rx) = .ok (.read 0 4, [9]) ∧ s.host = [] ∧ s.resetIn ≠ some 0 ∧
    u.st = .hdr ∧ decode (Config.magicBytes ++ u.rx) = .ok (.read 0 4, [9]) ∧ u.host = [.core] ∧ u.resetIn = some 0 :=
  ⟨atHdr [0, 0, 0, 0, 4, 9], { atHdr [0, 0, 0, 0, 4, 9] with host := [.core], resetIn := some 0 },
    rfl, rfl, rfl, by decide, rfl, rfl, rfl, rfl⟩

/-- HdrPollsUntilFiveBytes: four bytes. -/
theorem test_wit_hdr_polls : ∃ s : State, s.host = [] ∧ s.resetIn = none ∧ s.st = .hdr ∧ s.rx.length = 4 :=
  ⟨atHdr [0, 0, 0, 0], rfl, rfl, rfl, rfl⟩

/-- SyncScansOneByte: its three cases. -/
theorem test_wit_sync_scans : ∃ s t u : State,
    (s.host = [] ∧ s.resetIn = none ∧ s.st = .sync ∧ s.acc = Config.magic) ∧
    (t.host = [] ∧ t.resetIn = none ∧ t.st = .sync ∧ t.acc ≠ Config.magic ∧ t.rx = [0xBE]) ∧
    (u.host = [] ∧ u.resetIn = none ∧ u.st = .sync ∧ u.acc ≠ Config.magic ∧ u.rx = []) :=
  ⟨{ State.reset with acc := 0xCAFEBABE }, { withRx [0xBE] with acc := 0xCACAFEBA }, State.reset,
    ⟨rfl, rfl, rfl, rfl⟩, ⟨rfl, rfl, rfl, by decide, rfl⟩, ⟨rfl, rfl, rfl, by decide, rfl⟩⟩

/-- IdleCoreOnlyPolls. -/
theorem test_wit_idle : State.reset.host = [] ∧ State.reset.resetIn = none ∧ idle State.reset = true := by decide

/-- HeaderFoundAfterGarbage: Y2 for the first part, P2 for the second. -/
theorem test_wit_header_found : ∃ s u : State,
    (s.host = [] ∧ s.resetIn = none ∧ s.st = .sync ∧ s.acc = 0) ∧
    Config.magicBytes <:+ [0x00, 0xCA, 0xCA, 0xFE, 0xBA, 0xBE] ∧
    ¬ Config.magicBytes <:+: [0x00, 0xCA, 0xCA, 0xFE, 0xBA, 0xBE].dropLast ∧
    s.rx = [0x00, 0xCA, 0xCA, 0xFE, 0xBA, 0xBE] ++ [0x02] ∧
    (u.host = [] ∧ u.resetIn = none ∧ u.st = .sync ∧ u.acc = 0) ∧
    (Instr.invalid02 0x02 0 4).wf = true ∧ ¬ Config.magicBytes <:+: [0x00, 0xCA] ∧
    u.rx = [0x00, 0xCA] ++ encode (.invalid02 0x02 0 4) ++ [] :=
  ⟨withRx [0x00, 0xCA, 0xCA, 0xFE, 0xBA, 0xBE, 0x02],
    withRx [0x00, 0xCA, 0xCA, 0xFE, 0xBA, 0xBE, 0x02, 0x00, 0x00, 0x00, 0x04],
    ⟨rfl, rfl, rfl, rfl⟩, by decide, by decide, rfl, ⟨rfl, rfl, rfl, rfl⟩, by decide, by decide, rfl⟩

/-- MagicHasNoSelfOverlap: the longest proper part, after garbage that ends like the magic begins. -/
theorem test_wit_no_overlap : (0 < 3 ∧ 3 < 4) ∧ ¬ Config.magicBytes <:+: [0xCA, 0xFE, 0xBA] := by decide

/-- AllocationFailureAborts: the least size above BUF_BYTES. -/
theorem test_wit_allocation : ∃ (s : State) (i : Instr), s.host = [] ∧ s.resetIn = none ∧ s.st = .hdr ∧
    decode (Config.magicBytes ++ s.rx) = .ok (i, []) ∧ ¬ canAllocate s i.count :=
  ⟨{ atHdr [1, 0, 0, 0, 4] with cfg := { Config.Params.default with bufBytes := 3 } }, .write 0 4, rfl, rfl, rfl, rfl,
    by unfold canAllocate; decide⟩

/-- ClampLaws: the last address in the device and the first above it. -/
theorem test_wit_clamp : (2047 : Half).toNat < Config.cap ∧ Config.cap ≤ (2048 : Half).toNat ∧
    (2048 : Half).toNat ≤ Config.cap := by decide

/-- SrWriteLatchesAnyWord and SrWriteEvents at reset; SrWriteDuringPulseFaults inside a pulse. -/
theorem test_wit_sr_write : ∃ s u : State,
    (s.srClk = false ∧ s.srLatch = false ∧ s.weN = true ∧ s.resetIn = none) ∧
    (u.srClk = false ∧ u.srLatch = false ∧ u.weN = false ∧ u.resetIn = none) :=
  ⟨State.reset, { State.reset with weN := false }, ⟨rfl, rfl, rfl, rfl⟩, ⟨rfl, rfl, rfl, rfl⟩⟩

/-- ShiftRegisterAnswersEdges: each level a clause begins from. -/
theorem test_wit_edges : ∃ s t u v : State,
    (s.resetIn = none ∧ s.srClk = false ∧ s.srLatch = false ∧ s.weN = true) ∧
    (t.resetIn = none ∧ t.srClk = true) ∧ (u.resetIn = none ∧ u.srLatch = false ∧ u.weN = false) ∧
    (v.resetIn = none ∧ v.srLatch = true) :=
  ⟨State.reset, { State.reset with srClk := true }, { State.reset with weN := false },
    { State.reset with srLatch := true }, ⟨rfl, rfl, rfl, rfl⟩, ⟨rfl, rfl⟩, ⟨rfl, rfl, rfl⟩, ⟨rfl, rfl⟩⟩

/-- OutputsHoldWhileShifting: bits shifted, and a strobe. -/
theorem test_wit_outputs_hold : ∃ t u : State, srShiftBits [true, false] State.reset = .ok () t ∧
    State.reset.srLatch = false ∧ drive .srLatch true State.reset = .ok () u := ⟨_, _, rfl, rfl, rfl⟩

/-- WriteCommitChecksInOrder: a rising edge that passes the checks, and no edge. -/
theorem test_wit_commit : ∃ s t : State,
    (s.resetIn = none ∧ s.weN = false ∧ s.srLatch = false ∧ s.wcBusy = false ∧ srDir s = true ∧ s.dDir = .output) ∧
    (t.resetIn = none ∧ t.weN = true) :=
  ⟨{ State.reset with weN := false, srQ := 0x8000, srLatched := true, dDir := .output }, State.reset,
    ⟨rfl, rfl, rfl, rfl, rfl, rfl⟩, ⟨rfl, rfl⟩⟩

/-- SampleReadsTheCell: idle and busy. -/
theorem test_wit_sample : ∃ s t : State,
    (s.resetIn = none ∧ s.dDir = .input ∧ srDir s = false ∧ s.wcBusy = false) ∧
    (t.resetIn = none ∧ t.dDir = .input ∧ srDir t = false ∧ t.wcBusy = true) :=
  ⟨{ State.reset with srQ := 0x07FF, srLatched := true },
    { State.reset with srQ := 0x07FF, srLatched := true, wcBusy := true }, ⟨rfl, rfl, rfl, rfl⟩, ⟨rfl, rfl, rfl, rfl⟩⟩

/-- SampleOffTheDeviceIsFree: floating, contended, and driven by the CORE. -/
theorem test_wit_sample_off : ∃ s t u : State,
    (s.resetIn = none ∧ s.dDir = .input ∧ srDir s = true) ∧ (t.resetIn = none ∧ t.dDir = .output ∧ srDir t = false) ∧
    (u.resetIn = none ∧ u.dDir = .output ∧ srDir u = true) :=
  ⟨{ State.reset with srQ := 0x8000, srLatched := true },
    { State.reset with srQ := 0x0000, srLatched := true, dDir := .output },
    { State.reset with srQ := 0x8000, srLatched := true, dDir := .output },
    ⟨rfl, rfl, rfl⟩, ⟨rfl, rfl, rfl⟩, ⟨rfl, rfl, rfl⟩⟩

/-- WritePulseCommits. -/
theorem test_wit_pulse : ∃ s : State,
    s.resetIn = none ∧ s.weN = true ∧ s.wcBusy = false ∧ srDir s = true ∧ s.dDir = .output :=
  ⟨{ State.reset with srQ := 0x87FF, srLatched := true, dDir := .output }, rfl, rfl, rfl, rfl, rfl⟩

/-- BufferAndTransportFaults: an empty transport, no buffer, and the first index past a buffer beside its last. -/
theorem test_wit_buffer : ∃ s t : State,
    s.rx = [] ∧ s.buf = none ∧ t.buf = some [1, 2] ∧ [1, 2].length ≤ 2 ∧ 1 < [1, 2].length :=
  ⟨State.reset, { State.reset with buf := some [1, 2] }, rfl, rfl, rfl, by decide, by decide⟩

/-- ReadByteReadsItsCell, WriteByteCommits, ReadAfterWriteReturnsByte. -/
theorem test_wit_byte_engine : Ready State.reset ∧ Memory.wf State.reset.mem := ⟨ready_reset, by decide⟩

/-- WriteByteContentionWindow: a read and a write that complete. -/
theorem test_wit_contention : Ready State.reset ∧ (∃ x t, readByte 3 State.reset = .ok x t) ∧
    ∃ t, writeByte 3 0x5A State.reset = .ok () t :=
  ⟨ready_reset, ⟨_, _, readByte_ok 3 ready_reset⟩, ⟨_, writeByte_ok 3 0x5A ready_reset⟩⟩

/-- LeastTimes: each operation completes; the longest data. -/
theorem test_wit_least_times : Ready State.reset ∧ (List.replicate 65535 (0 : Byte)).length ≤ 65535 ∧
    (∃ t, srWrite 0x8234 State.reset = .ok () t) ∧ (∃ x t, readByte 3 State.reset = .ok x t) ∧
    (∃ t, writeByte 3 0x5A State.reset = .ok () t) ∧
    ∃ t, writeRange 2046 (List.replicate 65535 0) State.reset = .ok () t :=
  ⟨ready_reset, by rw [List.length_replicate], ⟨_, rfl⟩, ⟨_, _, readByte_ok 3 ready_reset⟩,
    ⟨_, writeByte_ok 3 0x5A ready_reset⟩, ⟨_, writeRange_ok 2046 _ ready_reset (by rw [List.length_replicate])⟩⟩

/-- ResetInsideWriteTearsOneCell: the events its clauses begin and end with. -/
theorem test_wit_tear : ∀ n ∈ [0, 52, 53, 55, 56], ∃ s : State,
    Quiet s ∧ Memory.wf s.mem ∧ s.resetIn = some n :=
  fun n _ => ⟨{ State.reset with resetIn := some n }, ⟨rfl, rfl, rfl, rfl⟩, test_memory_reset_wf, rfl⟩

/-- PlatformResetValues: no write under way. -/
theorem test_wit_platform_reset : State.reset.weN = true ∧ State.reset.wcBusy = false := by decide

/-- A command under way keeps the invariant. -/
theorem inv_command (st : SeqState) (act : Byte) (h : SeqInv (inCommand st act)) : Inv (inCommand st act) :=
  ⟨by show Memory.wf []; decide, by show Config.Params.default.wf; decide, ⟨rfl, rfl, rfl, rfl⟩,
    fun e => (by cases e), fun e => (by cases e), h⟩

theorem hasBuffer_command (st : SeqState) (act : Byte) : HasBuffer (inCommand st act) := ⟨[0x5A], rfl, rfl, rfl, rfl⟩

theorem inv_execRead : Inv (inCommand .execRead 0x00) := inv_command _ _ ⟨hasBuffer_command _ _, rfl, rfl⟩
theorem inv_execWrx : Inv (inCommand .execWrx 0x01) :=
  inv_command _ _ ⟨hasBuffer_command _ _, rfl, rfl, by decide⟩
theorem inv_execWcommit : Inv (inCommand .execWcommit 0x01) := inv_command _ _ ⟨hasBuffer_command _ _, rfl, rfl⟩
theorem inv_execInvalid : Inv (inCommand .execInvalid 0x02) := inv_command _ _ ⟨hasBuffer_command _ _, rfl⟩
theorem inv_resp : Inv (inCommand .resp 0x00) :=
  inv_command _ _ ⟨hasBuffer_command _ _, rfl, by decide, by decide, fun _ => rfl⟩
theorem inv_hdr : Inv (atHdr []) :=
  ⟨by show Memory.wf []; decide, by show Config.Params.default.wf; decide, ⟨rfl, rfl, rfl, rfl⟩,
    fun e => (by cases e), fun e => (by cases e), ⟨rfl, rfl⟩⟩
theorem inv_reset : Inv State.reset :=
  ⟨by decide, by decide, ⟨rfl, rfl, rfl, rfl⟩, fun e => (by cases e), fun e => (by cases e), rfl⟩
theorem inv_execAlloc : Inv { State.reset with st := .execAlloc } :=
  ⟨by show Memory.wf []; decide, by show Config.Params.default.wf; decide, ⟨rfl, rfl, rfl, rfl⟩,
    fun e => (by cases e), fun e => (by cases e), rfl⟩

/-- A reset due leaves the invariant as it is. -/
theorem Inv.due {s : State} (h : Inv s) (r : Option Nat) : Inv { s with resetIn := r } := ⟨h.1, h.2, h.3, h.4, h.5, h.6⟩

/-- A state with the device and the lines of one that meets the invariant. -/
theorem Inv.from {s t : State} (h : Inv s) (hq : SeqInv t)
    (e : t = { s with st := t.st, acc := t.acc, action := t.action, addr := t.addr, size := t.size, ract := t.ract,
                      rsize := t.rsize, i := t.i, j := t.j, k := t.k, buf := t.buf, respPos := t.respPos, rx := t.rx,
                      host := t.host, resetIn := t.resetIn } := by rfl) : Inv t := by
  rw [e] at hq ⊢
  exact ⟨h.1, h.2, h.3, h.4, h.5, hq⟩

/-- A command of no bytes in the sequencer state `st`, with the action `act`. -/
def ofNoBytes (st : SeqState) (act : Byte) : State := { inCommand st act with size := 0, rsize := 0, buf := some [] }

/-- DueResetIsTaken: each sequencer state, with bytes to move and with none; a push held in the header and one held in the
payload; an agenda. -/
theorem test_wit_due_reset :
    ∀ s ∈ [State.reset, { State.reset with host := [.core, .accept none] }, atHdr [],
        { State.reset with st := .execAlloc }, { State.reset with st := .execAlloc, size := 1 },
        inCommand .execRead 0x00, ofNoBytes .execRead 0x00, inCommand .execWrx 0x01, { inCommand .execWrx 0x01 with i := 1 },
        inCommand .execWcommit 0x01, ofNoBytes .execWcommit 0x01, inCommand .execInvalid 0x02, inCommand .resp 0x00,
        { inCommand .resp 0x00 with respPos := 9 }],
      (∃ agenda, s.host = [] ∧ agenda = [] ∨ s.host = .core :: agenda) ∧ Inv { s with resetIn := some 0 } ∧
      (s.st = .sync → s.acc ≠ Config.magic) ∧ (s.st = .execAlloc → canAllocate s s.size) ∧
      (s.st = .resp → s.respPos < 9 ∨ s.j ≠ s.rsize) := by
  intro s hs
  simp only [List.mem_cons, List.not_mem_nil, or_false] at hs
  rcases hs with rfl | rfl | rfl | rfl | rfl | rfl | rfl | rfl | rfl | rfl | rfl | rfl | rfl | rfl
  · exact ⟨⟨_, .inl ⟨rfl, rfl⟩⟩, inv_reset.due _, by decide⟩
  · exact ⟨⟨_, .inr rfl⟩, inv_reset.from rfl, by decide⟩
  · exact ⟨⟨_, .inl ⟨rfl, rfl⟩⟩, inv_hdr.due _, by decide⟩
  · exact ⟨⟨_, .inl ⟨rfl, rfl⟩⟩, inv_execAlloc.due _, by decide, fun _ => .inl rfl, by decide⟩
  · exact ⟨⟨_, .inl ⟨rfl, rfl⟩⟩, inv_execAlloc.from rfl, by decide, fun _ => .inr (by decide), by decide⟩
  · exact ⟨⟨_, .inl ⟨rfl, rfl⟩⟩, inv_execRead.due _, by decide, by decide, by decide⟩
  · exact ⟨⟨_, .inl ⟨rfl, rfl⟩⟩, inv_reset.from ⟨⟨[], rfl, rfl, rfl, rfl⟩, rfl, rfl⟩, by decide, by decide, by decide⟩
  · exact ⟨⟨_, .inl ⟨rfl, rfl⟩⟩, inv_execWrx.due _, by decide, by decide, by decide⟩
  · exact ⟨⟨_, .inl ⟨rfl, rfl⟩⟩, inv_reset.from ⟨⟨[0x5A], rfl, rfl, rfl, rfl⟩, rfl, rfl, by decide⟩, by decide, by decide,
      by decide⟩
  · exact ⟨⟨_, .inl ⟨rfl, rfl⟩⟩, inv_execWcommit.due _, by decide, by decide, by decide⟩
  · exact ⟨⟨_, .inl ⟨rfl, rfl⟩⟩, inv_reset.from ⟨⟨[], rfl, rfl, rfl, rfl⟩, rfl, rfl⟩, by decide, by decide, by decide⟩
  · exact ⟨⟨_, .inl ⟨rfl, rfl⟩⟩, inv_execInvalid.due _, by decide, by decide, by decide⟩
  · exact ⟨⟨_, .inl ⟨rfl, rfl⟩⟩, inv_resp.due _, by decide, by decide, by decide⟩
  · exact ⟨⟨_, .inl ⟨rfl, rfl⟩⟩,
      inv_reset.from ⟨⟨[0x5A], rfl, rfl, rfl, rfl⟩, rfl, by decide, by decide, fun h => absurd h (by decide)⟩, by decide, by decide,
      by decide⟩

/-- ReadRangeCountsAndFills: no buffer; a buffer of exactly `bufcap` bytes. ReadRangePastBufferFaults: one byte less than
the range needs. -/
theorem test_wit_read_range : ∃ s t : State,
    (Ready s ∧ s.buf = none) ∧
    (Ready t ∧ t.buf = some [0, 0] ∧ [0, 0].length ≤ 65535 ∧ (2 : Half).toNat ≤ [0, 0].length) ∧
    [0, 0].length < min (min (3 : Half).toNat (3 : Half).toNat) (Config.cap - (2045 : Half).toNat) :=
  ⟨State.reset, { State.reset with buf := some [0, 0] }, ⟨ready_reset, rfl⟩,
    ⟨⟨⟨rfl, rfl, rfl, rfl⟩, rfl⟩, rfl, by decide, by decide⟩, by decide⟩

/-- WriteRangeWritesPrefix and WriteFillRepeats: the longest data. -/
theorem test_wit_write_range : Ready State.reset ∧ Memory.wf State.reset.mem ∧
    (List.replicate 65535 (0 : Byte)).length ≤ 65535 := ⟨ready_reset, by decide, by rw [List.length_replicate]⟩

/-- ClampsAgree: a range that leaves the device. -/
theorem test_wit_clamps_agree : ∃ s : State, Ready s ∧ s.buf = some [1, 2] ∧ [1, 2].length = (2 : Half).toNat ∧
    (1 : Half) = clamp 2047 2 :=
  ⟨{ State.reset with buf := some [1, 2] }, ⟨⟨rfl, rfl, rfl, rfl⟩, rfl⟩, rfl, rfl, by decide⟩

/-- ReadCommandResponds: the largest buffer, and a channel with room for just the response. -/
theorem test_wit_read_command : ∃ s : State, Ready s ∧ canAllocate s 0xFFFF ∧
    accepts s (9 + fits (2044 : Half).toNat (0xFFFF : Half).toNat) = true ∧ s.txRoom = some 13 :=
  ⟨{ State.reset with txRoom := some 13 }, ⟨⟨rfl, rfl, rfl, rfl⟩, rfl⟩, .inr (by decide), by decide, rfl⟩

/-- WriteCommandCommitsAndEchoes: two bytes at the last cell, and a tail; WriteThenReadReturnsPayload likewise. -/
theorem test_wit_write_command : ∃ s : State, Ready s ∧ Memory.wf s.mem ∧ canAllocate s 2 ∧ s.txRoom = none ∧
    accepts s (9 + fits (2047 : Half).toNat (2 : Half).toNat) = true ∧ [0xA1, 0xA2].length = (2 : Half).toNat ∧
    s.rx = [0xA1, 0xA2] ++ [0x33] :=
  ⟨withRx [0xA1, 0xA2, 0x33], ⟨⟨rfl, rfl, rfl, rfl⟩, rfl⟩, by decide, .inr (by decide), rfl, rfl, rfl, rfl⟩

/-- InvalidCommandsRespond: a member of each row. -/
theorem test_wit_invalid_commands : ∀ act ∈ [0x02, 0x04, 0x08, 0x10, 0x20, 0x40, 0xFF],
    (∃ i ∈ invalidRows act 2047 2, i.wf = true) ∧ State.reset.resetIn = none ∧ canAllocate State.reset 2 ∧
    accepts State.reset (9 + fits (2047 : Half).toNat (2 : Half).toNat) = true := by
  intro act h
  refine ⟨?_, rfl, .inr (by decide), rfl⟩
  revert act
  decide

/-- ZeroLengthCommands: a channel with room for just the response. -/
theorem test_wit_zero_length : ∃ s : State, s.resetIn = none ∧ accepts s 9 = true ∧ s.txRoom = some 9 :=
  ⟨{ State.reset with txRoom := some 9 }, rfl, rfl, rfl⟩

/-- ShortPayloadWaits: no byte there, one short of the payload; and a wait. -/
theorem test_wit_short_payload : ∃ s t u : State,
    (s.resetIn = none ∧ canAllocate s 1 ∧ s.rx.length < (1 : Half).toNat) ∧
    (t.resetIn = none ∧ canAllocate t 3 ∧ t.rx.length + 1 = (3 : Half).toNat) ∧
    (u.host = [] ∧ u.resetIn = none ∧ u.st = .execWrx ∧ u.rx = [] ∧ u.i ≠ u.size) :=
  ⟨State.reset, withRx [1, 2], inCommand .execWrx 0x01, ⟨rfl, .inr (by decide), by decide⟩,
    ⟨rfl, .inr (by decide), by decide⟩, ⟨rfl, rfl, rfl, rfl, by decide⟩⟩

/-- PayloadInTwoParts: an empty first part, and one byte short. -/
theorem test_wit_two_parts : ∀ first ∈ [[], [1], [1, 2]], ∃ s : State,
    Ready s ∧ s.host = [] ∧ canAllocate s 3 ∧ s.rx = first ∧ first.length < (3 : Half).toNat ∧
    first.length + (List.replicate (3 - first.length) (7 : Byte)).length = (3 : Half).toNat := by
  intro first h
  refine ⟨withRx first, ⟨⟨rfl, rfl, rfl, rfl⟩, rfl⟩, rfl, .inr (show 3 ≤ 65535 by decide), rfl, ?_⟩
  revert first
  decide

/-- HeldPushResumes: no room at all, and room for all but one byte. -/
theorem test_wit_held_push : ∀ n ∈ [0, 9], ∃ s : State, Inv s ∧ s.st = .resp ∧ s.host = [] ∧ s.resetIn = none ∧
    s.txRoom = some n ∧ n < (remaining s).length := by
  intro n h
  refine ⟨{ inCommand .resp 0x00 with txRoom := some n },
    ⟨inv_resp.1, inv_resp.2, inv_resp.3, inv_resp.4, inv_resp.5, inv_resp.6⟩, rfl, rfl, rfl, rfl, ?_⟩
  revert n
  decide

/-- ResponseFollowsDeviceWork and StatusFields: a WRITE with its payload, held before the first byte and before the
last; and a channel that takes all. -/
theorem test_wit_held_response : ∀ n ∈ [0, 9], ∃ s u : State,
    (Instr.write 2047 2).wf = true ∧ Ready s ∧ canAllocate s 2 ∧ s.txRoom = some n ∧
    n < 9 + fits (2047 : Half).toNat (2 : Half).toNat ∧ (2 : Half).toNat ≤ s.rx.length ∧
    Ready u ∧ canAllocate u 2 ∧ accepts u (9 + fits (2047 : Half).toNat (2 : Half).toNat) = true ∧
    (2 : Half).toNat ≤ u.rx.length := by
  intro n h
  refine ⟨{ withRx [1, 2] with txRoom := some n }, withRx [1, 2], rfl, ⟨⟨rfl, rfl, rfl, rfl⟩, rfl⟩,
    .inr (show 2 ≤ 65535 by decide), rfl, ?_, Nat.le_refl _, ⟨⟨rfl, rfl, rfl, rfl⟩, rfl⟩, .inr (by decide), rfl, Nat.le_refl _⟩
  revert n
  decide

/-- ReadFrame, WriteFrame and InvalidFrame: commands that complete, one that waits, one that aborts. -/
theorem test_wit_frames : Ready State.reset ∧ Memory.wf State.reset.mem ∧
    (∃ t, exec (.read 0x0801 4) State.reset = .next t) ∧ (∃ t, exec (.write 0 0) State.reset = .next t) ∧
    (∃ t, exec (.write 0 1) State.reset = .next t) ∧
    (Instr.invalid02 0x02 0 1 ∈ invalidRows 0x02 0 1 ∧ ∃ t, exec (.invalid02 0x02 0 1) State.reset = .next t) ∧
    ∃ s : State, Ready s ∧ ¬ canAllocate s 1 ∧ ∃ t, exec (.read 0 1) s = .next t :=
  ⟨ready_reset, by decide, ⟨_, rfl⟩, ⟨_, rfl⟩, ⟨_, rfl⟩, ⟨by decide, ⟨_, rfl⟩⟩,
    { State.reset with cfg := { Config.Params.default with bufBytes := 0 } }, ⟨⟨rfl, rfl, rfl, rfl⟩, rfl⟩,
    by unfold canAllocate; decide, ⟨_, rfl⟩⟩

/-- PowerOnMeetsInv: other parameters and other contents. -/
theorem test_wit_power_on : ({ Config.Params.default with bufBytes := 0, tWe := 2000 } : Config.Params).wf ∧
    Memory.wf [(0, 0xFF), (2047, 0x01)] := by decide

/-- StepKeepsInv, InvStepsNeverFault, StreamsAreFifos: a step from a state with the invariant. -/
theorem test_wit_inv : Inv State.reset ∧ ∃ t, step State.reset = .next t := ⟨inv_reset, ⟨_, rfl⟩⟩

/-- SequencerTransitions: each sequencer state. -/
theorem test_wit_transitions :
    ∀ s ∈ [State.reset, atHdr [], { State.reset with st := .execAlloc }, inCommand .execRead 0x00,
        inCommand .execWrx 0x01, inCommand .execWcommit 0x01, inCommand .execInvalid 0x02, inCommand .resp 0x00],
      Inv s ∧ s.host = [] := by
  intro s hs
  simp only [List.mem_cons, List.not_mem_nil, or_false] at hs
  rcases hs with rfl | rfl | rfl | rfl | rfl | rfl | rfl | rfl
  · exact ⟨inv_reset, rfl⟩
  · exact ⟨inv_hdr, rfl⟩
  · exact ⟨inv_execAlloc, rfl⟩
  · exact ⟨inv_execRead, rfl⟩
  · exact ⟨inv_execWrx, rfl⟩
  · exact ⟨inv_execWcommit, rfl⟩
  · exact ⟨inv_execInvalid, rfl⟩
  · exact ⟨inv_resp, rfl⟩

/-- OnlyWritesChangeDevice: a step that writes cell 0. -/
theorem test_wit_only_writes : Inv (inCommand .execWcommit 0x01) ∧ (inCommand .execWcommit 0x01).resetIn = none ∧
    (after (step (inCommand .execWcommit 0x01))).map (fun t => memRead t.mem 0) = some 0x5A ∧
    memRead (inCommand .execWcommit 0x01).mem 0 = 0x00 := ⟨inv_execWcommit, rfl, by decide +kernel, rfl⟩

/-- RespTouchesNoDevice. -/
theorem test_wit_resp : Inv (inCommand .resp 0x00) ∧ (inCommand .resp 0x00).host = [] ∧
    (inCommand .resp 0x00).resetIn = none ∧ (inCommand .resp 0x00).st = .resp ∧
    ∃ t, step (inCommand .resp 0x00) = .next t := ⟨inv_resp, rfl, rfl, rfl, ⟨_, rfl⟩⟩

/-- HostMoves: each move. -/
theorem test_wit_host_moves : ∀ m ∈ [HostMove.send [1], .accept none, .reset 0, .core], ∃ s : State, s.host = [m] :=
  fun m _ => ⟨{ State.reset with host := [m] }, rfl⟩

/-- NoRegisterIsReadUnwritten: registers that differ in HDR, and the index `k` in EXEC_READ, with no reset due and with
one. -/
theorem test_wit_unwritten : ∀ r ∈ [none, some 3],
    (Inv { atHdr [] with resetIn := r } ∧
      LiveEq { atHdr [] with resetIn := r } { atHdr [] with addr := 5, ract := 7, srShift := 9, resetIn := r } ∧
      ∃ t, step { atHdr [] with resetIn := r } = .next t) ∧
    (Inv { inCommand .execRead 0x00 with resetIn := r } ∧
      LiveEq { inCommand .execRead 0x00 with resetIn := r } { inCommand .execRead 0x00 with k := 3, resetIn := r } ∧
      ∃ t, step { inCommand .execRead 0x00 with resetIn := r } = .next t) := by
  intro r hr
  refine ⟨⟨inv_hdr.due r, ⟨rfl, fun _ e => absurd rfl e⟩, ?_⟩, ⟨inv_execRead.due r, ⟨rfl, fun _ _ => ⟨rfl, rfl, rfl,
      fun _ => ⟨rfl, fun _ => rfl⟩, fun _ => rfl, fun _ => ⟨rfl, rfl⟩⟩⟩, ?_⟩⟩
  · simp only [List.mem_cons, List.not_mem_nil, or_false] at hr
    rcases hr with rfl | rfl <;> exact ⟨_, rfl⟩
  · exact (runRead_meets { inCommand .execRead 0x00 with resetIn := r } _ ⟨rfl, rfl, rfl, rfl⟩ rfl rfl
      rfl).outcome.imp fun _ h => h.1

end Sys2Proof.Machine
end

section
/-! The agenda: what a step does by the head of `host` (R9, R69, R70, R262, R282; log entry 11). -/

namespace Sys2Proof.Machine

/-- With nothing left on the agenda every step is the CORE's. -/
theorem step_of_host_nil {s : State} (h : s.host = []) : step s = coreStep s := by
  simp [step, h]

/-- A turn of the CORE is taken off the agenda before the CORE steps. -/
theorem step_of_host_core {s : State} {agenda : List HostMove} (h : s.host = .core :: agenda) :
    step s = coreStep { s with host := agenda } := by
  simp [step, h]

/-- A move of the host or the platform is the whole step: the CORE does nothing in it. -/
theorem step_of_host_move {s : State} {m : HostMove} {agenda : List HostMove} (hm : m ≠ .core)
    (h : s.host = m :: agenda) : step s = .next (hostMove m { s with host := agenda }) := by
  cases m with
  | core => exact absurd rfl hm
  | send | accept | reset => simp [step, h]

/-- Settles O59: the three moves outside the CORE by `step_of_host_move`, the CORE's turn by `step_of_host_core`. -/
theorem hostMoves : Obligations.HostMoves := by
  intro s agenda
  refine ⟨fun bytes h => ?send, fun room h => ?accept, fun n h => ?reset, step_of_host_core⟩
  case send => exact step_of_host_move HostMove.noConfusion h
  case accept => exact step_of_host_move HostMove.noConfusion h
  case reset => exact step_of_host_move HostMove.noConfusion h

end Sys2Proof.Machine
end

section
/-! Power-on: the values the spec gives the machine (R47, R281). -/

namespace Sys2Proof.Machine

/-- Until the first strobe after a reset the outputs show the free word of that reset (R41; log entry 6). -/
theorem srOut_of_not_latched {s : State} (h : s.srLatched = false) : srOut s = Config.unlatchedWord s.resets := by
  simp [srOut, h]

/-- Settles O33: the registers stand in `State.powerOn` as written, and no strobe has loaded the outputs. -/
theorem powerOnValues : Obligations.PowerOnValues := by
  intro cfg mem0
  have hout : srOut (State.powerOn cfg mem0) = Config.unlatchedWord 0 := srOut_of_not_latched rfl
  exact ⟨_, rfl, rfl, rfl, rfl, rfl, rfl, rfl, rfl, rfl, rfl, rfl, rfl, rfl, rfl, hout⟩

end Sys2Proof.Machine
end

section
/-! The two status fields of a response (R31, R250): each command's own work leaves the resolved action, the size and
the clamped size in their registers, the response keeps them, and they say what the command was. -/

namespace Sys2Proof.Machine

/-! ## What the two fields say of a command -/

/-- The sentinel is resolved from every action but READ's and WRITE's (R26). -/
theorem resolvedAction_eq_invalidAct_iff (act : Byte) :
    resolvedAction act = Config.invalidAct ↔ act ≠ Config.actRead ∧ act ≠ Config.actWrite := by
  unfold resolvedAction
  split
  case isTrue h => rcases h with rfl | rfl <;> decide
  case isFalse h => exact iff_of_true rfl (not_or.mp h)

/-- The action byte of a well-formed INVALID row resolves to the sentinel: no row's block holds 0x00 or 0x01 (R93). -/
theorem resolvedAction_of_mem_invalidRows {act : Byte} {addr size : Half} {i : Instr}
    (hi : i ∈ invalidRows act addr size) (hwf : i.wf = true) : resolvedAction act = Config.invalidAct := by
  simp only [invalidRows, List.mem_cons, List.not_mem_nil, or_false] at hi
  rcases hi with rfl | rfl | rfl | rfl | rfl | rfl | rfl
  all_goals
    rw [Instr.wf] at hwf
    revert act
    decide

/-- The clamp cuts a range short exactly where the range has a byte and leaves the device (R250 `OUT_OF_RANGE`). -/
theorem clamp_lt_iff (addr size : Half) :
    (clamp addr size).toNat < size.toNat ↔ size ≠ 0 ∧ outOfRange addr size = true := by
  have hsize : size ≠ 0 ↔ size.toNat ≠ 0 := not_congr BitVec.toNat_inj.symm
  rw [clamp_toNat, hsize, outOfRange, decide_eq_true_iff, fits]
  omega

/-! ## The registers the fields are read from -/

/-- The registers `ract`, `size` and `rsize` of a command whose own work is done (R25 to R27). -/
structure StatusRegs (act : Byte) (addr size : Half) (t : State) : Prop where
  ract_eq : t.ract = resolvedAction act
  size_eq : t.size = size
  rsize_eq : t.rsize = clamp addr size

theorem StatusRegs.reportsInvalid_iff {act : Byte} {addr size : Half} {t : State} (h : StatusRegs act addr size t) :
    reportsInvalid t = true ↔ act ≠ Config.actRead ∧ act ≠ Config.actWrite := by
  rw [reportsInvalid, beq_iff_eq, h.ract_eq, resolvedAction_eq_invalidAct_iff]

theorem StatusRegs.reportsTruncation_iff {act : Byte} {addr size : Half} {t : State}
    (h : StatusRegs act addr size t) : reportsTruncation t = true ↔ size ≠ 0 ∧ outOfRange addr size = true := by
  rw [reportsTruncation, decide_eq_true_iff, h.rsize_eq, h.size_eq, clamp_lt_iff]

theorem statusRegs_readDone (addr size : Half) (s : State) :
    StatusRegs Config.actRead addr size (readDone (dispatchRead (entered Config.actRead addr size s))) := by
  obtain ⟨_, _, _, _, _, _, _, _, he⟩ := readDone_eq (dispatchRead (entered Config.actRead addr size s))
  rw [he]
  exact ⟨rfl, rfl, rfl⟩

theorem statusRegs_writeDone (addr size : Half) (s : State) :
    StatusRegs Config.actWrite addr size
      (writeDone (filled (dispatchWrite (entered Config.actWrite addr size s)))) := by
  obtain ⟨_, _, _, _, _, _, _, _, _, he⟩ :=
    writeDone_eq (filled (dispatchWrite (entered Config.actWrite addr size s)))
  rw [he]
  exact ⟨rfl, rfl, rfl⟩

theorem statusRegs_invalidDone {act : Byte} (addr size : Half) (s : State)
    (h : resolvedAction act = Config.invalidAct) :
    StatusRegs act addr size (invalidDone (dispatchInvalid (entered act addr size s))) :=
  ⟨h.symm, rfl, rfl⟩

/-! ## Commands that complete -/

/-- An arm with room for its whole response enters SYNC with the status registers its own work left (R209). -/
theorem Flow.Responds.completes {m : Flow Unit} {s d : State} {act : Byte} {addr size : Half} (h : m.Responds s d)
    (hr : s.resetIn = none) (hd : StatusRegs act addr size d)
    (hroom : accepts s (9 + fits addr.toNat size.toNat) = true) :
    ∃ t, m.outcome = .next t ∧ t.st = .sync ∧ StatusRegs act addr size t := by
  have hlen : d.rsize.toNat = fits addr.toNat size.toNat := by rw [hd.rsize_eq, clamp_toNat]
  exact ⟨responded d none, h.done hr (by rwa [hlen]), rfl, hd.ract_eq, hd.size_eq, hd.rsize_eq⟩

/-- The seven INVALID rows complete alike (R208). -/
theorem exec_invalid_completes {act : Byte} {addr size : Half} {i : Instr} {s : State}
    (hi : i ∈ invalidRows act addr size) (hwf : i.wf = true) (hr : s.resetIn = none) (hc : canAllocate s size)
    (hroom : accepts s (9 + fits addr.toNat size.toNat) = true) :
    ∃ t, exec i s = .next t ∧ t.st = .sync ∧ StatusRegs act addr size t := by
  rw [exec_invalid act addr size s i hi hc]
  exact (entered_invalid act addr size s).completes hr
    (statusRegs_invalidDone addr size s (resolvedAction_of_mem_invalidRows hi hwf)) hroom

/-- With its buffer, its payload and room for its response, every well-formed command completes (R206 to R208). -/
theorem exec_completes (i : Instr) (s : State) (hwf : i.wf = true) (hs : Ready s) (hc : canAllocate s i.count)
    (hroom : accepts s (9 + fits i.address.toNat i.count.toNat) = true)
    (hpay : i.action = Config.actWrite → i.count.toNat ≤ s.rx.length) :
    ∃ t, exec i s = .next t ∧ t.st = .sync ∧ StatusRegs i.action i.address i.count t := by
  obtain ⟨hquiet, hreset⟩ := hs
  cases i with
  | read addr size =>
    rw [exec_read addr size s hc]
    exact (entered_read addr size s hquiet).completes hreset (statusRegs_readDone addr size s) hroom
  | write addr size =>
    rw [exec_write addr size s hc]
    rcases entered_write addr size s hquiet with ⟨-, h⟩ | ⟨hshort, -⟩
    · exact h.completes hreset (statusRegs_writeDone addr size s) hroom
    · exact absurd (hpay rfl) (Nat.not_le.mpr hshort)
  | invalid02 | invalid04 | invalid08 | invalid10 | invalid20 | invalid40 | invalid80 =>
    exact exec_invalid_completes (by simp [invalidRows, Instr.action, Instr.address, Instr.count]) hwf hreset hc hroom

/-- Settles O48: every command completes with its status registers set, and the fields report what they hold. -/
theorem statusFields : Obligations.StatusFields := by
  intro i s hwf hs hc hroom hpay
  obtain ⟨t, hexec, hsync, hregs⟩ := exec_completes i s hwf hs hc hroom hpay
  exact ⟨t, hexec, hsync, hregs.ract_eq, hregs.reportsInvalid_iff, hregs.reportsTruncation_iff⟩

end Sys2Proof.Machine
end

section
/-! What one step can do to the device and to the streams (R61, R67, R69, R70): each arm of the CORE's step is taken
once, by what its procedure meets, and the whole step follows. -/

namespace Sys2Proof.Machine

/-! ## The effect on the device -/

/-- A WRITE stands in `t`, and the cells outside its clamped range stand as in `s` (R67, R207). -/
structure WroteRange (s t : State) : Prop where
  ract : t.ract = Config.actWrite
  rsize : t.rsize = clamp t.addr t.size
  cells : ∀ x, ¬ (t.addr.toNat ≤ x ∧ x < t.addr.toNat + t.rsize.toNat) → memRead t.mem x = memRead s.mem x

/-- The device is untouched, or a WRITE has committed its range. -/
def DeviceEffect (s t : State) : Prop := t.mem = s.mem ∨ WroteRange s t

/-- The device's cells and the registers of the command stand in `t` as in `d`. -/
structure Answers (d t : State) : Prop where
  mem : t.mem = d.mem
  ract : t.ract = d.ract
  addr : t.addr = d.addr
  size : t.size = d.size
  rsize : t.rsize = d.rsize

theorem Pushed.answers {s u : State} {more : List Byte} (h : Pushed s u more) : Answers s u := by
  obtain ⟨⟨_, _, _, -, rfl⟩, -, -, -⟩ := h
  exact ⟨rfl, rfl, rfl, rfl, rfl⟩

theorem responded_answers (s : State) (r : Option Nat) : Answers s (responded s r) := ⟨rfl, rfl, rfl, rfl, rfl⟩

/-- A response changes nothing of the effect its command had. -/
theorem DeviceEffect.answered {s d t : State} (h : DeviceEffect s d) (ha : Answers d t) : DeviceEffect s t := by
  obtain ⟨hmem, hract, haddr, hsize, hrsize⟩ := ha
  rcases h with h | ⟨h1, h2, h3⟩
  · exact .inl (hmem.trans h)
  · exact .inr ⟨hract.trans h1, by rw [hrsize, haddr, hsize, h2], by rw [hrsize, haddr, hmem]; exact h3⟩

/-- A change of registers only. -/
theorem Follows.of_eq {s u : State} (hcfg : u.cfg = s.cfg) (hhost : u.host = s.host) (hmem : u.mem = s.mem)
    (hrx : u.rx = s.rx) (htx : u.tx = s.tx) : Follows s u :=
  ⟨hcfg, hhost, fun w => hmem ▸ w, ⟨0, hrx⟩, htx ▸ List.prefix_refl _⟩

/-- What a step of the CORE can do: the streams, the parameters and the memory's form go on as `Follows` says, and with no
reset due the device is touched by a WRITE only. -/
structure Advances (s t : State) : Prop where
  follows : Follows s t
  device : s.resetIn = none → DeviceEffect s t

/-- A step that goes on from a state with the same cells. -/
theorem Advances.after {s s' t : State} (h : Advances s' t) (hf : Follows s s') (hm : s'.mem = s.mem)
    (hr : Later s s'.resetIn) : Advances s t := by
  refine ⟨hf.trans h.follows, fun hs => ?_⟩
  rcases h.device (hr hs) with he | ⟨h1, h2, h3⟩
  · exact .inl (he.trans hm)
  · exact .inr ⟨h1, h2, hm ▸ h3⟩

/-- Nothing is done to the device, whatever is due. -/
theorem Advances.of_mem {s t : State} (hf : Follows s t) (hm : t.mem = s.mem) : Advances s t := ⟨hf, fun _ => .inl hm⟩

theorem Pushed.advances {s u : State} {more : List Byte} (h : Pushed s u more) : Advances s u :=
  .of_mem h.follows h.answers.mem

/-! ## The ends of a procedure -/

/-- A procedure whose ends all advance makes a step that advances; a reset inside it has to be due. -/
theorem Flow.Meets.advances {α : Type} {m : Flow α} {s t : State}
    (h : m.Meets (fun _ u => Advances s u) (Advances s) (fun u => s.resetIn ≠ none ∧ Follows s u))
    (ht : m.outcome = .next t) : Advances s t := by
  obtain ⟨t', ht', hends⟩ := h.outcome
  obtain rfl : t' = t := Host.Outcome.next.inj (ht'.symm.trans ht)
  rcases hends with ⟨-, h⟩ | h | ⟨u, ⟨hdue, hu⟩, rfl⟩
  · exact h
  · exact h
  · exact ⟨hu.trans (platformReset_follows u), fun hs => absurd hs hdue⟩

/-- A command whose own work leaves `d`, whether its response completes, holds or is cut off by a reset. -/
theorem Flow.Responds.advances {m : Flow Unit} {s d t : State} (h : m.Responds s d) (hf : Follows s d)
    (hd : DeviceEffect s d) (ht : m.outcome = .next t) : Advances s t := by
  refine Flow.Meets.advances (h.mono ?ok ?wait fun _ h => h) ht
  case ok =>
    rintro - u ⟨-, r, -, rfl⟩
    exact ⟨hf.trans (responded_follows d r), fun _ => hd.answered (responded_answers d r)⟩
  case wait =>
    rintro u ⟨more, hp, -, -⟩
    exact ⟨hf.trans hp.follows, fun _ => hd.answered hp.answers⟩

/-! ## What each command's own work leaves -/

theorem readDone_keeps (s : State) : Keeps s (readDone s) := by
  obtain ⟨_, _, _, _, _, _, _, _, he⟩ := readDone_eq s
  rw [he]
  constructor <;> rfl

theorem writeDone_follows (s : State) : Follows s (writeDone s) := by
  obtain ⟨hcfg, hhost, hmem, hrx, htx⟩ :=
    writeMany_follows s.addr ((bufBytes s).take s.rsize.toNat) { s with k := 0 }
  exact ⟨hcfg, hhost, hmem, hrx, htx⟩

/-- The clamped size is the part of the range that lies in the device (R173). -/
theorem HasBuffer.rsize_toNat {s : State} (h : HasBuffer s) : s.rsize.toNat = fits s.addr.toNat s.size.toNat := by
  obtain ⟨_, -, -, -, hr⟩ := h
  rw [hr, clamp_toNat]

/-- The clamped size bounds a command's own buffer. -/
theorem HasBuffer.rsize_le {s : State} (h : HasBuffer s) : s.rsize.toNat ≤ (bufBytes s).length := by
  have hfit := h.rsize_toNat
  obtain ⟨b, hb, hl, -, -⟩ := h
  rw [bufBytes, hb, Option.getD_some, hl, hfit]
  exact Nat.min_le_left _ _

theorem HasBuffer.length_take {s : State} (h : HasBuffer s) :
    ((bufBytes s).take s.rsize.toNat).length = s.rsize.toNat := List.length_take_of_le h.rsize_le

/-- EXEC_WCOMMIT writes the payload's first `rsize` bytes to the cells from the address on, and no other cell (R207). -/
theorem writeDone_cells {s : State} (hm : Memory.wf s.mem) (hb : HasBuffer s) (x : Nat) :
    memRead (writeDone s).mem x =
      if s.addr.toNat ≤ x ∧ x < s.addr.toNat + s.rsize.toNat then
        ((bufBytes s).take s.rsize.toNat).getD (x - s.addr.toNat) 0
      else memRead s.mem x := by
  have hrange : (bufBytes s).take s.rsize.toNat = [] ∨
      s.addr.toNat + (0 : Half).toNat + ((bufBytes s).take s.rsize.toNat).length ≤ Config.cap := by
    rw [← List.length_eq_zero_iff, hb.length_take, hb.rsize_toNat, fits, Config.cap_eq]
    show _ ∨ s.addr.toNat + 0 + _ ≤ _
    omega
  have hcells := writeMany_mem s.addr ((bufBytes s).take s.rsize.toNat) { s with k := 0 } hm.1 hrange x
  rw [hb.length_take] at hcells
  exact hcells

theorem writeDone_wroteRange {s : State} (hm : Memory.wf s.mem) (hb : HasBuffer s) (ha : s.ract = Config.actWrite) :
    WroteRange s (writeDone s) := by
  have hcells := writeDone_cells hm hb
  obtain ⟨b, -, -, -, hr⟩ := hb
  have hregs : (writeDone s).ract = s.ract ∧ (writeDone s).addr = s.addr ∧ (writeDone s).size = s.size ∧
      (writeDone s).rsize = s.rsize := by
    obtain ⟨_, _, _, _, _, _, _, _, _, he⟩ := writeDone_eq s
    rw [he]
    exact ⟨rfl, rfl, rfl, rfl⟩
  obtain ⟨hract, haddr, hsize, hrsize⟩ := hregs
  refine ⟨hract.trans ha, by rw [hrsize, haddr, hsize, hr], fun x hx => ?_⟩
  rw [haddr, hrsize] at hx
  rw [hcells, if_neg hx]

theorem filled_follows (s : State) : Follows s (filled s) := ⟨rfl, rfl, id, ⟨_, rfl⟩, List.prefix_refl _⟩

/-- The buffer with the whole payload is still the command's own (R207). -/
theorem HasBuffer.filled {s : State} (h : HasBuffer s) (hi : s.i.toNat ≤ s.size.toNat)
    (hn : s.size.toNat - s.i.toNat ≤ s.rx.length) : HasBuffer (filled s) := by
  obtain ⟨b, hb, hl, ha, hr⟩ := h
  refine ⟨b.take s.i.toNat ++ s.rx.take (s.size.toNat - s.i.toNat) ++ b.drop (s.i.toNat + (s.size.toNat - s.i.toNat)),
    by simp [Machine.filled, collected, hb], ?_, ha, hr⟩
  show _ = s.size.toNat
  simp only [List.length_append, List.length_take, List.length_drop]
  omega

/-! ## The arms -/

theorem runRead_advances {s t : State} (hq : Quiet s) (hb : HasBuffer s) (ht : (runRead s).outcome = .next t) :
    Advances s t := by
  obtain ⟨b, hb, hl, -, hr⟩ := hb
  exact (runRead_meets s b hq hb hl hr).advances (readDone_keeps s).follows (.inl (readDone_keeps s).mem) ht

theorem runCommit_advances {s t : State} (hq : Quiet s) (hm : Memory.wf s.mem) (hb : HasBuffer s)
    (ha : s.ract = Config.actWrite) (ht : (runCommit s).outcome = .next t) : Advances s t := by
  have hwrote := writeDone_wroteRange hm hb ha
  obtain ⟨b, hb, hl, -, hr⟩ := hb
  exact (runCommit_meets s b hq hb hl hr).advances (writeDone_follows s) (.inr hwrote) ht

theorem runWrite_advances {s t : State} (hq : Quiet s) (hm : Memory.wf s.mem) (hb : HasBuffer s)
    (ha : s.ract = Config.actWrite) (hi : s.i.toNat ≤ s.size.toNat) (ht : (runWrite s).outcome = .next t) :
    Advances s t := by
  have hfilled := hb.filled hi
  obtain ⟨b, hb, hl, -, hr⟩ := hb
  rcases runWrite_meets s b hq hb hl hr hi with ⟨hpay, h⟩ | ⟨-, h⟩
  · obtain ⟨hract, hrsize, hcells⟩ := writeDone_wroteRange (s := filled s) hm (hfilled hpay) ha
    exact h.advances ((filled_follows s).trans (writeDone_follows _)) (.inr ⟨hract, hrsize, hcells⟩) ht
  · refine Flow.Meets.advances (h.mono (fun _ _ h => h.elim) ?_ fun _ h => h) ht
    rintro u ⟨r, -, rfl⟩
    obtain ⟨hcfg, hhost, hmem, hrx, htx⟩ := collected_follows s.rx.length s r
    exact .of_mem ⟨hcfg, hhost, hmem, hrx, htx⟩ rfl

theorem runInvalid_advances {s t : State} (hb : HasBuffer s) (ht : (runInvalid s).outcome = .next t) :
    Advances s t := by
  obtain ⟨b, hb, hl, -, hr⟩ := hb
  exact (runInvalid_meets s b hb hl hr).advances (.of_eq rfl rfl rfl rfl rfl) (.inl rfl) ht

theorem respStep_advances {s t : State} (h : RespReady s) (ht : (respStep s).outcome = .next t) : Advances s t := by
  refine Flow.Meets.advances ((respStep_meets s h).mono ?ok ?wait ?reset) ht
  case ok =>
    rintro - u ⟨-, r, -, rfl⟩
    exact .of_mem (responded_follows s r) rfl
  case wait =>
    rintro u ⟨more, hp, -, -⟩
    exact hp.advances
  case reset =>
    rintro u ⟨hdue, more, hp⟩
    exact ⟨hdue, hp.follows⟩

/-- An idle delay (R201, R202). -/
theorem advances_of_idle (s : State) (tr : List Event) (r : Option Nat) :
    Advances s { s with trace := tr, resetIn := r } := .of_mem (.of_eq rfl rfl rfl rfl rfl) rfl

theorem syncStep_advances {s t : State} (ht : (syncStep s).outcome = .next t) : Advances s t := by
  refine Flow.Meets.advances ((syncStep_meets s).mono ?ok ?wait ?reset) ht
  case ok =>
    rintro - u (⟨-, rfl⟩ | ⟨-, b, l, r, hrx, -, rfl⟩)
    · exact .of_mem (.of_eq rfl rfl rfl rfl rfl) rfl
    · exact .of_mem ⟨rfl, rfl, id, ⟨1, by rw [hrx]; rfl⟩, List.prefix_refl _⟩ rfl
  case wait =>
    rintro u ⟨-, -, r, -, rfl⟩
    exact advances_of_idle s _ r
  case reset =>
    rintro u ⟨hdue, rfl⟩
    exact ⟨hdue, .refl u⟩

/-! ## A whole command, and the step -/

/-- A command, from its five bytes on: the abort, or its arm (R203 to R205). -/
theorem exec_advances (i : Instr) {s t : State} (hq : Quiet s) (hm : Memory.wf s.mem) (ht : exec i s = .next t) :
    Advances s t := by
  by_cases hc : canAllocate s i.count
  · have hb := fun act => hasBuffer_entered act i.address i.count s hc
    rcases instr_cases i with hi | hi | hi
    · rw [hi, exec_read _ _ s hc] at ht
      have h := runRead_advances (s := dispatchRead (entered _ _ _ s)) hq (hb _) ht
      exact h.after (.of_eq rfl rfl rfl rfl rfl) rfl (Later.refl s)
    · rw [hi, exec_write _ _ s hc] at ht
      have h := runWrite_advances (s := dispatchWrite (entered _ _ _ s)) hq hm (hb _) rfl (Nat.zero_le _) ht
      exact h.after (.of_eq rfl rfl rfl rfl rfl) rfl (Later.refl s)
    · rw [exec_invalid _ _ _ s i hi hc] at ht
      have h := runInvalid_advances (s := dispatchInvalid (entered _ _ _ s)) (hb _) ht
      exact h.after (.of_eq rfl rfl rfl rfl rfl) rfl (Later.refl s)
  · rw [exec_abort i s hc] at ht
    obtain rfl := Host.Outcome.next.inj ht
    exact .of_mem (.of_eq rfl rfl rfl rfl rfl) rfl

/-- HDR and the command it fetches (R202). -/
theorem runFetched_advances {s t : State} (hq : Quiet s) (hm : Memory.wf s.mem)
    (ht : runFetched (hdrStep s) = .next t) : Advances s t := by
  have h := hdrStep_meets s
  generalize hdrStep s = m at h ht
  cases m with
  | ok i u =>
    obtain ⟨_, _, _, _, _, l, r, hrx, hr, -, rfl⟩ := h
    exact (exec_advances i (s := { s with rx := l, resetIn := r }) hq hm ht).after
      ⟨rfl, rfl, id, ⟨5, by rw [hrx]; rfl⟩, List.prefix_refl _⟩ rfl hr
  | wait u =>
    obtain ⟨-, r, -, rfl⟩ := h
    obtain rfl := Host.Outcome.next.inj ht
    exact advances_of_idle s _ r
  | reset u =>
    obtain ⟨hdue, rfl⟩ := h
    obtain rfl := Host.Outcome.next.inj ht
    exact ⟨platformReset_follows u, fun hs => absurd hs hdue⟩
  | fault f => exact h.elim

/-- What the invariant says of RESP's registers. -/
theorem Inv.respReady {s : State} (h : Inv s) (hst : s.st = .resp) : RespReady s := by
  have hseq := h.seq
  rw [SeqInv, hst] at hseq
  obtain ⟨hb, -, hpos, hj, hfresh⟩ := hseq
  exact ⟨hb.rsize_le, hpos, hj, hfresh⟩

theorem coreStep_advances {s t : State} (h : Inv s) (ht : coreStep s = .next t) : Advances s t := by
  have hseq := h.seq
  unfold coreStep at ht
  unfold SeqInv at hseq
  cases hst : s.st with
  | sync => rw [hst] at ht; exact syncStep_advances ht
  | hdr => rw [hst] at ht; exact runFetched_advances h.quiet h.mem ht
  | execAlloc => rw [hst] at ht; exact exec_advances _ h.quiet h.mem ht
  | execRead =>
    rw [hst] at ht hseq
    obtain ⟨hb, -, -⟩ := hseq
    exact runRead_advances h.quiet hb ht
  | execWrx =>
    rw [hst] at ht hseq
    obtain ⟨hb, -, hact, hi⟩ := hseq
    exact runWrite_advances h.quiet h.mem hb hact hi ht
  | execWcommit =>
    rw [hst] at ht hseq
    obtain ⟨hb, -, hact⟩ := hseq
    exact runCommit_advances h.quiet h.mem hb hact ht
  | execInvalid =>
    rw [hst] at ht hseq
    obtain ⟨hb, -⟩ := hseq
    exact runInvalid_advances hb ht
  | resp => rw [hst] at ht; exact respStep_advances (h.respReady hst) ht

/-- A step is a step of the CORE, its turn taken off the agenda, or a move of the host or the platform. -/
theorem step_cases {s t : State} (ht : step s = .next t) :
    (∃ agenda, coreStep { s with host := agenda } = .next t) ∨
      ∃ m agenda, m ≠ HostMove.core ∧ s.host = m :: agenda ∧ t = hostMove m { s with host := agenda } := by
  cases hh : s.host with
  | nil => exact .inl ⟨s.host, (step_of_host_nil hh).symm.trans ht⟩
  | cons m agenda =>
    by_cases hm : m = .core
    · subst hm
      exact .inl ⟨agenda, (step_of_host_core hh).symm.trans ht⟩
    · exact .inr ⟨m, agenda, hm, rfl, Host.Outcome.next.inj (ht.symm.trans (step_of_host_move hm hh))⟩

/-- The agenda is no part of the invariant. -/
theorem Inv.set_host {s : State} (h : Inv s) (agenda : List HostMove) : Inv { s with host := agenda } :=
  ⟨h.mem, h.cfg, h.quiet, h.bus, h.rsvd, h.seq⟩

theorem hostMove_mem (m : HostMove) (s : State) : (hostMove m s).mem = s.mem := by cases m <;> rfl
theorem hostMove_tx (m : HostMove) (s : State) : (hostMove m s).tx = s.tx := by cases m <;> rfl
theorem hostMove_cfg (m : HostMove) (s : State) : (hostMove m s).cfg = s.cfg := by cases m <;> rfl

/-- Settles O55: a move of the host touches no cell, and a step of the CORE has the `DeviceEffect` of a WRITE, whose
range holds the cell that changed. -/
theorem onlyWritesChangeDevice : Obligations.OnlyWritesChangeDevice := by
  intro s t x hinv hr ht hx
  rcases step_cases ht with ⟨agenda, hcore⟩ | ⟨m, agenda, -, -, rfl⟩
  · rcases (coreStep_advances (hinv.set_host agenda) hcore).device hr with hmem | ⟨hract, hrsize, hcells⟩
    · exact absurd (by rw [hmem]) hx
    · obtain ⟨hlo, hhi⟩ := not_not.mp (mt (hcells x) hx)
      exact ⟨hract, hrsize, hlo, hhi⟩
  · exact absurd (by rw [hostMove_mem]) hx

/-- Settles O56: a step of the CORE goes on as `Follows` says, and of the host's moves only `send` touches a stream. -/
theorem streamsAreFifos : Obligations.StreamsAreFifos := by
  intro s t hinv ht
  rcases step_cases ht with ⟨agenda, hcore⟩ | ⟨m, agenda, hm, hh, rfl⟩
  · obtain ⟨hcfg, -, -, hrx, htx⟩ := (coreStep_advances (hinv.set_host agenda) hcore).follows
    exact ⟨.inl hrx, htx, hcfg⟩
  · refine ⟨?_, by rw [hostMove_tx], hostMove_cfg m _⟩
    cases m with
    | send bytes => exact .inr ⟨bytes, agenda, hh, rfl⟩
    | accept | reset => exact .inl ⟨0, rfl⟩
    | core => exact absurd rfl hm

end Sys2Proof.Machine
end

section
/-! Events of a machine with no platform reset due, and what each reaction of the device then is (R7, R62 to R65, R121). -/

namespace Sys2Proof.Machine

theorem tick_none {s : State} (hr : s.resetIn = none) : tick s = .ok () s := by rw [tick, hr]

theorem drive_none {s : State} (hr : s.resetIn = none) (l : Line) (x : Bool) :
    drive l x s = setLine l x (record (.drive l x) s) := by rw [drive, tick_none hr, Flow.bind_ok]

theorem sample_none {s : State} (hr : s.resetIn = none) : sample s = busRead (record .sample s) := by
  rw [sample, tick_none hr, Flow.bind_ok]

/-- `WE_N` high already: no edge (R65). -/
theorem setLine_weN_level (s : State) (hw : s.weN = true) : setLine .weN true s = .ok () s := by
  rw [setLine, if_neg (by simp [hw]), ← hw]

/-- A strobe inside a write pulse (R121). -/
theorem setLine_srLatch_busy (s : State) (hl : s.srLatch = false) (hw : s.weN = false) :
    setLine .srLatch true s = .fault (.addressChangedDuringWrite (srAddr s)) := by
  simp [setLine, hl, onLatchRise, hw, srAddr, srOut]

/-- The device drives the lines while its write cycle runs (R62). -/
theorem busRead_busy (s : State) (hd : s.dDir = .input) (hq : srDir s = false) (hb : s.wcBusy = true) :
    busRead s = .fault (.writeCycleViolation (srAddr s)) := by
  rw [busRead, hd, hq, hb]
  rfl

/-- Neither side drives the lines, or both do (R63, R64). -/
theorem busRead_free (s : State) (h : s.dDir = .input ∧ srDir s = true ∨ s.dDir = .output ∧ srDir s = false) :
    busRead s = drawBus s := by
  rcases h with ⟨hd, hq⟩ | ⟨hd, hq⟩ <;> rw [busRead, hd, hq]

/-- Only the CORE drives the lines (R38). -/
theorem busRead_own (s : State) (hd : s.dDir = .output) (hq : srDir s = true) : busRead s = .ok s.dOut s := by
  rw [busRead, hd, hq]

/-- Settles O20: the edge is `onWeRise`, whose branches are the checks in their order. -/
theorem writeCommitChecksInOrder : Obligations.WriteCommitChecksInOrder := by
  intro s hr
  refine ⟨fun hw => ?edge, fun hw => ?level, fun hw hl => ?strobe⟩
  case edge => exact (drive_none hr .weN true).trans (setLine_weN_rise (record _ s) hw)
  case level => exact (drive_none hr .weN true).trans (setLine_weN_level (record _ s) hw)
  case strobe => exact (drive_none hr .srLatch true).trans (setLine_srLatch_busy (record _ s) hl hw)

/-- Settles O21: the device drives the lines, busy or idle. -/
theorem sampleReadsTheCell : Obligations.SampleReadsTheCell := by
  intro s hr hd hq
  refine ⟨fun hb => ?busy, fun hb => ?idle⟩
  case busy => exact (sample_none hr).trans (busRead_busy (record _ s) hd hq hb)
  case idle => exact (sample_none hr).trans (busRead_device (record _ s) hd hq hb)

/-- Settles O22: a free value where neither or both drive the lines, the CORE's own level where it alone does. -/
theorem sampleOffTheDeviceIsFree : Obligations.SampleOffTheDeviceIsFree := by
  intro s hr
  refine ⟨fun h => ?free, fun hd hq => ?own⟩
  case free => exact (sample_none hr).trans (busRead_free (record _ s) h)
  case own => exact (sample_none hr).trans (busRead_own (record _ s) hd hq)

/-! ## Buffer and transport -/

theorem rxPop_nil {s : State} (h : s.rx = []) : rxPop s = .fault .rxUnderflow := by rw [rxPop, h]

/-- Past the buffer's end, and with no buffer at every index (R68; log entry 14). -/
theorem bufRead_overrun {s : State} {n : Nat} (h : (bufBytes s).length ≤ n) : bufRead n s = .fault .bufferOverrun := by
  rw [bufRead, List.getElem?_eq_none h]

theorem bufWrite_overrun {s : State} {n : Nat} (v : Byte) (h : (bufBytes s).length ≤ n) :
    bufWrite n v s = .fault .bufferOverrun := if_neg (Nat.not_lt.mpr h)

theorem bufRead_ok {s : State} {b : List Byte} (hb : s.buf = some b) {n : Nat} (h : n < b.length) :
    bufRead n s = .ok b[n] s := by
  rw [bufRead, bufBytes, hb, Option.getD_some, List.getElem?_eq_getElem h]

/-- Settles O24: the buffer's length, 0 where there is none, decides between the access and the fault. -/
theorem bufferAndTransportFaults : Obligations.BufferAndTransportFaults := by
  intro s n v
  refine ⟨rxPop_nil, fun hnone => ?none, fun b hb => ⟨fun hn => ?past, fun hn => ?inside⟩⟩
  case none =>
    have hlen : (bufBytes s).length ≤ n := by rw [bufBytes, hnone]; exact Nat.zero_le n
    exact ⟨bufRead_overrun hlen, bufWrite_overrun v hlen⟩
  case past =>
    have hlen : (bufBytes s).length ≤ n := by rw [bufBytes, hb]; exact hn
    exact ⟨bufRead_overrun hlen, bufWrite_overrun v hlen⟩
  case inside => exact ⟨bufRead_ok hb hn, bufWrite_ok hb hn⟩

end Sys2Proof.Machine
end

section
/-! A response whose push is held, and how it goes on (R70, R209, R212; log entry 12). -/

namespace Sys2Proof.Machine

theorem step_resp {s : State} (hh : s.host = []) (hst : s.st = .resp) : step s = (respStep s).outcome := by
  rw [step_of_host_nil hh, coreStep, hst]

/-- With room for `n` bytes of a longer response, a step pushes just these and holds. -/
theorem respStep_holds {s : State} {n : Nat} (h : RespReady s) (hr : s.resetIn = none) (hroom : s.txRoom = some n)
    (hn : n < (remaining s).length) :
    ∃ t, (respStep s).outcome = .next t ∧ Pushed s t ((remaining s).take n) := by
  have hacc : ∀ m, accepts s m = decide (m ≤ n) := fun m => by rw [accepts, hroom]
  obtain ⟨t, ht, ⟨-, hall, -⟩ | ⟨more, hp, -, hfull⟩ | ⟨u, ⟨hdue, -⟩, -⟩⟩ := (respStep_meets s h).outcome
  · rw [hacc, decide_eq_true_iff] at hall
    exact absurd hn (Nat.not_lt.mpr hall)
  · have hlen : more.length = n := by
      have hle := hp.room
      rw [hacc, decide_eq_true_iff] at hle
      rw [hacc, decide_eq_false_iff_not] at hfull
      omega
    have hmore : (remaining s).take n = more := by rw [← hp.rest, ← hlen, List.take_left]
    exact ⟨t, ht, hmore ▸ hp⟩
  · exact absurd hr hdue

theorem accepts_of_unbounded {s : State} (h : s.txRoom = none) (n : Nat) : accepts s n = true := by rw [accepts, h]

/-- A channel that accepts every byte takes the whole response in one step (R209). -/
theorem respStep_completes {s : State} (h : RespReady s) (hr : s.resetIn = none) (hroom : s.txRoom = none) :
    (respStep s).outcome = .next (responded s none) := by
  obtain ⟨t, ht, ⟨-, -, r, hlater, rfl⟩ | ⟨more, -, -, hfull⟩ | ⟨u, ⟨hdue, -⟩, -⟩⟩ := (respStep_meets s h).outcome
  · rw [ht, hlater hr]
  · exact absurd (accepts_of_unbounded hroom _) (Bool.eq_false_iff.mp hfull)
  · exact absurd hr hdue

/-- Settles O45: the step pushes the `n` bytes there is room for and holds; what is left of the response is its rest, which
the next step pushes. -/
theorem heldPushResumes : Obligations.HeldPushResumes := by
  intro s n hinv hst hh hr hroom hn
  obtain ⟨t, ht, ⟨pos, jj, r, hlater, rfl⟩, hrest, ⟨hlen, hpos, hj, hfresh⟩, -⟩ :=
    respStep_holds (hinv.respReady hst) hr hroom hn
  have htake : ((remaining s).take n).length = n := by rw [List.length_take, Nat.min_eq_left (Nat.le_of_lt hn)]
  generalize hmore : (remaining s).take n = more at *
  have hnext := respStep_completes
    (s := { s with tx := s.tx ++ more, txRoom := none, respPos := pos, j := jj, resetIn := r })
    ⟨hlen, hpos, hj, hfresh⟩ (hlater hr) rfl
  refine ⟨_, _, (step_resp hh hst).trans ht, hst, rfl, ?_, (step_resp (by exact hh) (by exact hst)).trans hnext, rfl, ?_,
    rfl⟩
  · show roomAfter s more.length = some 0
    rw [htake, roomAfter, hroom, Option.map_some, Nat.sub_self]
  · exact (List.append_assoc _ _ _).trans (congrArg (s.tx ++ ·) hrest)

end Sys2Proof.Machine
end

section
/-! A READ after a WRITE (R76): what each command leaves and answers when it runs to its end (R206, R207, R209). -/

namespace Sys2Proof.Machine

/-! ## The answer of a command whose work is done -/

/-- A response of which nothing is pushed yet is the whole frame (R96, R209). -/
theorem remaining_eq_responseFrame {d : State} (hpos : d.respPos = 0) (hj : d.j = 0) :
    remaining d = responseFrame d.ract d.addr d.rsize ((bufBytes d).take d.rsize.toNat) := by
  rw [remaining, hpos, hj]
  rfl

/-- An arm with room for its whole response, as an equation (R209). -/
theorem Flow.Responds.outcome_eq {m : Flow Unit} {s d : State} {act : Byte} {addr size : Half} (h : m.Responds s d)
    (hr : s.resetIn = none) (hd : StatusRegs act addr size d)
    (hroom : accepts s (9 + fits addr.toNat size.toNat) = true) : m.outcome = .next (responded d none) :=
  h.done hr (by rwa [hd.rsize_eq, clamp_toNat])

/-! ## WRITE -/

/-- EXEC_WCOMMIT of a WRITE whose whole payload waits (R207). -/
def writeFilled (addr size : Half) (s : State) : State :=
  filled (dispatchWrite (entered Config.actWrite addr size s))

theorem exec_write_eq (addr size : Half) {s : State} (hs : Ready s) (hc : canAllocate s size)
    (hroom : accepts s (9 + fits addr.toNat size.toNat) = true) (hpay : size.toNat ≤ s.rx.length) :
    exec (.write addr size) s = .next (responded (writeDone (writeFilled addr size s)) none) := by
  obtain ⟨hquiet, hreset⟩ := hs
  rw [exec_write addr size s hc]
  rcases entered_write addr size s hquiet with ⟨-, h⟩ | ⟨hshort, -⟩
  · exact h.outcome_eq hreset (statusRegs_writeDone addr size s) hroom
  · exact absurd hpay (Nat.not_le.mpr hshort)

theorem hasBuffer_writeFilled (addr size : Half) {s : State} (hc : canAllocate s size)
    (hpay : size.toNat ≤ s.rx.length) : HasBuffer (writeFilled addr size s) :=
  HasBuffer.filled (s := dispatchWrite (entered Config.actWrite addr size s))
    (hasBuffer_entered Config.actWrite addr size s hc) (Nat.zero_le _) hpay

/-- The buffer is the payload (R207). -/
theorem bufBytes_writeFilled (addr size : Half) {s : State} {payload rest : List Byte}
    (hlen : payload.length = size.toNat) (hrx : s.rx = payload ++ rest) :
    bufBytes (writeFilled addr size s) = payload := by
  have hbuf : bufBytes (writeFilled addr size s) =
      (List.replicate size.toNat 0).take 0 ++ s.rx.take size.toNat ++ (List.replicate size.toNat 0).drop (0 + size.toNat) :=
    rfl
  rw [hbuf, hrx, ← hlen, List.take_left, List.drop_eq_nil_of_le (by simp)]
  simp

theorem bufBytes_writeDone (s : State) : bufBytes (writeDone s) = bufBytes s := by
  obtain ⟨_, _, _, _, _, _, _, _, _, he⟩ := writeDone_eq s
  rw [he]
  rfl

theorem writeDone_quiet {s : State} (h : Quiet s) : Quiet (writeDone s) :=
  writeMany_quiet s.addr ((bufBytes s).take s.rsize.toNat) { s with k := 0 } h

theorem writeDone_tx (s : State) : (writeDone s).tx = s.tx := by
  obtain ⟨_, _, _, _, _, _, _, _, _, he⟩ := writeDone_eq s
  rw [he]

theorem writeDone_txRoom (s : State) : (writeDone s).txRoom = s.txRoom := by
  obtain ⟨_, _, _, _, _, _, _, _, _, he⟩ := writeDone_eq s
  rw [he]

/-- The cells of the range hold the bytes committed, one by one (R171, R207). -/
theorem deviceBytes_writeDone {s : State} (hm : Memory.wf s.mem) (hb : HasBuffer s) :
    deviceBytes (writeDone s).mem s.addr.toNat s.rsize.toNat = (bufBytes s).take s.rsize.toNat := by
  refine List.ext_getElem (by rw [deviceBytes_length, hb.length_take]) fun n hn hn' => ?_
  rw [deviceBytes_length] at hn
  have hcell := writeDone_cells hm hb (s.addr.toNat + n)
  rw [if_pos (by omega), Nat.add_sub_cancel_left, List.getD_eq_getElem _ _ hn'] at hcell
  rw [← hcell]
  simp [deviceBytes]

/-- WRITE's echo is the part of the payload written (R207, R209). -/
theorem responded_writeFilled_tx (addr size : Half) {s : State} {payload rest : List Byte}
    (hlen : payload.length = size.toNat) (hrx : s.rx = payload ++ rest) :
    (responded (writeDone (writeFilled addr size s)) none).tx =
      s.tx ++ responseFrame Config.actWrite addr (clamp addr size) (payload.take (clamp addr size).toNat) := by
  have haddr : (writeDone (writeFilled addr size s)).addr = addr := by
    obtain ⟨_, _, _, _, _, _, _, _, _, he⟩ := writeDone_eq (writeFilled addr size s)
    rw [he]
    rfl
  have hregs : StatusRegs Config.actWrite addr size (writeDone (writeFilled addr size s)) :=
    statusRegs_writeDone addr size s
  show (writeDone (writeFilled addr size s)).tx ++ remaining _ = _
  rw [remaining_eq_responseFrame rfl rfl, hregs.ract_eq, hregs.rsize_eq, haddr, bufBytes_writeDone,
    bufBytes_writeFilled addr size hlen hrx, writeDone_tx]
  rfl

/-- A WRITE whose payload waits, on a channel that accepts every byte: it answers, the range's cells hold the payload,
and the machine is ready for the next command. -/
theorem exec_write_answers (addr size : Half) {payload rest : List Byte} {s : State} (hs : Ready s)
    (hm : Memory.wf s.mem) (hc : canAllocate s size) (hroom : s.txRoom = none) (hlen : payload.length = size.toNat)
    (hrx : s.rx = payload ++ rest) :
    ∃ t, exec (.write addr size) s = .next t ∧
      t.tx = s.tx ++
        responseFrame Config.actWrite addr (clamp addr size) (payload.take (clamp addr size).toNat) ∧
      deviceBytes t.mem addr.toNat (clamp addr size).toNat = payload.take (clamp addr size).toNat ∧
      Ready t ∧ t.cfg = s.cfg ∧ t.txRoom = none := by
  have hpay : size.toNat ≤ s.rx.length := by rw [hrx, List.length_append, hlen]; exact Nat.le_add_right _ _
  have hcells := deviceBytes_writeDone (s := writeFilled addr size s) hm (hasBuffer_writeFilled addr size hc hpay)
  rw [bufBytes_writeFilled addr size hlen hrx] at hcells
  have hquiet : Quiet (writeDone (writeFilled addr size s)) := writeDone_quiet hs.1
  have hcfg : (writeDone (writeFilled addr size s)).cfg = s.cfg := (writeDone_follows _).cfg
  have hunbounded : (writeDone (writeFilled addr size s)).txRoom = none := (writeDone_txRoom _).trans hroom
  refine ⟨_, exec_write_eq addr size hs hc (accepts_of_unbounded hroom _) hpay, responded_writeFilled_tx addr size hlen hrx,
    hcells, ⟨hquiet, rfl⟩, hcfg, ?_⟩
  show (writeDone (writeFilled addr size s)).txRoom.map _ = none
  rw [hunbounded]
  rfl

/-! ## READ -/

/-- The payload of READ's response is what the cells of the range hold (R206). -/
theorem bufBytes_readDone {s : State} (hb : HasBuffer s) :
    (bufBytes (readDone s)).take s.rsize.toNat = deviceBytes s.mem s.addr.toNat s.rsize.toNat := by
  have hle := hb.rsize_le
  have hfit := hb.rsize_toNat
  obtain ⟨b, hb, hl, -, -⟩ := hb
  have hsize := s.size.isLt
  rw [bufBytes, hb, Option.getD_some] at hle
  have hrange : s.rsize.toNat = 0 ∨ s.addr.toNat + 0 + s.rsize.toNat ≤ Config.cap := by
    rw [hfit, fits]
    omega
  have hbuf : (readDone s).buf = _ := readMany_buf s.rsize.toNat s.addr { s with k := 0 } b hb
    (by show 0 + _ ≤ _; omega) (by omega) hrange
  rw [bufBytes, hbuf, Option.getD_some, List.append_assoc]
  exact List.take_left' (deviceBytes_length _ _ _)

/-- EXEC_READ of a READ that has its buffer (R203, R206). -/
def readEntered (addr size : Half) (s : State) : State := dispatchRead (entered Config.actRead addr size s)

theorem exec_read_eq (addr size : Half) {s : State} (hs : Ready s) (hc : canAllocate s size)
    (hroom : accepts s (9 + fits addr.toNat size.toNat) = true) :
    exec (.read addr size) s = .next (responded (readDone (readEntered addr size s)) none) := by
  obtain ⟨hquiet, hreset⟩ := hs
  rw [exec_read addr size s hc]
  exact (entered_read addr size s hquiet).outcome_eq hreset (statusRegs_readDone addr size s) hroom

/-- READ's response is the range's cells under the frame's header (R206, R209). -/
theorem responded_readEntered_tx (addr size : Half) {s : State} (hc : canAllocate s size) :
    (responded (readDone (readEntered addr size s)) none).tx =
      s.tx ++ responseFrame Config.actRead addr (clamp addr size)
        (deviceBytes s.mem addr.toNat (clamp addr size).toNat) := by
  have haddr : (readDone (readEntered addr size s)).addr = addr := by
    obtain ⟨_, _, _, _, _, _, _, _, he⟩ := readDone_eq (readEntered addr size s)
    rw [he]
    rfl
  have hregs : StatusRegs Config.actRead addr size (readDone (readEntered addr size s)) :=
    statusRegs_readDone addr size s
  have hbuf : (bufBytes (readDone (readEntered addr size s))).take (clamp addr size).toNat =
      deviceBytes s.mem addr.toNat (clamp addr size).toNat :=
    bufBytes_readDone (s := readEntered addr size s) (hasBuffer_entered Config.actRead addr size s hc)
  show (readDone (readEntered addr size s)).tx ++ remaining _ = _
  rw [remaining_eq_responseFrame rfl rfl, hregs.ract_eq, hregs.rsize_eq, haddr, hbuf, (readDone_keeps _).tx]
  rfl

/-! ## READ after WRITE -/

/-- Settles O47: WRITE leaves the payload in the cells of the clamped range and the machine ready, and READ answers with
what these cells hold. -/
theorem writeThenReadReturnsPayload : Obligations.WriteThenReadReturnsPayload := by
  intro addr size payload rest s hs hm hc hroom hlen hrx
  obtain ⟨t, hwrite, hwtx, hcells, hready, hcfg, hroom'⟩ := exec_write_answers addr size hs hm hc hroom hlen hrx
  have hc' : canAllocate t size := by rwa [canAllocate, hcfg]
  refine ⟨t, _, hwrite, exec_read_eq addr size hready hc' (accepts_of_unbounded hroom' _), ?_⟩
  rw [responded_readEntered_tx addr size hc', hwtx, hcells]
  rfl

end Sys2Proof.Machine
end

section
/-! The frame's encoding (R90 to R94): each action byte has one row, and the fixed bytes and the opcode table's word
carry one command's fields. -/

namespace Sys2Proof

/-! ## Action blocks -/

/-- Two blocks whose patterns differ in a bit that both fix share no byte (R93). -/
theorem not_inBlock_of_inBlock {mask pattern mask' pattern' act : Byte} (h : inBlock mask pattern act = true)
    (hne : pattern &&& mask' ≠ pattern' &&& mask) : inBlock mask' pattern' act = false := by
  simp only [inBlock, beq_iff_eq, beq_eq_false_iff_ne] at h ⊢
  rintro rfl
  apply hne
  rw [← h, BitVec.and_assoc, BitVec.and_assoc, BitVec.and_comm mask]

/-- A byte that lacks a block's fixed bits is none of its bytes. -/
theorem ne_of_inBlock {mask pattern act b : Byte} (h : inBlock mask pattern act = true) (hb : b &&& mask ≠ pattern) :
    act ≠ b := by
  rintro rfl
  exact hb (by simpa [inBlock] using h)

/-! ## The command an action byte selects -/

/-- A well-formed command is the one its own action byte selects: no earlier row's block holds that byte. -/
theorem decodeCommand_of_wf {i : Instr} (h : i.wf = true) : decodeCommand i.action i.address i.count = i := by
  cases i with
  | read | write => rfl
  | invalid02 act addr size | invalid04 act addr size | invalid08 act addr size | invalid10 act addr size
  | invalid20 act addr size | invalid40 act addr size | invalid80 act addr size =>
    replace h : inBlock _ _ act = true := h
    simp +decide only [decodeCommand, Instr.action, Instr.address, Instr.count, ne_of_inBlock h,
      not_inBlock_of_inBlock h, h, if_true, if_false]

/-- Every action byte, address and size are those of a well-formed command (R93, R94). -/
theorem exists_wf_command (act : Byte) (addr size : Half) :
    ∃ i : Instr, i.wf = true ∧ i.action = act ∧ i.address = addr ∧ i.count = size := by
  rcases action_blocks act with rfl | rfl | h | h | h | h | h | h | h
  · exact ⟨.read addr size, rfl, rfl, rfl, rfl⟩
  · exact ⟨.write addr size, rfl, rfl, rfl, rfl⟩
  · exact ⟨.invalid02 act addr size, h, rfl, rfl, rfl⟩
  · exact ⟨.invalid04 act addr size, h, rfl, rfl, rfl⟩
  · exact ⟨.invalid08 act addr size, h, rfl, rfl, rfl⟩
  · exact ⟨.invalid10 act addr size, h, rfl, rfl, rfl⟩
  · exact ⟨.invalid20 act addr size, h, rfl, rfl, rfl⟩
  · exact ⟨.invalid40 act addr size, h, rfl, rfl, rfl⟩
  · exact ⟨.invalid80 act addr size, h, rfl, rfl, rfl⟩

/-- The command selected is well-formed and has the fields it was selected by. -/
theorem decodeCommand_fields (act : Byte) (addr size : Half) :
    (decodeCommand act addr size).wf = true ∧ (decodeCommand act addr size).action = act ∧
      (decodeCommand act addr size).address = addr ∧ (decodeCommand act addr size).count = size := by
  obtain ⟨i, hwf, rfl, rfl, rfl⟩ := exists_wf_command act addr size
  rw [decodeCommand_of_wf hwf]
  exact ⟨hwf, rfl, rfl, rfl⟩

/-- Among the commands with given operands, the one selected is the only well-formed one with the action byte. -/
theorem wf_and_action_iff_eq_decodeCommand (act : Byte) (i : Instr) :
    i.wf = true ∧ i.action = act ↔ i = decodeCommand act i.address i.count := by
  constructor
  · rintro ⟨hwf, rfl⟩
    exact (decodeCommand_of_wf hwf).symm
  · intro h
    obtain ⟨hwf, hact, -, -⟩ := decodeCommand_fields act i.address i.count
    rw [h]
    exact ⟨hwf, hact⟩

namespace Machine

/-- The rows of the opcode table (R93), one command each. -/
def commandRows (act : Byte) (addr size : Half) : List Instr :=
  .read addr size :: .write addr size :: invalidRows act addr size

theorem nodup_commandRows (act : Byte) (addr size : Half) : (commandRows act addr size).Nodup := by
  simp [commandRows, invalidRows]

theorem operands_of_mem_commandRows {act : Byte} {addr size : Half} {i : Instr} (h : i ∈ commandRows act addr size) :
    i.address = addr ∧ i.count = size := by
  simp only [commandRows, invalidRows, List.mem_cons, List.not_mem_nil, or_false] at h
  rcases h with rfl | rfl | rfl | rfl | rfl | rfl | rfl | rfl | rfl <;> exact ⟨rfl, rfl⟩

theorem decodeCommand_mem_commandRows (act : Byte) (addr size : Half) :
    decodeCommand act addr size ∈ commandRows act addr size := by
  obtain ⟨-, hact, haddr, hcount⟩ := decodeCommand_fields act addr size
  have h := instr_cases (decodeCommand act addr size)
  rw [hact, haddr, hcount] at h
  simpa [commandRows] using h

/-- Settles O3: a row passes the filter just when it is the command selected, which is one of the rows, none of which is
there twice. -/
theorem everyActionSelectsOneCommand : Obligations.EveryActionSelectsOneCommand := by
  intro act addr size
  refine ⟨?_, (decodeCommand_fields act addr size).2⟩
  have hfilter : ∀ i ∈ commandRows act addr size,
      (i.wf && i.action == act) = (i == decodeCommand act addr size) := fun i hi => by
    obtain ⟨haddr, hcount⟩ := operands_of_mem_commandRows hi
    have h := wf_and_action_iff_eq_decodeCommand act i
    rw [haddr, hcount] at h
    rwa [Bool.eq_iff_iff, Bool.and_eq_true, beq_iff_eq, beq_iff_eq]
  calc (commandRows act addr size).filter (fun i => i.wf && i.action == act)
      = (commandRows act addr size).filter (· == decodeCommand act addr size) := List.filter_congr hfilter
    _ = [decodeCommand act addr size] := by
        rw [List.filter_beq, List.count_eq_one_of_mem (nodup_commandRows act addr size)
          (decodeCommand_mem_commandRows act addr size), List.replicate_one]

end Machine

/-! ## The fixed bytes of a frame -/

/-- A byte string decodes just when it begins with a frame's nine fixed bytes (R90, R92). -/
theorem decode_eq_ok_iff {bytes rest : List Byte} {i : Instr} :
    decode bytes = .ok (i, rest) ↔ ∃ act addr size,
      bytes = Config.magicBytes ++ commandBytes act addr size ++ rest ∧ i = decodeCommand act addr size := by
  constructor
  · intro h
    unfold decode at h
    split at h
    case h_1 m0 m1 m2 m3 b4 b5 b6 b7 b8 tail =>
      split at h
      case isTrue hmagic =>
        cases h
        refine ⟨b4, joinBytes b5 b6, joinBytes b7 b8, ?_, rfl⟩
        simp [← hmagic, commandBytes]
      case isFalse => cases h
    case h_2 => cases h
  · rintro ⟨act, addr, size, rfl, rfl⟩
    have h : decode (Config.magicBytes ++ commandBytes act addr size ++ rest) = .ok (decodeCommand act
      (joinBytes (hiByte addr) (loByte addr)) (joinBytes (hiByte size) (loByte size)), rest) := rfl
    rw [h, joinBytes_split, joinBytes_split]

/-- Settles O1: the frame has the command's fields, which select the command. -/
theorem decodeOfEncodeIsIdentity : Obligations.DecodeOfEncodeIsIdentity := by
  intro i rest hwf
  exact decode_eq_ok_iff.mpr ⟨i.action, i.address, i.count, rfl, (decodeCommand_of_wf hwf).symm⟩

/-- Settles O2: the command selected has the fields of the bytes it was selected by. -/
theorem encodeOfDecodeIsIdentity : Obligations.EncodeOfDecodeIsIdentity := by
  intro bytes rest i h
  obtain ⟨act, addr, size, rfl, rfl⟩ := decode_eq_ok_iff.mp h
  obtain ⟨hwf, hact, haddr, hcount⟩ := decodeCommand_fields act addr size
  refine ⟨?_, hwf⟩
  rw [encode, hact, haddr, hcount]

/-- Settles O5: each frame is the encoding of a well-formed command. -/
theorem writtenOutFramesDecode : Obligations.WrittenOutFramesDecode := by
  have h := decodeOfEncodeIsIdentity
  exact ⟨h (.read 0x07F8 0x0010) [] rfl, h (.write 0x1234 0xABCD) [0x55] rfl, h (.invalid02 0x02 0 4) [] rfl,
    h (.invalid04 0x07 1 0) [] rfl, h (.invalid08 0x0C 0x8000 0x0100) [] rfl, h (.invalid10 0x1F 0x00FF 0xFF00) [] rfl,
    h (.invalid20 0x3E 0 0) [] rfl, h (.invalid40 0x40 0x0800 1) [] rfl, h (.invalid80 0xFF 0xFFFF 0xFFFF) [] rfl⟩

/-! ## The opcode table's word -/

/-- Big-endian joining is concatenation (R92). -/
theorem joinBytes_eq_append (hi lo : Byte) : joinBytes hi lo = hi ++ lo := by
  rw [joinBytes, ← BitVec.setWidth_append_eq_shiftLeft_setWidth_or, BitVec.setWidth_eq]

/-- Byte `n` of the word is `F[71-8n : 64-8n]` (R91). -/
theorem tableBytes_eq (f : BitVec 72) :
    tableBytes 72 f.toNat = [64, 56, 48, 40, 32, 24, 16, 8, 0].map fun n => f.extractLsb' n 8 := rfl

/-- Two neighbouring bytes of a word, joined. -/
theorem joinBytes_extractLsb' {w : Nat} (f : BitVec w) (n : Nat) :
    joinBytes (f.extractLsb' (n + 8) 8) (f.extractLsb' n 8) = f.extractLsb' n 16 := by
  rw [joinBytes_eq_append, BitVec.extractLsb'_append_extractLsb'_eq_extractLsb' rfl]

/-- Four neighbouring bytes of a word are the magic's just when they make up `MAGIC` (R91). -/
theorem bytes_eq_magicBytes_iff {w : Nat} (f : BitVec w) (n : Nat) :
    [f.extractLsb' (n + 24) 8, f.extractLsb' (n + 16) 8, f.extractLsb' (n + 8) 8, f.extractLsb' n 8] =
      Config.magicBytes ↔ f.extractLsb' n 32 = Config.magic := by
  have hjoin : f.extractLsb' n 32 = f.extractLsb' (n + 24) 8 ++ f.extractLsb' (n + 16) 8 ++ f.extractLsb' (n + 8) 8 ++
      f.extractLsb' n 8 := by
    simp only [BitVec.extractLsb'_append_extractLsb'_eq_extractLsb']
  constructor
  · intro h
    rw [Config.magicBytes_eq] at h
    simp only [List.cons.injEq, and_true] at h
    obtain ⟨h24, h16, h8, h0⟩ := h
    rw [hjoin, h24, h16, h8, h0]
    rfl
  · intro h
    have hbyte : ∀ k, k + 8 ≤ 32 → f.extractLsb' (n + k) 8 = (Config.magic >>> k).setWidth 8 := fun k hk => by
      apply BitVec.eq_of_getLsbD_eq
      intro i hi
      simp [← h, hi, Nat.add_assoc, show k + i < 32 by omega]
    simp only [Config.magicBytes, List.map_cons, List.map_nil, ← hbyte, Nat.reduceAdd, Nat.reduceLeDiff, Nat.add_zero]

/-- Settles O4: the word's first four bytes are the magic's just when `F[71:40]` is `MAGIC`, and the other five join to
the command's fields. -/
theorem tableWordFields : Obligations.TableWordFields := by
  intro f
  simp only [decodeTableWord, tableBytes_eq, List.map_cons, List.map_nil, decode, bytes_eq_magicBytes_iff f 40,
    joinBytes_extractLsb']
  split_ifs <;> rfl

end Sys2Proof
end

section
/-! The register word's encoder and the serializer with no platform reset due (R120 to R125). -/

namespace Sys2Proof.Machine

/-! ## The register word -/

/-- Bits 14 to 11 of the register word are reserved (R98, R125). -/
theorem getLsbD_encodeWord_rsvd (a : Half) (oe : Bool) {n : Nat} (hlo : 11 ≤ n) (hhi : n ≤ 14) :
    (encodeWord a oe).getLsbD n = false := by
  have hmask : (0x7800 : Half).getLsbD n = true := by interval_cases n <;> rfl
  have h : (encodeWord a oe &&& 0x7800).getLsbD n = false := by rw [encodeWord_rsvd]; exact BitVec.getLsbD_zero
  rwa [BitVec.getLsbD_and, hmask, Bool.and_true] at h

/-- The register word carries the address modulo the device (R61, R125). -/
theorem encodeWord_toNat_mod (a : Half) (oe : Bool) : (encodeWord a oe).toNat % 2048 = a.toNat % 2048 := by
  rw [← setWidth_toNat_mod, encodeWord_addr, setWidth_toNat_mod]

/-- Settles O13: the direction by `encodeWord_dir`, and the two fields below it. -/
theorem encoderLaws : Obligations.EncoderLaws := fun a =>
  ⟨encodeWord_dir a true, encodeWord_dir a false, fun oe =>
    ⟨fun _ => getLsbD_encodeWord_rsvd a oe, encodeWord_toNat_mod a oe⟩⟩

/-! ## The shift register's edges -/

/-- A procedure with no reset due completes in the state named for it, which has none due either. -/
theorem Runs.eq_ok_of_none {α : Type} {m : Flow α} {s t : State} {k : Nat} {v : α} {R : Nat → State → Prop}
    (h : Runs m s k v t R) (hs : s.resetIn = none) (ht : t.resetIn = none) : m = .ok v t :=
  (h.eq_ok hs).trans (congrArg _ (set_resetIn_self ht))

/-- A shift by one place doubles the stage and adds the bit (R121). -/
theorem shiftIn_one_eq_ofNat (v : Half) (b : Bool) :
    (v <<< 1) ||| (if b then 1 else 0) = BitVec.ofNat 16 (v.toNat * 2 + b.toNat) := by
  have hconcat : (v <<< 1) ||| (if b then 1 else 0) = v.shiftConcat b := BitVec.eq_of_getLsbD_eq fun i hi => by
    rw [getLsbD_shiftIn_one v b i hi, BitVec.getLsbD_shiftConcat, decide_eq_true hi, Bool.true_and]
  apply BitVec.eq_of_toNat_eq
  rw [hconcat, BitVec.toNat_shiftConcat, BitVec.toNat_ofNat, Nat.shiftLeft_eq, Nat.pow_one]

/-- `SR_CLK` high already: no edge (R121). -/
theorem setLine_srClk_level (s : State) (hc : s.srClk = true) : setLine .srClk true s = .ok () s := by
  rw [setLine, if_neg (by simp [hc]), ← hc]

/-- `SR_LATCH` high already: no edge (R121). -/
theorem setLine_srLatch_level (s : State) (hl : s.srLatch = true) : setLine .srLatch true s = .ok () s := by
  rw [setLine, if_neg (by simp [hl]), ← hl]

/-- A strobe inside a write pulse is a fault, with the address that stands on the outputs (R121). -/
theorem driveLatchHigh_busy {s : State} (hr : s.resetIn = none) (hl : s.srLatch = false) (hw : s.weN = false) :
    drive .srLatch true s = .fault (.addressChangedDuringWrite (srAddr s)) :=
  (drive_none hr .srLatch true).trans (setLine_srLatch_busy (record _ s) hl hw)

/-- Settles O17: each line at each level it can have before the event. -/
theorem shiftRegisterAnswersEdges : Obligations.ShiftRegisterAnswersEdges := by
  intro s hr
  refine ⟨fun hc => ?clkRise, fun hc => ?clkHigh, ?clkLow, fun b => ?data, fun hl hw => ?busy, fun hl hw => ?latchRise,
    fun hl => ?latchHigh, ?latchLow⟩
  case clkRise => rw [← shiftIn_one_eq_ofNat]; exact (driveClkHigh_runs s hc).eq_ok_of_none hr hr
  case clkHigh => exact (drive_none hr .srClk true).trans (setLine_srClk_level (record _ s) hc)
  case clkLow => exact (driveClkLow_runs s).eq_ok_of_none hr hr
  case data => exact (driveData_runs b s).eq_ok_of_none hr hr
  case busy => exact driveLatchHigh_busy hr hl hw
  case latchRise => exact (driveLatchHigh_runs s hl hw).eq_ok_of_none hr hr
  case latchHigh => exact (drive_none hr .srLatch true).trans (setLine_srLatch_level (record _ s) hl)
  case latchLow => exact (driveLatchLow_runs s).eq_ok_of_none hr hr

/-! ## sr_write -/

/-- The state sr_write leaves (R120 to R122). -/
def srWritten (w : Half) (s : State) : State :=
  { s with srData := w.getLsbD 0, srShift := w, srQ := w, srLatched := true, trace := s.trace ++ srEvents s.dDir w }

theorem srWrite_ok (w : Half) {s : State} (hc : s.srClk = false) (hl : s.srLatch = false) (hw : s.weN = true)
    (hr : s.resetIn = none) : srWrite w s = .ok () (srWritten w s) :=
  (srWrite_runs w s hc hl hw).eq_ok_of_none hr hr

/-- Settles O15: the sixteen shifts replace the whole stage, which the strobe copies to the outputs. -/
theorem srWriteLatchesAnyWord : Obligations.SrWriteLatchesAnyWord := fun w s hc hl hw hr =>
  ⟨srWritten w s, srWrite_ok w hc hl hw hr, rfl, rfl, rfl⟩

/-- The bits of a word, counted from bit 15 down (R120). -/
theorem msbFirst_eq_map (w : Half) : msbFirst w = (List.range 16).map fun n => w.getLsbD (15 - n) := msbFirst_eq w

theorem pinEvents_append (l r : List Event) : pinEvents (l ++ r) = pinEvents l ++ pinEvents r := List.filter_append ..

theorem pinEvents_bitEvents (bits : List Bool) : pinEvents (bitEvents bits) = bitEvents bits := by
  refine List.filter_eq_self.mpr fun e he => ?_
  obtain ⟨b, -, he⟩ := List.mem_flatMap.mp he
  simp only [List.mem_cons, List.not_mem_nil, or_false] at he
  rcases he with rfl | rfl | rfl <;> rfl

/-- The contention marker is no pin event (R10). -/
theorem pinEvents_strobeMark (d : BusDir) (w : Half) : pinEvents (strobeMark d w) = [] := by
  unfold strobeMark
  split <;> rfl

theorem pinEvents_srEvents (d : BusDir) (w : Half) :
    pinEvents (srEvents d w) = bitEvents (msbFirst w) ++ [.drive .srLatch true, .drive .srLatch false] := by
  rw [srEvents, pinEvents_append, pinEvents_append, pinEvents_append, pinEvents_bitEvents, pinEvents_strobeMark]
  rfl

/-- Settles O16: three events for each of the word's sixteen bits and the strobe's two; whether the strobe marks a
contention does not matter. -/
theorem srWriteEvents : Obligations.SrWriteEvents := by
  intro w s hc hl hw hr
  have hpins := pinEvents_srEvents s.dDir w
  refine ⟨srWritten w s, srWrite_ok w hc hl hw hr, rfl, srEvents s.dDir w, rfl, ?length, ?events⟩
  case length => rw [hpins]; rfl
  case events => rw [hpins, msbFirst_eq_map, bitEvents, List.flatMap_map]

/-- The state the strobe begins in (R120). -/
def srShifted (w : Half) (s : State) : State :=
  { s with srData := w.getLsbD 0, srShift := w, trace := s.trace ++ bitEvents (msbFirst w) }

theorem srShiftBits_msbFirst_ok (w : Half) {s : State} (hc : s.srClk = false) (hr : s.resetIn = none) :
    srShiftBits (msbFirst w) s = .ok () (srShifted w s) := by
  have h := (srShiftBits_runs (msbFirst w) s hc).eq_ok_of_none hr hr
  rwa [shiftIn_msbFirst] at h

/-- Settles O19: the shifting completes and leaves the outputs as they are, and the strobe's rising edge faults. -/
theorem srWriteDuringPulseFaults : Obligations.SrWriteDuringPulseFaults := by
  intro w s hc hl hw hr
  have hstrobe : drive .srLatch true (srShifted w s) = .fault (.addressChangedDuringWrite (srAddr s)) :=
    driveLatchHigh_busy hr hl hw
  rw [srWrite, srShiftBits_msbFirst_ok w hc hr, Flow.bind_ok, srStrobe, hstrobe, Flow.bind_fault]

end Sys2Proof.Machine
end

section
/-! The byte engine with no platform reset due: the write pulse, read_byte and write_byte (R140 to R144). -/

namespace Sys2Proof.Machine

/-! ## The write pulse -/

/-- The pulse on a machine with no platform reset due (R142). -/
theorem writePulse_ok {s : State} (hr : s.resetIn = none) (hw : s.weN = true) (hb : s.wcBusy = false)
    (hq : srDir s = true) (hd : s.dDir = .output) :
    writePulse s = .ok () { s with
      mem := memWrite s.mem (srAddr s).toNat s.dOut, trace := s.trace ++ pulseEvents s.cfg } :=
  (writePulse_runs s hw hb hq hd).eq_ok_of_none hr hr

/-- Settles O23: no reset falls inside the pulse, which runs to the end of its settle delay. -/
theorem writePulseCommits : Obligations.WritePulseCommits := fun _ hr hw hb hq hd => writePulse_ok hr hw hb hq hd

/-! ## The number of pin events -/

/-- Three events for each of sixteen bits and the strobe's two (R120). -/
theorem length_pinEvents_srEvents (d : BusDir) (w : Half) : (pinEvents (srEvents d w)).length = 50 := by
  rw [pinEvents_srEvents]
  rfl

/-- The contention marker is no pin event (R10). -/
theorem pinEvents_turnMark (s : State) : pinEvents (turnMark s) = [] := by
  unfold turnMark
  split <;> rfl

/-- sr_write's fifty events between the turn of the lines and the sample (R140). -/
theorem length_pinEvents_readEvents (a : Half) : (pinEvents (readEvents a)).length = 52 := by
  rw [readEvents, pinEvents_append, pinEvents_append, List.length_append, List.length_append, length_pinEvents_srEvents]
  rfl

/-- sr_write's fifty events after the turn of the lines, then the byte and the pulse's four (R141, R142). -/
theorem length_pinEvents_writeByteEvents (p : Config.Params) {mark : List Event} (hmark : pinEvents mark = [])
    (a : Half) (v : Byte) : (pinEvents (writeByteEvents p mark a v)).length = 56 := by
  simp only [writeByteEvents, pinEvents_append, List.length_append, hmark, length_pinEvents_srEvents]
  rfl

/-! ## read_byte and write_byte -/

/-- Settles O25: `afterRead` names the state read_byte leaves. -/
theorem readByteReadsItsCell : Obligations.ReadByteReadsItsCell := fun a s hs =>
  ⟨afterRead a s, readByte_ok a hs, rfl, length_pinEvents_readEvents a⟩

/-- write_byte changes the cell its address names modulo the device, and no other (R141, R143). -/
theorem memRead_afterWrite (a : Half) (v : Byte) {s : State} (hm : Memory.wf s.mem) (x : Nat) :
    memRead (afterWrite a v s).mem x = if x = a.toNat % Config.cap then v else memRead s.mem x :=
  memRead_memWrite s.mem hm.1 (a.toNat % Config.cap) v x

/-- Settles O26: `afterWrite` names the state write_byte leaves, with its one commit. -/
theorem writeByteCommits : Obligations.WriteByteCommits := fun a v s hs hm =>
  ⟨afterWrite a v s, writeByte_ok a v hs, rfl, memRead_afterWrite a v hm,
    length_pinEvents_writeByteEvents s.cfg (pinEvents_turnMark s) a v⟩

/-- Settles O27: the machine is ready again after the write, and the read names the cell written. -/
theorem readAfterWriteReturnsByte : Obligations.ReadAfterWriteReturnsByte := by
  intro a v s hs hm
  have hcell : memRead (afterWrite a v s).mem (a.toNat % Config.cap) = v := by
    rw [memRead_afterWrite a v hm, if_pos rfl]
  have hread := readByte_ok a (hs.afterWrite a v)
  rw [← Config.cap_eq, hcell] at hread
  exact ⟨_, _, writeByte_ok a v hs, hread⟩

end Sys2Proof.Machine
end

section
/-! The clamp and the range operations with no platform reset due: what is read, what is written, and where read_range
stops (R170 to R175). -/

namespace Sys2Proof.Machine

/-! ## The clamp -/

/-- Settles O14: each law is the closed form `clamp_toNat` at its addresses. -/
theorem clampLaws : Obligations.ClampLaws := by
  intro address size
  have hclamp := clamp_toNat address size
  rw [fits, Config.cap_eq] at hclamp
  rw [Config.cap_eq]
  refine ⟨fun hout => BitVec.eq_of_toNat_eq ?_, fun _ => hclamp, ?_, ?_, fun hcap => ?_⟩
  · rw [hclamp, Nat.sub_eq_zero_of_le hout, Nat.min_zero]
    rfl
  · omega
  · omega
  · split <;> omega

/-! ## read_range -/

theorem readCount_le_size (a n bufcap : Half) : readCount a n bufcap ≤ n.toNat :=
  (Nat.min_le_left _ _).trans (Nat.min_le_left _ _)

theorem readCount_le_bufcap (a n bufcap : Half) : readCount a n bufcap ≤ bufcap.toNat :=
  (Nat.min_le_left _ _).trans (Nat.min_le_right _ _)

/-- Without a buffer read_range makes no round (R170). -/
theorem readRange_of_buf_none (a n bufcap : Half) {s : State} (hb : s.buf = none) :
    readRange a n bufcap s = .ok 0 s := if_pos (by rw [bufValid, hb]; rfl)

/-- With a buffer read_range is its loop, and counts the loop's rounds (R170). -/
theorem readRange_of_buf_some (a n bufcap : Half) {s : State} {b : List Byte} (hb : s.buf = some b) :
    readRange a n bufcap s =
      (readLoop n.toNat a n bufcap { s with k := 0 }).bind fun _ s => .ok s.k s :=
  if_neg (by rw [bufValid, hb]; exact Bool.noConfusion)

/-- A round inside the count, the capacity and the device: the byte read goes to the buffer (R170). -/
theorem readLoop_round (fuel : Nat) {a n bufcap : Half} {s : State} (hs : Ready s)
    (hk : s.k.toNat < readCount a n bufcap) :
    readLoop (fuel + 1) a n bufcap s =
      (bufWrite s.k.toNat (memRead s.mem ((cellAddr a s.k).toNat % 2048)) (afterRead (cellAddr a s.k) s)).bind
        fun _ s => readLoop fuel a n bufcap { s with k := s.k + 1 } := by
  rw [readCount, Config.cap_eq] at hk
  have hin : inDevice a s.k = true := by rw [inDevice_iff]; omega
  rw [readLoop, if_pos ⟨by omega, by omega, hin⟩, readByte_ok _ hs]
  rfl

/-- The rounds go on up to the buffer's end, where the next one faults (R68). -/
theorem readLoop_overrun (fuel : Nat) {a n bufcap : Half} {s : State} {b : List Byte} (hs : Ready s)
    (hb : s.buf = some b) (hk : s.k.toNat ≤ b.length) (hfuel : n.toNat ≤ s.k.toNat + fuel)
    (hlen : b.length < readCount a n bufcap) : readLoop fuel a n bufcap s = .fault .bufferOverrun := by
  have hn := readCount_le_size a n bufcap
  induction fuel generalizing s b with
  | zero => omega
  | succ fuel ih =>
    have hbytes : bufBytes (afterRead (cellAddr a s.k) s) = b := (congrArg (·.getD []) hb).trans rfl
    rw [readLoop_round fuel hs (by omega)]
    by_cases hend : s.k.toNat = b.length
    · rw [bufWrite_overrun _ (by rw [hbytes, hend]), Flow.bind_fault]
    · have hnext : (s.k + 1).toNat = s.k.toNat + 1 := succ_toNat _ (by have := n.isLt; omega)
      rw [bufWrite, hbytes, if_pos (by omega), Flow.bind_ok]
      refine ih (b := b.set s.k.toNat (memRead s.mem ((cellAddr a s.k).toNat % 2048))) hs rfl ?_ ?_ ?_
      · show (s.k + 1).toNat ≤ _
        rw [hnext, List.length_set]
        omega
      · show _ ≤ (s.k + 1).toNat + fuel
        omega
      · rwa [List.length_set]

/-- Settles O34: `readMany` names the state that the rounds leave, the index begun at 0. -/
theorem readRangeCountsAndFills : Obligations.ReadRangeCountsAndFills := by
  intro a n bufcap s hs
  refine ⟨readRange_of_buf_none a n bufcap, fun b hb hlen hcap => ?_⟩
  have hcount := readCount_le_bufcap a n bufcap
  have hzero : ({ s with k := 0 } : State).k.toNat = 0 := rfl
  have hk := readMany_k (readCount a n bufcap) a { s with k := 0 } (by omega)
  have hbuf := readMany_buf (readCount a n bufcap) a { s with k := 0 } b hb (by omega) hlen
    (by rw [hzero, readCount]; omega)
  have htrace := readMany_trace (readCount a n bufcap) a { s with k := 0 } (by omega)
  refine ⟨_, readCount a n bufcap, readRange_ok a n bufcap b hs hb hcap, rfl, ?_, ?_, ?_, readMany_eq _ _ _⟩
  · rw [hk, hzero, Nat.zero_add]
  · rw [hbuf, hzero, List.take_zero, List.nil_append, Nat.add_zero, Nat.zero_add]
  · simpa only [readRangeEvents, add_zero] using htrace

/-- Settles O35: every round before the buffer's end lies inside the range. -/
theorem readRangePastBufferFaults : Obligations.ReadRangePastBufferFaults := by
  intro a n bufcap s b hs hb hlen
  have hloop : readLoop n.toNat a n bufcap { s with k := 0 } = .fault .bufferOverrun :=
    readLoop_overrun n.toNat hs hb (Nat.zero_le _) (Nat.le_add_left _ _) hlen
  rw [readRange_of_buf_some a n bufcap hb, hloop, Flow.bind_fault]

/-! ## write_range and write_fill -/

/-- The state write_range leaves (R171). -/
def rangeWritten (a : Half) (data : List Byte) (s : State) : State :=
  writeMany a (data.take (fits a.toNat data.length)) { s with k := 0 }

theorem length_take_fits (a : Nat) (data : List Byte) : (data.take (fits a data.length)).length = fits a data.length :=
  List.length_take_of_le (Nat.min_le_left _ _)

/-- The index of write_range, begun at 0, stays inside its register (R30). -/
theorem zero_add_length_take_fits_le (a : Nat) {data : List Byte} (hl : data.length ≤ 65535) :
    (0 : Half).toNat + (data.take (fits a data.length)).length ≤ 65535 :=
  (Nat.zero_add _).trans_le ((List.length_take_le' _ _).trans hl)

/-- One round for each byte that fits. -/
theorem rangeWritten_k (a : Half) {data : List Byte} (s : State) (hl : data.length ≤ 65535) :
    (rangeWritten a data s).k.toNat = fits a.toNat data.length := by
  rw [rangeWritten, writeMany_k _ _ _ (zero_add_length_take_fits_le a.toNat hl), length_take_fits]
  exact Nat.zero_add _

/-- The pin events of write_range: those of the bytes that fit, ascending (R171, R175). -/
theorem rangeWritten_trace (a : Half) {data : List Byte} (s : State) (hl : data.length ≤ 65535) :
    (rangeWritten a data s).trace =
      s.trace ++ writeRangeEvents s.cfg (turnMark s) a (data.take (fits a.toNat data.length)) := by
  have htrace := writeMany_trace a (data.take (fits a.toNat data.length)) { s with k := 0 }
    (zero_add_length_take_fits_le a.toNat hl)
  rwa [show a + ({ s with k := 0 } : State).k = a from add_zero a] at htrace

/-- The cells of the bytes that fit take them, and no other cell changes (R171). -/
theorem memRead_rangeWritten (a : Half) (data : List Byte) {s : State} (hm : Memory.wf s.mem) (x : Nat) :
    memRead (rangeWritten a data s).mem x =
      if a.toNat ≤ x ∧ x < a.toNat + fits a.toNat data.length then data.getD (x - a.toNat) 0
      else memRead s.mem x := by
  have hlen := length_take_fits a.toNat data
  have hcells := writeMany_mem a (data.take (fits a.toNat data.length)) { s with k := 0 } hm.1
    (by rw [← List.length_eq_zero_iff, hlen, fits]; show _ ∨ a.toNat + 0 + _ ≤ _; omega) x
  rw [hlen] at hcells
  refine hcells.trans (ite_congr rfl (fun hx => ?_) fun _ => rfl)
  show (data.take _).getD (x - a.toNat) 0 = _
  rw [List.getD_eq_getElem?_getD, List.getElem?_take_of_lt (by omega), List.getD_eq_getElem?_getD]

/-- Settles O36: `rangeWritten` names the state write_range leaves. -/
theorem writeRangeWritesPrefix : Obligations.WriteRangeWritesPrefix := fun a data s hs hm hl =>
  ⟨rangeWritten a data s, fits a.toNat data.length, writeRange_ok a data hs hl, rfl, rangeWritten_k a s hl,
    memRead_rangeWritten a data hm, rangeWritten_trace a s hl, writeMany_eq a _ _⟩

/-- write_fill is write_range over one repeated value (R172). -/
theorem writeFill_eq_writeRange (a : Half) (v : Byte) (count : Half) (s : State) :
    writeFill a v count s = writeRange a (List.replicate count.toNat v) s := rfl

/-- Settles O37: the case of write_range in which every byte is the one value. -/
theorem writeFillRepeats : Obligations.WriteFillRepeats := by
  intro a v count s hs hm
  have hcount := count.isLt
  obtain ⟨t, w, hok, hw, hk, hcells, htrace, hframe⟩ :=
    writeRangeWritesPrefix a (List.replicate count.toNat v) s hs hm (by rw [List.length_replicate]; omega)
  rw [List.length_replicate] at hw
  have hle : w ≤ count.toNat := hw ▸ Nat.min_le_left _ _
  refine ⟨t, w, (writeFill_eq_writeRange a v count s).trans hok, hw, hk, fun x => ?_, ?_, hframe⟩
  · refine (hcells x).trans (ite_congr rfl (fun hx => ?_) fun _ => rfl)
    rw [List.getD_eq_getElem _ _ (by rw [List.length_replicate]; omega), List.getElem_replicate]
  · rw [htrace, List.take_replicate, Nat.min_eq_left hle]

/-! ## One commit for each byte -/

/-- sr_write leaves `WE_N` alone (R120). -/
theorem weN_rise_not_mem_srEvents (d : BusDir) (w : Half) : .drive .weN true ∉ srEvents d w := by
  have hmark : .drive .weN true ∉ strobeMark d w := by unfold strobeMark; split <;> simp
  simp [srEvents, bitEvents, hmark]

theorem weN_rise_not_mem_turnMark (s : State) : .drive .weN true ∉ turnMark s := by
  unfold turnMark
  split <;> simp

/-- The pulse's rising edge is write_byte's one commit (R141, R142). -/
theorem count_weN_rise_writeByteEvents (p : Config.Params) {mark : List Event} (hmark : .drive .weN true ∉ mark)
    (a : Half) (v : Byte) : (writeByteEvents p mark a v).count (.drive .weN true) = 1 := by
  simp only [writeByteEvents, List.count_append, List.count_eq_zero_of_not_mem hmark,
    List.count_eq_zero_of_not_mem (weN_rise_not_mem_srEvents _ _)]
  rfl

theorem count_weN_rise_writeRangeEvents (p : Config.Params) {mark : List Event} (hmark : .drive .weN true ∉ mark)
    (a : Half) (data : List Byte) : (writeRangeEvents p mark a data).count (.drive .weN true) = data.length := by
  induction data generalizing mark a with
  | nil => rfl
  | cons v r ih =>
    rw [writeRangeEvents, List.count_append, count_weN_rise_writeByteEvents p hmark, ih List.not_mem_nil,
      List.length_cons, Nat.add_comm]

/-! ## The clamp and the two ranges -/

/-- The clamped size is what fits of itself (R174). -/
theorem fits_clamp (a n : Half) : fits a.toNat (clamp a n).toNat = (clamp a n).toNat := by
  rw [clamp_toNat]
  unfold fits
  omega

/-- read_range of the clamped size over a buffer of `n` bytes is cut by nothing (R174). -/
theorem readCount_clamp (a n : Half) : readCount a (clamp a n) n = (clamp a n).toNat := by
  rw [readCount, clamp_toNat, fits]
  omega

/-- Settles O38: the clamped size is the count of read_range, of write_range's rounds and of its commits. -/
theorem clampsAgree : Obligations.ClampsAgree := by
  rintro address size r s b hs hb hlen rfl
  have hsize := size.isLt
  have hle : (clamp address size).toNat ≤ b.length := by rw [hlen, clamp_toNat]; exact Nat.min_le_left _ _
  have hdata : (b.take (clamp address size).toNat).length = (clamp address size).toNat := List.length_take_of_le hle
  have hl : (b.take (clamp address size).toNat).length ≤ 65535 := by omega
  have hk := rangeWritten_k address s hl
  have htrace := rangeWritten_trace address s hl
  rw [hdata, fits_clamp] at hk htrace
  rw [List.take_take, Nat.min_self] at htrace
  constructor
  · have hread := readRange_ok address (clamp address size) size b hs hb hlen.ge
    rw [readCount_clamp, BitVec.ofNat_toNat, BitVec.setWidth_eq] at hread
    exact ⟨_, hread⟩
  · refine ⟨_, _, writeRange_ok address _ hs hl, BitVec.eq_of_toNat_eq hk, htrace, ?_⟩
    rw [count_weN_rise_writeRangeEvents _ (weN_rise_not_mem_turnMark s), hdata]

end Sys2Proof.Machine
end

section
/-! The fetch of a command (R201, R202, R213, R214): the SYNC and HDR steps, the sync accumulator as a window on the
last four bytes popped, and the header that a run finds behind any bytes without the magic. -/

namespace Sys2Proof.Machine

/-! ## The HDR step -/

theorem step_hdr {s : State} (hh : s.host = []) (hst : s.st = .hdr) : step s = runFetched (hdrStep s) := by
  rw [step_of_host_nil hh, coreStep, hst]

/-- With no reset due a poll is one idle delay, and ends the step (R212). -/
theorem pollIdle_none {α : Type} {s : State} (hr : s.resetIn = none) :
    (pollIdle s : Flow α) = .wait { s with trace := s.trace ++ [.delay s.cfg.tPoll] } := by
  rw [pollIdle, delay, tick_none hr]
  rfl

/-- A reset that is not due at once lets an event pass, and comes one event nearer (R282). -/
theorem tick_not_due {s : State} (hr : s.resetIn ≠ some 0) :
    tick s = .ok () { s with resetIn := s.resetIn.map (· - 1) } := by
  refine (tick_runs s).done fun n hn => Nat.one_le_iff_ne_zero.mpr ?_
  rintro rfl
  exact hr hn

/-- HDR's burst takes the five bytes of a command and no other (R92, R202). -/
theorem popCommand_commandBytes {act : Byte} {addr size : Half} {rest : List Byte} {s : State}
    (hrx : s.rx = commandBytes act addr size ++ rest) :
    popCommand s = .ok (decodeCommand act addr size) { s with rx := rest } := by
  simp [popCommand, rxPop, hrx, commandBytes]

/-- With a whole header waiting HDR polls no more, and its burst is one event (R202). -/
theorem hdrStep_of_frame {i : Instr} {rest : List Byte} {s : State}
    (hdec : decode (Config.magicBytes ++ s.rx) = .ok (i, rest)) :
    hdrStep s = (tick s).bind (fun _ t => popCommand t) ∧
      ∀ r, popCommand { s with resetIn := r } = .ok i { s with rx := rest, resetIn := r } := by
  obtain ⟨act, addr, size, hbytes, rfl⟩ := decode_eq_ok_iff.mp hdec
  rw [List.append_assoc] at hbytes
  have hrx : s.rx = commandBytes act addr size ++ rest := List.append_cancel_left hbytes
  refine ⟨if_neg ?_, fun r => popCommand_commandBytes hrx⟩
  rw [rxAvail, hrx, List.length_append]
  exact Nat.not_lt.mpr (Nat.le_add_right 5 _)

/-- HDR on a whole header runs the command, unless a reset is due at once (R202, R282). -/
theorem runFetched_of_frame {i : Instr} {rest : List Byte} {s : State} (hr : s.resetIn ≠ some 0)
    (hdec : decode (Config.magicBytes ++ s.rx) = .ok (i, rest)) :
    runFetched (hdrStep s) = exec i { s with rx := rest, resetIn := s.resetIn.map (· - 1) } := by
  obtain ⟨hstep, hpop⟩ := hdrStep_of_frame hdec
  rw [hstep, tick_not_due hr, Flow.bind_ok, hpop]
  rfl

theorem runFetched_due {i : Instr} {rest : List Byte} {s : State} (hr : s.resetIn = some 0)
    (hdec : decode (Config.magicBytes ++ s.rx) = .ok (i, rest)) :
    runFetched (hdrStep s) = .next (platformReset s) := by
  rw [(hdrStep_of_frame hdec).1, tick_due hr]
  rfl

/-- Settles O6: the burst is one event, before which a reset due at once falls, and then the command runs. -/
theorem stepRunsDecodedCommand : Obligations.StepRunsDecodedCommand := by
  intro s i rest agenda hst hdec hagenda
  have hstep : step s = runFetched (hdrStep { s with host := agenda }) := by
    rcases hagenda with ⟨hh, rfl⟩ | hh
    · rw [step_hdr hh hst, ← hh]
    · rw [step_of_host_core hh, coreStep, hst]
  rw [hstep]
  exact ⟨fun hr => runFetched_of_frame (s := { s with host := agenda }) hr hdec,
    fun hr => runFetched_due (s := { s with host := agenda }) hr hdec⟩

/-- With no reset due nothing but the five bytes is spent on the fetch. -/
theorem step_of_frame {i : Instr} {rest : List Byte} {s : State} (hh : s.host = []) (hr : s.resetIn = none)
    (hst : s.st = .hdr) (hdec : decode (Config.magicBytes ++ s.rx) = .ok (i, rest)) :
    step s = exec i { s with rx := rest } := by
  rw [step_hdr hh hst, runFetched_of_frame (by simp [hr]) hdec, hr]
  rfl

/-- Settles O7: the count is short, so HDR only polls. -/
theorem hdrPollsUntilFiveBytes : Obligations.HdrPollsUntilFiveBytes := by
  intro s hh hr hst hshort
  rw [step_hdr hh hst, hdrStep, if_pos (by exact hshort), pollIdle_none hr]
  rfl

/-! ## The SYNC step -/

/-- The accumulator takes a byte at its low end (R22, R201). -/
def shiftByte (a : Acc) (b : Byte) : Acc := (a <<< 8) ||| b.setWidth 32

theorem shiftByte_eq_ofNat (a : Acc) (b : Byte) : shiftByte a b = BitVec.ofNat 32 (a.toNat * 256 + b.toNat) := by
  have happend : shiftByte a b = (a ++ b).setWidth 32 := by
    rw [BitVec.setWidth_append_eq_shiftLeft_setWidth_or, BitVec.setWidth_eq, shiftByte]
  apply BitVec.eq_of_toNat_eq
  rw [happend, BitVec.toNat_setWidth, BitVec.toNat_ofNat, BitVec.toNat_append, ← Nat.shiftLeft_add_eq_or_of_lt b.isLt,
    Nat.shiftLeft_eq]

theorem shiftByte_toNat (a : Acc) (b : Byte) : (shiftByte a b).toNat = (a.toNat * 256 + b.toNat) % 2 ^ 32 := by
  rw [shiftByte_eq_ofNat, BitVec.toNat_ofNat]

theorem step_sync {s : State} (hh : s.host = []) (hst : s.st = .sync) : step s = (syncStep s).outcome := by
  rw [step_of_host_nil hh, coreStep, hst]

/-- The accumulator holds the magic: HDR is entered (R201). -/
theorem step_sync_magic {s : State} (hh : s.host = []) (hst : s.st = .sync) (hacc : s.acc = Config.magic) :
    step s = .next { s with st := .hdr } := by
  rw [step_sync hh hst, syncStep, if_pos hacc]
  rfl

/-- It does not, and a byte waits: the byte is taken (R201). -/
theorem step_sync_byte {s : State} (hh : s.host = []) (hr : s.resetIn = none) (hst : s.st = .sync)
    (hacc : s.acc ≠ Config.magic) {b : Byte} {l : List Byte} (hrx : s.rx = b :: l) :
    step s = .next { s with rx := l, acc := shiftByte s.acc b } := by
  rw [step_sync hh hst, syncStep, if_neg hacc, if_pos (by simp [rxAvail, hrx]), tick_none hr, Flow.bind_ok, rxPop, hrx]
  rfl

/-- It does not, and no byte waits: SYNC polls (R201). -/
theorem step_sync_poll {s : State} (hh : s.host = []) (hr : s.resetIn = none) (hst : s.st = .sync)
    (hacc : s.acc ≠ Config.magic) (hrx : s.rx = []) :
    step s = .next { s with trace := s.trace ++ [.delay s.cfg.tPoll] } := by
  rw [step_sync hh hst, syncStep, if_neg hacc, if_neg (by simp [rxAvail, hrx]), pollIdle_none hr]
  rfl

/-- Settles O8: one lemma for each case. -/
theorem syncScansOneByte : Obligations.SyncScansOneByte := by
  intro s hh hr hst
  refine ⟨step_sync_magic hh hst, fun hacc b l hrx => ?_, step_sync_poll hh hr hst⟩
  rw [← shiftByte_eq_ofNat]
  exact step_sync_byte hh hr hst hacc hrx

/-- Settles O9: an idle CORE stands in SYNC without a match and without a byte, so it polls. -/
theorem idleCoreOnlyPolls : Obligations.IdleCoreOnlyPolls := by
  intro s hh hr hidle
  have hparts := hidle
  simp only [idle, Bool.and_eq_true, beq_iff_eq, bne_iff_ne, List.isEmpty_iff] at hparts
  obtain ⟨⟨hst, hacc⟩, hrx⟩ := hparts
  exact ⟨_, step_sync_poll hh hr hst hacc hrx, rfl, hidle⟩

/-! ## The magic -/

/-- Bytes that end in the magic end in its last byte. -/
theorem not_magic_suffix_concat (l : List Byte) {b : Byte} (hb : b ≠ 0xBE) : ¬ Config.magicBytes <:+ l ++ [b] :=
  fun h => hb (List.singleton_suffix_append_singleton_iff.mp
    ((List.suffix_append [0xCA, 0xFE, 0xBA] [(0xBE : Byte)]).trans h)).symm

/-- The magic's last byte is none of its other bytes, so bytes without the magic stay so when a part of the magic
follows them (R214). -/
theorem not_magic_infix_append_take {g : List Byte} (hg : ¬ Config.magicBytes <:+: g) {n : Nat} (hn : n < 4) :
    ¬ Config.magicBytes <:+: g ++ Config.magicBytes.take n := by
  induction n with
  | zero => simpa using hg
  | succ n ih =>
    have hlast : Config.magicBytes[n]'(by show n < 4; omega) ≠ 0xBE := by
      have hn : n < 3 := by omega
      interval_cases n <;> simp [Config.magicBytes_eq]
    rw [List.take_succ_eq_append_getElem (by show n < 4; omega), ← List.append_assoc, List.infix_concat_iff]
    exact not_or.mpr ⟨not_magic_suffix_concat _ hlast, ih (by omega)⟩

/-- Settles O11: the three proper parts by their bytes, and the bytes after them one by one. -/
theorem magicHasNoSelfOverlap : Obligations.MagicHasNoSelfOverlap := by
  refine ⟨fun n hlo hhi => ?_, fun g n hg hn => not_magic_infix_append_take hg hn⟩
  interval_cases n <;> decide

/-! ## The accumulator over a run of SYNC -/

/-- The accumulator after the bytes `l`, entered with `a` (R201). -/
def accAfter (a : Acc) (l : List Byte) : Acc := l.foldl shiftByte a

theorem accAfter_append (a : Acc) (l m : List Byte) : accAfter a (l ++ m) = accAfter (accAfter a l) m :=
  List.foldl_append

theorem accAfter_singleton (a : Acc) (b : Byte) : accAfter a [b] = shiftByte a b := rfl

/-- Four bytes replace the whole accumulator: it holds the magic just when they are the magic's. -/
theorem accAfter_four (a : Acc) (b0 b1 b2 b3 : Byte) :
    accAfter a [b0, b1, b2, b3] = Config.magic ↔ [b0, b1, b2, b3] = Config.magicBytes := by
  have h0 := b0.isLt
  have h1 := b1.isLt
  have h2 := b2.isLt
  have h3 := b3.isLt
  have hacc : (accAfter a [b0, b1, b2, b3]).toNat =
      b0.toNat * 16777216 + b1.toNat * 65536 + b2.toNat * 256 + b3.toNat := by
    simp only [accAfter, List.foldl_cons, List.foldl_nil, shiftByte_toNat]
    omega
  have hmagic : Config.magic.toNat = 0xCAFEBABE := rfl
  rw [← BitVec.toNat_inj, hacc, hmagic, Config.magicBytes_eq]
  simp only [List.cons.injEq, and_true, ← BitVec.toNat_inj, BitVec.reduceToNat]
  omega

/-- Entered with 0, the accumulator holds no more than the bytes taken. -/
theorem accAfter_zero_lt (l : List Byte) : (accAfter 0 l).toNat < 256 ^ l.length := by
  induction l using List.reverseRecOn with
  | nil => decide
  | append_singleton l b ih =>
    have hb := b.isLt
    rw [accAfter_append, accAfter_singleton, shiftByte_toNat, List.length_append, List.length_singleton, Nat.pow_succ]
    exact (Nat.mod_le _ _).trans_lt (by omega)

/-- Entered with 0, the accumulator holds the magic just when the bytes taken end in it (R201). -/
theorem accAfter_eq_magic_iff (l : List Byte) : accAfter 0 l = Config.magic ↔ Config.magicBytes <:+ l := by
  by_cases hlen : l.length < 4
  · refine iff_of_false (fun h => ?_) fun h => absurd h.length_le (Nat.not_le.mpr hlen)
    have hlt := accAfter_zero_lt l
    have hpow : 256 ^ l.length ≤ 256 ^ 3 := Nat.pow_le_pow_right (by decide) (by omega)
    rw [h] at hlt
    exact absurd (hlt.trans_le hpow) (by decide)
  · have hlast : (l.drop (l.length - 4)).length = 4 := by rw [List.length_drop]; omega
    obtain ⟨b0, b1, b2, b3, hdrop⟩ := List.length_eq_four.mp hlast
    have hacc : accAfter 0 l = accAfter (accAfter 0 (l.take (l.length - 4))) [b0, b1, b2, b3] := by
      rw [← hdrop, ← accAfter_append, List.take_append_drop]
    rw [hacc, accAfter_four, List.suffix_iff_eq_drop, show Config.magicBytes.length = 4 from rfl, hdrop, eq_comm]

/-- SYNC takes a byte a step as long as the accumulator has not held the magic (R201). -/
theorem run_sync {s : State} {p rest : List Byte} (n : Nat) (hh : s.host = []) (hr : s.resetIn = none)
    (hst : s.st = .sync) (hrx : s.rx = p ++ rest)
    (hno : ∀ q, q <+: p → q ≠ p → accAfter s.acc q ≠ Config.magic) :
    core.run (p.length + n) s = core.run n { s with acc := accAfter s.acc p, rx := rest } := by
  induction p generalizing s with
  | nil =>
    have hrest : s.rx = rest := hrx
    rw [List.length_nil, Nat.zero_add, ← hrest]
    rfl
  | cons b p ih =>
    have hstep := step_sync_byte hh hr hst (hno [] List.nil_prefix (List.cons_ne_nil b p).symm) hrx
    rw [List.length_cons, Nat.add_right_comm, run_succ _ _ _ hstep]
    exact ih (s := { s with rx := p ++ rest, acc := shiftByte s.acc b }) hh hr hst rfl fun q hq hne =>
      hno (b :: q) ((List.prefix_cons_inj b).mpr hq) fun h => hne (List.tail_eq_of_cons_eq h)

/-- From an entry to SYNC the first occurrence of the magic leads to HDR, with the bytes after it waiting (R213). -/
theorem run_to_hdr {s : State} {p rest : List Byte} (n : Nat) (hh : s.host = []) (hr : s.resetIn = none)
    (hst : s.st = .sync) (hacc : s.acc = 0) (hmagic : Config.magicBytes <:+ p)
    (hfirst : ¬ Config.magicBytes <:+: p.dropLast) (hrx : s.rx = p ++ rest) :
    core.run (p.length + (n + 1)) s = core.run n { s with st := .hdr, acc := Config.magic, rx := rest } := by
  have hend : accAfter s.acc p = Config.magic := by rw [hacc]; exact (accAfter_eq_magic_iff p).mpr hmagic
  rw [run_sync (n + 1) hh hr hst hrx, hend]
  · exact run_succ n _ _ (step_sync_magic hh hst rfl)
  · intro q hq hne
    rw [hacc, Ne, accAfter_eq_magic_iff]
    intro hsuffix
    obtain ⟨t, rfl⟩ := hq
    have ht : t ≠ [] := fun h => hne (by rw [h, List.append_nil])
    rw [List.dropLast_append_of_ne_nil ht] at hfirst
    exact hfirst (List.infix_append_of_infix_left hsuffix.isInfix)

/-- A run of one step. -/
theorem run_one (M : Host.Core) (s : M.State) : M.run 1 s = M.step s := by
  rw [Host.Core.run]
  cases M.step s <;> rfl

/-- Settles O10: the magic of the frame is the first in the stream, as garbage without it does not join up with a part
of it (`not_magic_infix_append_take`), and the step after the run to HDR is the fetch. -/
theorem headerFoundAfterGarbage : Obligations.HeaderFoundAfterGarbage := by
  intro s p g rest i hh hr hst hacc
  refine ⟨fun hmagic hfirst hrx => run_to_hdr 0 hh hr hst hacc hmagic hfirst hrx, fun hwf hg hrx => ?_⟩
  have hfirst : ¬ Config.magicBytes <:+: (g ++ Config.magicBytes).dropLast := by
    rw [List.dropLast_append_of_ne_nil (by decide)]
    exact not_magic_infix_append_take hg (n := 3) (by decide)
  have hrx' : s.rx = (g ++ Config.magicBytes) ++ (commandBytes i.action i.address i.count ++ rest) := by
    rw [hrx, encode, List.append_assoc, List.append_assoc, List.append_assoc]
  have hlen : g.length + 6 = (g ++ Config.magicBytes).length + (1 + 1) := by
    rw [List.length_append]
    rfl
  have hdec : decode (Config.magicBytes ++ (commandBytes i.action i.address i.count ++ rest)) = .ok (i, rest) := by
    rw [← List.append_assoc]
    exact decodeOfEncodeIsIdentity i rest hwf
  rw [hlen, run_to_hdr 1 hh hr hst hacc (List.suffix_append _ _) hfirst hrx']
  exact (run_one core _).trans (step_of_frame hh hr rfl hdec)

/-- Settles O12: the fetch, then the abort. -/
theorem allocationFailureAborts : Obligations.AllocationFailureAborts := by
  intro i s rest hh hr hst hdec hc
  exact (step_of_frame hh hr hst hdec).trans (exec_abort i { s with rx := rest } hc)

end Sys2Proof.Machine
end

section
/-! READ, WRITE and INVALID that complete (R206 to R209, R211): what each command's own work leaves in the registers and
the pin trace, and the whole state after a response that the channel takes. -/

namespace Sys2Proof.Machine

/-! ## The registers of a command -/

/-- The registers that name the command stand in `d` as in `s` (R23 to R27). -/
structure SameCommand (s d : State) : Prop where
  action : d.action = s.action
  addr : d.addr = s.addr
  size : d.size = s.size
  ract : d.ract = s.ract
  rsize : d.rsize = s.rsize
  i : d.i = s.i

theorem readDone_sameCommand (s : State) : SameCommand s (readDone s) := by
  obtain ⟨_, _, _, _, _, _, _, _, he⟩ := readDone_eq s
  rw [he]
  constructor <;> rfl

theorem writeDone_sameCommand (s : State) : SameCommand s (writeDone s) := by
  obtain ⟨_, _, _, _, _, _, _, _, _, he⟩ := writeDone_eq s
  rw [he]
  constructor <;> rfl

/-! ## READ -/

/-- The index begins at 0 and no command's clamped size reaches past it (R30). -/
theorem zero_add_rsize_le (s : State) : ({ s with k := 0 } : State).k.toNat + s.rsize.toNat ≤ 65535 := by
  have := s.rsize.isLt
  show 0 + _ ≤ _
  omega

/-- EXEC_READ's pin events are those of its cells, ascending (R175, R206). -/
theorem readDone_trace (s : State) :
    (readDone s).trace = s.trace ++ readRangeEvents s.addr s.rsize.toNat := by
  have htrace := readMany_trace s.rsize.toNat s.addr { s with k := 0 } (zero_add_rsize_le s)
  simp only [add_zero] at htrace
  exact htrace

theorem readDone_k (s : State) : (readDone s).k = s.rsize := by
  apply BitVec.eq_of_toNat_eq
  exact (readMany_k s.rsize.toNat s.addr { s with k := 0 } (zero_add_rsize_le s)).trans (Nat.zero_add _)

/-- Settles O39: EXEC_READ fills the buffer from the cells and touches nothing else, and the response carries them. -/
theorem readCommandResponds : Obligations.ReadCommandResponds := by
  intro addr size s hs hc hroom
  obtain ⟨haction, haddr, hsize, hract, hrsize, -⟩ := readDone_sameCommand (readEntered addr size s)
  have hkeeps := readDone_keeps (readEntered addr size s)
  exact ⟨_, exec_read_eq addr size hs hc hroom, responded_readEntered_tx addr size hc,
    readDone_trace (readEntered addr size s), hkeeps.mem, hkeeps.rx, rfl, rfl, rfl, haction, haddr, hsize, hract,
    hrsize, hrsize, readDone_k (readEntered addr size s)⟩

/-! ## WRITE -/

/-- EXEC_WCOMMIT's pin events are those of its bytes, ascending (R175, R207). -/
theorem writeDone_trace {s : State} (hb : HasBuffer s) :
    (writeDone s).trace =
      s.trace ++ writeRangeEvents s.cfg (turnMark s) s.addr ((bufBytes s).take s.rsize.toNat) := by
  have htrace := writeMany_trace s.addr ((bufBytes s).take s.rsize.toNat) { s with k := 0 }
    (by rw [hb.length_take]; exact zero_add_rsize_le s)
  rwa [show s.addr + ({ s with k := 0 } : State).k = s.addr from add_zero s.addr] at htrace

theorem writeDone_k {s : State} (hb : HasBuffer s) : (writeDone s).k = s.rsize := by
  apply BitVec.eq_of_toNat_eq
  have hk := writeMany_k s.addr ((bufBytes s).take s.rsize.toNat) { s with k := 0 }
    (by rw [hb.length_take]; exact zero_add_rsize_le s)
  rw [hb.length_take] at hk
  exact hk.trans (Nat.zero_add _)

/-- The whole payload collected: the index stands at the size (R207). -/
theorem writeFilled_i (addr size : Half) (s : State) : (writeFilled addr size s).i = size := by
  show 0 + BitVec.ofNat 16 (size.toNat - 0) = size
  rw [zero_add, Nat.sub_zero, BitVec.ofNat_toNat, BitVec.setWidth_eq]

/-- WRITE changes the cells of its clamped range, each to its byte of the payload (R67, R207). -/
theorem memRead_writeFilled (addr size : Half) {s : State} {payload rest : List Byte} (hm : Memory.wf s.mem)
    (hc : canAllocate s size) (hlen : payload.length = size.toNat) (hrx : s.rx = payload ++ rest) (x : Nat) :
    memRead (writeDone (writeFilled addr size s)).mem x =
      if addr.toNat ≤ x ∧ x < addr.toNat + (clamp addr size).toNat then payload.getD (x - addr.toNat) 0
      else memRead s.mem x := by
  have hpay : size.toNat ≤ s.rx.length := by rw [hrx, List.length_append, hlen]; exact Nat.le_add_right _ _
  have hcell := writeDone_cells (s := writeFilled addr size s) hm (hasBuffer_writeFilled addr size hc hpay) x
  rw [bufBytes_writeFilled addr size hlen hrx] at hcell
  refine hcell.trans (ite_congr rfl (fun hx => ?_) fun _ => rfl)
  have hlt : x - addr.toNat < (clamp addr size).toNat := by
    have hx : addr.toNat ≤ x ∧ x < addr.toNat + (clamp addr size).toNat := hx
    omega
  show (payload.take (clamp addr size).toNat).getD (x - addr.toNat) 0 = _
  rw [List.getD_eq_getElem?_getD, List.getElem?_take_of_lt hlt, List.getD_eq_getElem?_getD]

/-- Settles O40: the payload is collected whole, EXEC_WCOMMIT writes what fits, and the response echoes it. -/
theorem writeCommandCommitsAndEchoes : Obligations.WriteCommandCommitsAndEchoes := by
  intro addr size payload rest s hs hm hc hroom hlen hrx
  have hpay : size.toNat ≤ s.rx.length := by rw [hrx, List.length_append, hlen]; exact Nat.le_add_right _ _
  have hb := hasBuffer_writeFilled addr size hc hpay
  obtain ⟨haction, haddr, hsize, hract, hrsize, hi⟩ := writeDone_sameCommand (writeFilled addr size s)
  obtain ⟨-, -, hweN, hbusy⟩ : Quiet (writeDone (writeFilled addr size s)) := writeDone_quiet hs.1
  have htrace := writeDone_trace hb
  rw [bufBytes_writeFilled addr size hlen hrx] at htrace
  have hdrained : (writeDone (writeFilled addr size s)).rx = rest := by
    obtain ⟨_, _, _, _, _, _, _, _, _, he⟩ := writeDone_eq (writeFilled addr size s)
    rw [he]
    show s.rx.drop size.toNat = rest
    rw [hrx, ← hlen, List.drop_left]
  exact ⟨_, exec_write_eq addr size hs hc hroom hpay, responded_writeFilled_tx addr size hlen hrx,
    memRead_writeFilled addr size hm hc hlen hrx, htrace, hdrained, rfl, rfl, rfl, haction, haddr, hsize, hract, hrsize,
    hi.trans (writeFilled_i addr size s), hrsize, writeDone_k hb, hweN, hbusy⟩

/-! ## The whole state after a response -/

theorem length_responseFrame (ract : Byte) (addr rsize : Half) (payload : List Byte) :
    (responseFrame ract addr rsize payload).length = 9 + payload.length := by
  rw [responseFrame, List.length_append]
  rfl

/-- The state after a whole response (R201, R209). -/
def answered (d : State) (payload : List Byte) : State :=
  { d with
    st := .sync, acc := 0, buf := none, j := d.rsize, respPos := 9, resetIn := none
    tx := d.tx ++ responseFrame d.ract d.addr d.rsize payload, txRoom := roomAfter d (9 + d.rsize.toNat) }

theorem responded_eq_answered {d : State} (hpos : d.respPos = 0) (hj : d.j = 0) {payload : List Byte}
    (hpayload : (bufBytes d).take d.rsize.toNat = payload) (hlen : payload.length = d.rsize.toNat) :
    responded d none = answered d payload := by
  rw [responded, remaining_eq_responseFrame hpos hj, hpayload, length_responseFrame, hlen]
  rfl

/-! ## INVALID -/

/-- INVALID's buffer stays as EXEC_ALLOC made it (R203, R208). -/
theorem bufBytes_take_invalidDone (act : Byte) (addr size : Half) (s : State) :
    (bufBytes (invalidDone (dispatchInvalid (entered act addr size s)))).take (clamp addr size).toNat =
      List.replicate (clamp addr size).toNat 0 := by
  have hle : (clamp addr size).toNat ≤ size.toNat := by rw [clamp_toNat]; exact Nat.min_le_left _ _
  show (List.replicate size.toNat (0 : Byte)).take _ = _
  rw [List.take_replicate, Nat.min_eq_left hle]

/-- Settles O41: INVALID sets the sentinel and enters RESP with the buffer of zeros. -/
theorem invalidCommandsRespond : Obligations.InvalidCommandsRespond := by
  intro act addr size s i hi hwf hr hc hroom
  have hregs := statusRegs_invalidDone addr size s (resolvedAction_of_mem_invalidRows hi hwf)
  have hdone := (entered_invalid act addr size s).outcome_eq hr hregs hroom
  rw [responded_eq_answered rfl rfl (bufBytes_take_invalidDone act addr size s) List.length_replicate] at hdone
  rw [exec_invalid act addr size s i hi hc, hdone, hr]
  rfl

/-! ## Commands of no bytes -/

/-- A channel with room for the whole response takes it in one step (R209). -/
theorem respStep_accepted {s : State} (h : RespReady s) (hr : s.resetIn = none)
    (hroom : accepts s (remaining s).length = true) : (respStep s).outcome = .next (responded s none) := by
  obtain ⟨t, ht, ⟨-, -, r, hlater, rfl⟩ | ⟨more, -, hlt, hfull⟩ | ⟨u, ⟨hdue, -⟩, -⟩⟩ := (respStep_meets s h).outcome
  · rw [ht, hlater hr]
  · rw [accepts_mono s hroom hlt] at hfull
    cases hfull
  · exact absurd hr hdue

theorem clamp_zero (addr : Half) : clamp addr 0 = 0 := by
  apply BitVec.eq_of_toNat_eq
  rw [clamp_toNat]
  exact Nat.zero_min _

/-- RESP of no payload, at its entry (R211). -/
theorem respStep_empty {s : State} (hr : s.resetIn = none) (hrsize : s.rsize = 0) (hroom : accepts s 9 = true) :
    (respStep (enterResp s)).outcome = .next (answered (enterResp s) []) := by
  have hzero : s.rsize.toNat = 0 := by rw [hrsize]; rfl
  have hready : RespReady (enterResp s) :=
    ⟨by show s.rsize.toNat ≤ _; omega, Nat.zero_le _, Nat.zero_le _, fun _ => rfl⟩
  have hlen : (remaining (enterResp s)).length = 9 := by
    rw [remaining_length _ hready]
    show 9 - 0 + (s.rsize.toNat - 0) = 9
    rw [hzero]
  rw [respStep_accepted hready hr (by rw [hlen]; exact hroom), responded_eq_answered rfl rfl (payload := [])]
  · show List.take s.rsize.toNat _ = []
    rw [hzero, List.take_zero]
  · exact hzero.symm

/-- EXEC_ALLOC of no bytes (R203, R211). -/
theorem entered_empty (act : Byte) (addr : Half) (s : State) :
    entered act addr 0 s =
      { s with action := act, addr := addr, size := 0, st := .execAlloc, buf := some [], rsize := 0 } := by
  rw [entered, allocated]
  show { latchCommand act addr 0 s with buf := some [], rsize := clamp addr 0 } = _
  rw [clamp_zero]
  rfl

/-- READ of no bytes makes no round of read_range (R170, R211). -/
theorem runRead_empty {s : State} (hb : s.buf = some []) (hrsize : s.rsize = 0) :
    runRead s = respStep (enterResp { s with k := 0 }) := by
  rw [runRead, execReadStep, readRange_of_buf_some _ _ _ hb, hrsize]
  rfl

/-- The payload is complete (R207). -/
theorem execWrxStep_complete {s : State} (hi : s.i = s.size) :
    execWrxStep s = .ok () { s with st := .execWcommit } := by
  unfold execWrxStep collect
  exact if_pos hi

/-- WRITE of no bytes takes no byte and makes no round of write_range (R171, R211). -/
theorem runWrite_empty {s : State} (hi : s.i = s.size) (hrsize : s.rsize = 0) :
    runWrite s = respStep (enterResp { s with k := 0 }) := by
  rw [runWrite, execWrxStep_complete hi, Flow.bind_ok, runCommit, execWcommitStep, hrsize]
  rfl

/-- Settles O42: the device's part of both commands is empty, and the response is its header. -/
theorem zeroLengthCommands : Obligations.ZeroLengthCommands := by
  intro addr s hr hroom
  constructor
  · rw [exec_read addr 0 s (.inl rfl), entered_empty, runRead_empty rfl rfl]
    refine Eq.trans (respStep_empty (by exact hr) rfl (by exact hroom)) ?_
    rw [hr]
    rfl
  · rw [exec_write addr 0 s (.inl rfl), entered_empty, runWrite_empty rfl rfl]
    refine Eq.trans (respStep_empty (by exact hr) rfl (by exact hroom)) ?_
    rw [hr]
    rfl

end Sys2Proof.Machine
end

section
/-! WRITE's payload collection with no reset due (R207, R212): a short payload is waited for, and one that comes in two
parts fills the same buffer as one that comes whole. -/

namespace Sys2Proof.Machine

/-- EXEC_WRX completes the payload and enters EXEC_WCOMMIT, or takes all that waits and ends in an idle delay. -/
theorem execWrxStep_ends {s : State} {b : List Byte} (hb : s.buf = some b) (hl : b.length = s.size.toNat)
    (hi : s.i.toNat ≤ s.size.toNat) (hr : s.resetIn = none) :
    (s.size.toNat - s.i.toNat ≤ s.rx.length ∧ execWrxStep s = .ok () (filled s)) ∨
      (s.rx.length < s.size.toNat - s.i.toNat ∧ execWrxStep s =
        .wait { collected s.rx.length s none with trace := s.trace ++ [.delay s.cfg.tPoll] }) := by
  have h := collect_meets (rxAvail s) s b hb hl hi (Nat.le_refl _)
  rw [← execWrxStep] at h
  generalize execWrxStep s = m at h
  cases m with
  | ok v t =>
    obtain ⟨henough, r, hlater, rfl⟩ := h
    exact .inl ⟨henough, by rw [hlater hr, filled, hr]⟩
  | wait u =>
    obtain ⟨hshort, r, hlater, rfl⟩ := h
    exact .inr ⟨hshort, by rw [hlater hr]⟩
  | reset u => exact absurd hr h.1
  | fault f => exact h.elim

theorem execWrxStep_waits {s : State} {b : List Byte} (hb : s.buf = some b) (hl : b.length = s.size.toNat)
    (hi : s.i.toNat ≤ s.size.toNat) (hr : s.resetIn = none) (hshort : s.rx.length < s.size.toNat - s.i.toNat) :
    execWrxStep s = .wait { collected s.rx.length s none with trace := s.trace ++ [.delay s.cfg.tPoll] } :=
  ((execWrxStep_ends hb hl hi hr).resolve_left fun h => absurd h.1 (Nat.not_le.mpr hshort)).2

theorem execWrxStep_fills {s : State} {b : List Byte} (hb : s.buf = some b) (hl : b.length = s.size.toNat)
    (hi : s.i.toNat ≤ s.size.toNat) (hr : s.resetIn = none) (henough : s.size.toNat - s.i.toNat ≤ s.rx.length) :
    execWrxStep s = .ok () (filled s) :=
  ((execWrxStep_ends hb hl hi hr).resolve_right fun h => absurd henough (Nat.not_le.mpr h.1)).2

/-- The buffer, the index and the stream with the whole payload (R207). -/
theorem filled_eq {s : State} {b : List Byte} (hb : s.buf = some b) (hl : b.length = s.size.toNat)
    (hi : s.i.toNat ≤ s.size.toNat) :
    filled s = { s with
      st := .execWcommit, i := s.size, rx := s.rx.drop (s.size.toNat - s.i.toNat)
      buf := some (b.take s.i.toNat ++ s.rx.take (s.size.toNat - s.i.toNat)) } := by
  have hindex : s.i + BitVec.ofNat 16 (s.size.toNat - s.i.toNat) = s.size := by
    have := s.size.isLt
    apply BitVec.eq_of_toNat_eq
    rw [BitVec.toNat_add, BitVec.toNat_ofNat]
    omega
  rw [filled, collected, hindex, hb, Option.map_some, List.drop_eq_nil_of_le (by omega), List.append_nil]

/-- A WRITE in EXEC_WRX before any byte of its payload (R203, R205). -/
def writeEntered (addr size : Half) (s : State) : State := dispatchWrite (entered Config.actWrite addr size s)

/-- A WRITE that has taken the first bytes of its payload and waits for more (R207, R212). -/
def writeWaiting (addr size : Half) (s : State) : State :=
  { s with
    st := .execWrx, action := 0x01, addr := addr, size := size, ract := 0x01, rsize := clamp addr size
    i := BitVec.ofNat 16 s.rx.length, rx := []
    buf := some (s.rx ++ List.replicate (size.toNat - s.rx.length) 0)
    trace := s.trace ++ [.delay s.cfg.tPoll] }

theorem collected_writeEntered (addr size : Half) {s : State} (hr : s.resetIn = none) :
    { collected s.rx.length (writeEntered addr size s) none with trace := s.trace ++ [.delay s.cfg.tPoll] } =
      writeWaiting addr size s := by
  have hbuf : ((List.replicate size.toNat (0 : Byte)).take 0 ++ s.rx.take s.rx.length ++
      (List.replicate size.toNat (0 : Byte)).drop (0 + s.rx.length)) =
        s.rx ++ List.replicate (size.toNat - s.rx.length) 0 := by
    rw [List.take_zero, List.nil_append, List.take_length, Nat.zero_add, List.drop_replicate]
  have hi : (0 : Half) + BitVec.ofNat 16 s.rx.length = BitVec.ofNat 16 s.rx.length := zero_add _
  have hrx : s.rx.drop s.rx.length = [] := List.drop_length
  rw [writeWaiting, ← hbuf, ← hi, ← hrx, hr]
  rfl

theorem exec_write_waits (addr size : Half) {s : State} (hr : s.resetIn = none) (hc : canAllocate s size)
    (hshort : s.rx.length < size.toNat) : exec (.write addr size) s = .next (writeWaiting addr size s) := by
  have hwait := execWrxStep_waits (s := writeEntered addr size s) rfl List.length_replicate (Nat.zero_le _) hr hshort
  rw [exec_write addr size s hc, runWrite]
  show ((execWrxStep (writeEntered addr size s)).bind _).outcome = _
  rw [hwait, ← collected_writeEntered addr size hr]
  rfl

theorem step_execWrx {s : State} (hh : s.host = []) (hst : s.st = .execWrx) : step s = (runWrite s).outcome := by
  rw [step_of_host_nil hh, coreStep, hst]

/-- A wait with nothing new is one more idle delay (R212). -/
theorem execWrxStep_idle {s : State} (hr : s.resetIn = none) (hrx : s.rx = []) (hi : s.i ≠ s.size) :
    execWrxStep s = .wait { s with trace := s.trace ++ [.delay s.cfg.tPoll] } := by
  unfold execWrxStep collect
  rw [if_neg hi, if_neg (by simp [rxAvail, hrx]), pollIdle_none hr]

/-- Settles O43: the whole command's wait is `writeWaiting`, and with nothing new to take EXEC_WRX only polls. -/
theorem shortPayloadWaits : Obligations.ShortPayloadWaits := by
  refine ⟨fun addr size s hr hc hshort => exec_write_waits addr size hr hc hshort, fun s hh hr hst hrx hi => ?_⟩
  rw [step_execWrx hh hst, runWrite, execWrxStep_idle hr hrx hi]
  rfl

theorem exec_write_fills (addr size : Half) {s : State} (hr : s.resetIn = none) (hc : canAllocate s size)
    (hpay : size.toNat ≤ s.rx.length) : exec (.write addr size) s = (runCommit (writeFilled addr size s)).outcome := by
  have hfill := execWrxStep_fills (s := writeEntered addr size s) rfl List.length_replicate (Nat.zero_le _) hr hpay
  rw [exec_write addr size s hc, runWrite]
  show ((execWrxStep (writeEntered addr size s)).bind _).outcome = _
  rw [hfill]
  rfl

theorem toNat_writeWaiting_i (addr size : Half) {s : State} (hshort : s.rx.length < size.toNat) :
    (writeWaiting addr size s).i.toNat = s.rx.length := by
  have := size.isLt
  show (BitVec.ofNat 16 s.rx.length).toNat = _
  rw [BitVec.toNat_ofNat]
  omega

theorem length_writeWaiting_buf (size : Half) {s : State} (hshort : s.rx.length < size.toNat) :
    (s.rx ++ List.replicate (size.toNat - s.rx.length) (0 : Byte)).length = size.toNat := by
  rw [List.length_append, List.length_replicate]
  omega

/-- `s` with `more` bytes on the stream and the idle delay of a wait behind it. -/
def waitedFor (more : List Byte) (s : State) : State :=
  { s with rx := s.rx ++ more, trace := s.trace ++ [.delay s.cfg.tPoll] }

/-- The first bytes of a payload collected before the others, or with them: EXEC_WCOMMIT is entered alike (R207). -/
theorem filled_writeWaiting (addr size : Half) {s : State} (more : List Byte)
    (hshort : s.rx.length < size.toNat) :
    filled { writeWaiting addr size s with rx := more } =
      writeFilled addr size (waitedFor more s) := by
  have hi : ({ writeWaiting addr size s with rx := more } : State).i.toNat = s.rx.length :=
    toNat_writeWaiting_i addr size hshort
  have hparts := filled_eq (s := { writeWaiting addr size s with rx := more }) rfl (length_writeWaiting_buf size hshort)
    (hi.trans_le hshort.le)
  have hwhole := filled_eq
    (s := writeEntered addr size (waitedFor more s)) rfl List.length_replicate (Nat.zero_le _)
  have hdrop : (s.rx ++ more).drop (size.toNat - 0) = more.drop (size.toNat - s.rx.length) := by
    rw [List.drop_append, List.drop_eq_nil_of_le (by omega), List.nil_append, Nat.sub_zero]
  have htake : (List.replicate size.toNat (0 : Byte)).take 0 ++ (s.rx ++ more).take (size.toNat - 0) =
      (s.rx ++ List.replicate (size.toNat - s.rx.length) 0).take s.rx.length ++
        more.take (size.toNat - s.rx.length) := by
    rw [List.take_zero, List.nil_append, List.take_append, List.take_of_length_le (by omega), List.take_left,
      Nat.sub_zero]
  rw [hi] at hparts
  refine hparts.trans (Eq.trans ?_ hwhole.symm)
  show { writeWaiting addr size s with
    st := .execWcommit, i := size, rx := more.drop (size.toNat - s.rx.length)
    buf := some ((s.rx ++ List.replicate (size.toNat - s.rx.length) 0).take s.rx.length ++
      more.take (size.toNat - s.rx.length)) } = _
  rw [← hdrop, ← htake]
  rfl

/-- The rest of the payload ends the wait (R207, R212). -/
theorem step_writeWaiting (addr size : Half) {s : State} {more : List Byte} (hh : s.host = []) (hr : s.resetIn = none)
    (hshort : s.rx.length < size.toNat) (henough : size.toNat ≤ s.rx.length + more.length) :
    step { writeWaiting addr size s with rx := more } =
      (runCommit (writeFilled addr size (waitedFor more s))).outcome := by
  have hi : ({ writeWaiting addr size s with rx := more } : State).i.toNat = s.rx.length :=
    toNat_writeWaiting_i addr size hshort
  have hfill := execWrxStep_fills (s := { writeWaiting addr size s with rx := more }) rfl
    (length_writeWaiting_buf size hshort) (hi.trans_le hshort.le) hr
    (by rw [hi]; show size.toNat - _ ≤ more.length; omega)
  rw [step_execWrx (by exact hh) rfl, runWrite, hfill, Flow.bind_ok, filled_writeWaiting addr size more hshort]

/-- EXEC_WCOMMIT of a command that holds its buffer always answers (R251). -/
theorem runCommit_next {s : State} (hq : Quiet s) (hb : HasBuffer s) : ∃ u, (runCommit s).outcome = .next u := by
  obtain ⟨b, hb, hl, -, hrsize⟩ := hb
  obtain ⟨u, hu, -⟩ := (runCommit_meets s b hq hb hl hrsize).outcome
  exact ⟨u, hu⟩

/-- Settles O44: the wait leaves `writeWaiting`, from which EXEC_WCOMMIT is entered as with the whole payload. -/
theorem payloadInTwoParts : Obligations.PayloadInTwoParts := by
  rintro addr size first second rest s ⟨hquiet, hr⟩ hh hc rfl hshort hlen
  have henough : size.toNat ≤ s.rx.length + (second ++ rest).length := by rw [List.length_append]; omega
  have hpay : size.toNat ≤ (waitedFor (second ++ rest) s).rx.length := henough.trans_eq List.length_append.symm
  have hstep := step_writeWaiting addr size (more := second ++ rest) hh hr hshort henough
  have hexec := exec_write_fills addr size (s := waitedFor (second ++ rest) s) hr hc hpay
  obtain ⟨u, hu⟩ := runCommit_next (s := writeFilled addr size (waitedFor (second ++ rest) s)) hquiet
    (hasBuffer_writeFilled addr size hc hpay)
  rw [List.append_assoc]
  exact ⟨_, exec_write_waits addr size hr hc hshort, hstep.trans hexec.symm, u, hstep.trans hu⟩

end Sys2Proof.Machine
end

section
/-! A response that is held (R70, R215): a command's own work is done before its first byte, and does not depend on the
room on the outbound channel. -/

namespace Sys2Proof.Machine

/-! ## The same command on another channel -/

/-- `s` on a channel with other room (R70). -/
def setRoom (room : Option Nat) (s : State) : State := { s with txRoom := room }

theorem readMany_setRoom (room : Option Nat) (c : Nat) (a : Half) (s : State) :
    readMany c a (setRoom room s) = setRoom room (readMany c a s) := by
  induction c generalizing s with
  | zero => rfl
  | succ c ih => exact ih (readOne a s)

theorem writeMany_setRoom (room : Option Nat) (a : Half) (data : List Byte) (s : State) :
    writeMany a data (setRoom room s) = setRoom room (writeMany a data s) := by
  induction data generalizing s with
  | nil => rfl
  | cons v l ih => exact ih (writeOne a v s)

theorem readDone_setRoom (room : Option Nat) (s : State) : readDone (setRoom room s) = setRoom room (readDone s) :=
  congrArg enterResp (readMany_setRoom room s.rsize.toNat s.addr { s with k := 0 })

theorem writeDone_setRoom (room : Option Nat) (s : State) : writeDone (setRoom room s) = setRoom room (writeDone s) :=
  congrArg enterResp (writeMany_setRoom room s.addr ((bufBytes s).take s.rsize.toNat) { s with k := 0 })

/-- READ's arm on any channel (R206). -/
theorem exec_read_responds (addr size : Half) {s : State} (room : Option Nat) (hq : Quiet s) (hc : canAllocate s size) :
    ∃ m : Flow Unit, exec (.read addr size) (setRoom room s) = m.outcome ∧
      m.Responds (setRoom room s) (setRoom room (readDone (readEntered addr size s))) := by
  have h := entered_read addr size (setRoom room s) hq
  have hdone : readDone (dispatchRead (entered 0x00 addr size (setRoom room s))) = _ :=
    readDone_setRoom room (readEntered addr size s)
  rw [hdone] at h
  exact ⟨_, exec_read addr size (setRoom room s) hc, h⟩

/-- WRITE's arm on any channel, the payload waiting (R207). -/
theorem exec_write_responds (addr size : Half) {s : State} (room : Option Nat) (hq : Quiet s) (hc : canAllocate s size)
    (hpay : size.toNat ≤ s.rx.length) :
    ∃ m : Flow Unit, exec (.write addr size) (setRoom room s) = m.outcome ∧
      m.Responds (setRoom room s) (setRoom room (writeDone (writeFilled addr size s))) := by
  rcases entered_write addr size (setRoom room s) hq with ⟨-, h⟩ | ⟨hshort, -⟩
  · have hdone : writeDone (filled (dispatchWrite (entered 0x01 addr size (setRoom room s)))) = _ :=
      writeDone_setRoom room (writeFilled addr size s)
    rw [hdone] at h
    exact ⟨_, exec_write addr size (setRoom room s) hc, h⟩
  · exact absurd hpay (Nat.not_le.mpr hshort)

/-! ## The work before the response -/

/-- A command's own work, begun in `s`, is done in `d`: RESP is entered with no byte pushed, and the lines rest. -/
structure WorkDone (s d : State) : Prop where
  st : d.st = .resp
  tx : d.tx = s.tx
  quiet : Quiet d

theorem readDone_workDone {s : State} (hq : Quiet s) : WorkDone s (readDone s) :=
  ⟨rfl, (readDone_keeps s).tx, readMany_quiet s.rsize.toNat s.addr { s with k := 0 } hq⟩

theorem writeDone_workDone {s : State} (hq : Quiet s) : WorkDone s (writeDone s) :=
  ⟨rfl, writeDone_tx s, writeDone_quiet hq⟩

/-- A command that has its buffer and its payload leaves the same work on every channel, and responds (R206 to R208). -/
theorem exec_responds (i : Instr) {s : State} (hq : Quiet s) (hc : canAllocate s i.count)
    (hpay : i.action = Config.actWrite → i.count.toNat ≤ s.rx.length) :
    ∃ d, WorkDone s d ∧ d.rsize = clamp i.address i.count ∧
      ∀ room, ∃ m : Flow Unit, exec i (setRoom room s) = m.outcome ∧ m.Responds (setRoom room s) (setRoom room d) := by
  rcases instr_cases i with hi | hi | hi
  · obtain ⟨hst, htx, hquiet⟩ := readDone_workDone (s := readEntered i.address i.count s) hq
    exact ⟨_, ⟨hst, htx, hquiet⟩, (readDone_sameCommand _).rsize, fun room => hi ▸ exec_read_responds _ _ room hq hc⟩
  · obtain ⟨hst, htx, hquiet⟩ := writeDone_workDone (s := writeFilled i.address i.count s) hq
    have hact : i.action = Config.actWrite := by rw [hi]; rfl
    exact ⟨_, ⟨hst, htx, hquiet⟩, (writeDone_sameCommand _).rsize,
      fun room => hi ▸ exec_write_responds _ _ room hq hc (hpay hact)⟩
  · exact ⟨invalidDone (dispatchInvalid (entered i.action i.address i.count s)), ⟨rfl, rfl, hq⟩, rfl, fun room =>
      ⟨_, exec_invalid _ _ _ _ i hi hc, entered_invalid i.action i.address i.count (setRoom room s)⟩⟩

/-! ## The held response -/

/-- With no reset due a response for which the channel has not room holds where the room ends (R70, R209). -/
theorem Flow.Responds.holds {m : Flow Unit} {s d : State} {n : Nat} (h : m.Responds s d) (hr : s.resetIn = none)
    (hroom : s.txRoom = some n) (hdroom : d.txRoom = some n) (hn : n < 9 + d.rsize.toNat) :
    ∃ t more, m.outcome = .next t ∧ Pushed d t more ∧ more.length = n := by
  rcases h.ends hr with ⟨hall, -⟩ | ⟨t, more, ht, hp, -, hfull⟩
  · rw [accepts, hroom, decide_eq_true_iff] at hall
    omega
  · have hle := hp.room
    rw [accepts, hdroom, decide_eq_true_iff] at hle
    rw [accepts, hroom, decide_eq_false_iff_not] at hfull
    exact ⟨t, more, ht, hp, by omega⟩

/-- Settles O46: held or completed, the response begins with the same work done and moves nothing of it. -/
theorem responseFollowsDeviceWork : Obligations.ResponseFollowsDeviceWork := by
  rintro i s n - ⟨hquiet, hr⟩ hc hroom hn hpay
  obtain ⟨d, ⟨hst, htx, -, -, hweN, hbusy⟩, hrsize, hexec⟩ := exec_responds i hquiet hc hpay
  obtain ⟨m, hm, hheld⟩ := hexec (some n)
  obtain ⟨m', hm', hall⟩ := hexec none
  have hsame : setRoom (some n) s = s := by rw [setRoom, ← hroom]
  have hlt : n < 9 + d.rsize.toNat := by rwa [hrsize, clamp_toNat]
  obtain ⟨t, more, ht, ⟨⟨pos, jj, r, -, rfl⟩, hrest, -, -⟩, hlen⟩ := hheld.holds hr rfl rfl hlt
  rw [hsame] at hm
  refine ⟨_, _, hm.trans ht, hm'.trans (hall.done hr rfl), hst, rfl, rfl, rfl, rfl, hweN, hbusy, ?_, ?_⟩
  · exact (List.prefix_append_right_inj d.tx).mpr ⟨_, hrest⟩
  · show (d.tx ++ more).length = _
    rw [List.length_append, htx, hlen]

end Sys2Proof.Machine
end

section
/-! What each command leaves unchanged (R206 to R209): its own work's frame, the response's frame, and the abort's. -/

namespace Sys2Proof.Machine

/-! ## The response -/

/-- `t` is `d` but for what a response moves, completed or held: the sequencer, the outbound channel and RESP's own
positions. -/
def ResponseOf (d t : State) : Prop :=
  ∃ st acc buf pos jj room more, t = { d with
    st := st, acc := acc, buf := buf, respPos := pos, j := jj, txRoom := room, tx := d.tx ++ more, resetIn := none }

theorem responded_responseOf (d : State) : ResponseOf d (responded d none) := ⟨_, _, _, _, _, _, _, rfl⟩

theorem Pushed.responseOf {d t : State} {more : List Byte} (h : Pushed d t more) (hr : d.resetIn = none) :
    ResponseOf d t := by
  obtain ⟨⟨pos, jj, r, hlater, rfl⟩, -, -, -⟩ := h
  exact ⟨_, _, _, _, _, _, _, by rw [hlater hr]⟩

/-- With no reset due an arm ends in its own work and a response, whole or held. -/
theorem Flow.Responds.responseOf {m : Flow Unit} {s d t : State} (h : m.Responds s d) (hr : s.resetIn = none)
    (hd : d.resetIn = none) (ht : m.outcome = .next t) : ResponseOf d t := by
  rcases h.ends hr with ⟨-, hdone⟩ | ⟨u, more, hheld, hp, -, -⟩
  · obtain rfl := Host.Outcome.next.inj (hdone.symm.trans ht)
    exact responded_responseOf d
  · obtain rfl := Host.Outcome.next.inj (hheld.symm.trans ht)
    exact hp.responseOf hd

/-! ## The frames -/

/-- Settles O49: the abort touches registers only, and so does READ's own work but for the pins it reads through. -/
theorem readFrame : Obligations.ReadFrame := by
  rintro addr size s t ⟨hquiet, hr⟩ ht
  by_cases hc : canAllocate s size
  · rw [exec_read addr size s hc] at ht
    obtain ⟨_, _, _, _, _, _, _, _, he⟩ := readDone_eq (readEntered addr size s)
    have hd : (readDone (readEntered addr size s)).resetIn = none := (readDone_resetIn _).trans hr
    obtain ⟨_, _, _, _, _, _, more, hresp⟩ : ResponseOf (readDone (readEntered addr size s)) t :=
      (entered_read addr size s hquiet).responseOf hr hd ht
    rw [he] at hresp
    subst hresp
    exact ⟨fun _ => rfl, rfl, rfl, List.prefix_append _ _, rfl, rfl, rfl, rfl, rfl, rfl, rfl, rfl, rfl, rfl, rfl⟩
  · rw [exec_abort (.read addr size) s hc] at ht
    obtain rfl := Host.Outcome.next.inj ht
    exact ⟨fun _ => rfl, rfl, rfl, List.prefix_refl _, rfl, rfl, rfl, rfl, rfl, rfl, rfl, rfl, hr, rfl, rfl⟩

/-- The cells of the clamped range, each named by its index (R171). -/
theorem exists_cellAddr_of_mem_range {addr size : Half} {x : Nat}
    (hx : addr.toNat ≤ x ∧ x < addr.toNat + (clamp addr size).toNat) :
    ∃ k : Half, k.toNat < (clamp addr size).toNat ∧ x = (cellAddr addr k).toNat := by
  have hfit := clamp_toNat addr size
  rw [fits, Config.cap_eq] at hfit
  have hk : (BitVec.ofNat 16 (x - addr.toNat)).toNat = x - addr.toNat := by
    rw [BitVec.toNat_ofNat]
    omega
  refine ⟨BitVec.ofNat 16 (x - addr.toNat), by omega, ?_⟩
  rw [cellAddr_toNat _ _ ((inDevice_iff _ _).mpr (by omega)), hk]
  omega

/-- Settles O50: the abort touches registers only, a wait takes waiting bytes, and a WRITE that has its payload takes
`size` bytes and writes its clamped range. -/
theorem writeFrame : Obligations.WriteFrame := by
  rintro addr size s t ⟨hquiet, hr⟩ hm ht
  by_cases hc : canAllocate s size
  · rcases entered_write addr size s hquiet with ⟨hpay, h⟩ | ⟨hshort, -⟩
    · rw [exec_write addr size s hc] at ht
      have hcells := writeDone_cells (s := writeFilled addr size s) hm (hasBuffer_writeFilled addr size hc hpay)
      obtain ⟨_, _, _, _, _, _, _, _, _, he⟩ := writeDone_eq (writeFilled addr size s)
      have hd : (writeDone (writeFilled addr size s)).resetIn = none := (writeDone_resetIn _).trans hr
      obtain ⟨_, _, _, _, _, _, more, hresp⟩ : ResponseOf (writeDone (writeFilled addr size s)) t :=
        h.responseOf hr hd ht
      have hmem : t.mem = (writeDone (writeFilled addr size s)).mem := by rw [hresp]
      refine ⟨fun x hx => ?_, ?_⟩
      · refine (hmem ▸ hcells x).trans (if_neg fun hin => ?_)
        obtain ⟨k, hk, hxk⟩ := exists_cellAddr_of_mem_range hin
        exact hx k hk hxk
      · rw [he] at hresp
        subst hresp
        exact ⟨⟨size.toNat, le_rfl, rfl⟩, List.prefix_append _ _, rfl, rfl, rfl, rfl, rfl, rfl, rfl, rfl, rfl⟩
    · obtain rfl := Host.Outcome.next.inj ((exec_write_waits addr size hr hc hshort).symm.trans ht)
      exact ⟨fun _ _ => rfl, ⟨s.rx.length, hshort.le, List.drop_length.symm⟩, List.prefix_refl _, rfl, rfl, rfl, rfl,
        rfl, rfl, hr, rfl, rfl⟩
  · rw [exec_abort (.write addr size) s hc] at ht
    obtain rfl := Host.Outcome.next.inj ht
    exact ⟨fun _ _ => rfl, ⟨0, Nat.zero_le _, rfl⟩, List.prefix_refl _, rfl, rfl, rfl, rfl, rfl, rfl, hr, rfl, rfl⟩

/-- Settles O51: INVALID's own work sets `ract`, `rsize`, the buffer and RESP's registers. -/
theorem invalidFrame : Obligations.InvalidFrame := by
  intro act addr size i s t hi hr ht
  by_cases hc : canAllocate s size
  · rw [exec_invalid act addr size s i hi hc] at ht
    obtain ⟨_, _, _, _, _, _, more, rfl⟩ := (entered_invalid act addr size s).responseOf hr hr ht
    exact ⟨fun _ => rfl, rfl, rfl, List.prefix_append _ _, rfl, rfl, rfl, rfl, rfl, rfl, rfl, rfl, rfl, rfl, rfl, rfl,
      rfl, rfl, rfl, rfl, rfl, rfl⟩
  · have hrow : i ∈ commandRows act addr size := List.mem_cons_of_mem _ (List.mem_cons_of_mem _ hi)
    rw [exec_abort i s (by rwa [(operands_of_mem_commandRows hrow).2])] at ht
    obtain rfl := Host.Outcome.next.inj ht
    exact ⟨fun _ => rfl, rfl, rfl, List.prefix_refl _, rfl, rfl, rfl, rfl, rfl, rfl, rfl, rfl, rfl, rfl, rfl, rfl,
      rfl, rfl, rfl, hr, rfl, rfl⟩

end Sys2Proof.Machine
end

section
/-! The sequencer's own transitions (R200, log entry 1) and RESP (R209), step by step of the CORE. -/

namespace Sys2Proof.Machine

/-! ## RESP -/

/-- Settles O58: the step pushes the whole of what remains, or a first part of it. -/
theorem respTouchesNoDevice : Obligations.RespTouchesNoDevice := by
  intro s t hinv hh hr hst ht
  rw [step_resp hh hst] at ht
  obtain ⟨t', ht', hends⟩ := (respStep_meets s (hinv.respReady hst)).outcome
  obtain rfl : t' = t := Host.Outcome.next.inj (ht'.symm.trans ht)
  rcases hends with ⟨-, -, r, -, rfl⟩ | ⟨more, ⟨⟨pos, jj, r, -, rfl⟩, hrest, -, -⟩, -, -⟩ | ⟨u, ⟨hdue, -⟩, -⟩
  · exact ⟨rfl, rfl, rfl, rfl, rfl, rfl, rfl, rfl, rfl, rfl, rfl, rfl, remaining s, rfl, List.prefix_refl _,
      fun _ => rfl⟩
  · have hnot : s.st ≠ .sync := by rw [hst]; exact SeqState.noConfusion
    exact ⟨rfl, rfl, rfl, rfl, rfl, rfl, rfl, rfl, rfl, rfl, rfl, rfl, more, rfl, ⟨_, hrest⟩, fun h => absurd h hnot⟩
  · exact absurd hr hdue

/-! ## Where a procedure can leave the sequencer -/

/-- A procedure ends with the sequencer as `P` says, or in SYNC: a platform reset inside it leads there (R280). -/
theorem Flow.Meets.st_of_next {α : Type} {m : Flow α} {P : State → Prop} {R : State → Prop} {t : State}
    (h : m.Meets (fun _ u => u.st = .sync ∨ P u) P R) (ht : m.outcome = .next t) : t.st = .sync ∨ P t := by
  obtain ⟨t', ht', hends⟩ := h.outcome
  obtain rfl : t' = t := Host.Outcome.next.inj (ht'.symm.trans ht)
  rcases hends with ⟨-, h⟩ | h | ⟨u, -, rfl⟩
  · exact h
  · exact .inr h
  · exact .inl rfl

theorem Pushed.st_eq {s u : State} {more : List Byte} (h : Pushed s u more) : u.st = s.st := by
  obtain ⟨⟨_, _, _, -, rfl⟩, -, -, -⟩ := h
  rfl

/-- A response, whole or held (R209, R212). -/
theorem Flow.Responds.st {m : Flow Unit} {s d t : State} (h : m.Responds s d) (hd : d.st = .resp)
    (ht : m.outcome = .next t) : t.st = .sync ∨ t.st = .resp := by
  refine Flow.Meets.st_of_next (P := fun t => t.st = .resp) (h.mono ?ok ?wait fun _ h => h) ht
  case ok =>
    rintro - u ⟨-, r, -, rfl⟩
    exact .inl rfl
  case wait =>
    rintro u ⟨more, hp, -, -⟩
    exact hp.st_eq.trans hd

theorem respStep_st {s t : State} (h : RespReady s) (hst : s.st = .resp) (ht : (respStep s).outcome = .next t) :
    t.st = .sync ∨ t.st = .resp := by
  refine Flow.Meets.st_of_next (P := fun t => t.st = .resp) ((respStep_meets s h).mono ?ok ?wait fun _ h => h) ht
  case ok =>
    rintro - u ⟨-, r, -, rfl⟩
    exact .inl rfl
  case wait =>
    rintro u ⟨more, hp, -, -⟩
    exact hp.st_eq.trans hst

theorem runRead_st {s t : State} (hq : Quiet s) (hb : HasBuffer s) (ht : (runRead s).outcome = .next t) :
    t.st = .sync ∨ t.st = .resp := by
  obtain ⟨b, hb, hl, -, hr⟩ := hb
  exact (runRead_meets s b hq hb hl hr).st rfl ht

theorem runCommit_st {s t : State} (hq : Quiet s) (hb : HasBuffer s) (ht : (runCommit s).outcome = .next t) :
    t.st = .sync ∨ t.st = .resp := by
  obtain ⟨b, hb, hl, -, hr⟩ := hb
  exact (runCommit_meets s b hq hb hl hr).st rfl ht

theorem runInvalid_st {s t : State} (hb : HasBuffer s) (ht : (runInvalid s).outcome = .next t) :
    t.st = .sync ∨ t.st = .resp := by
  obtain ⟨b, hb, hl, -, hr⟩ := hb
  exact (runInvalid_meets s b hb hl hr).st rfl ht

/-- WRITE waits only while its payload is short (R207). -/
theorem runWrite_st {s t : State} (hq : Quiet s) (hb : HasBuffer s) (hi : s.i.toNat ≤ s.size.toNat)
    (hst : s.st = .execWrx) (ht : (runWrite s).outcome = .next t) :
    t.st = .sync ∨ t.st = .execWrx ∧ t.action = s.action ∧ t.i ≠ t.size ∨ t.st = .resp := by
  obtain ⟨b, hb, hl, -, hr⟩ := hb
  rcases runWrite_meets s b hq hb hl hr hi with ⟨-, h⟩ | ⟨hshort, h⟩
  · exact (h.st rfl ht).imp_right .inr
  · refine (Flow.Meets.st_of_next (P := fun t => t.st = .execWrx ∧ t.action = s.action ∧ t.i ≠ t.size)
      (h.mono (fun _ _ h => h.elim) ?wait fun _ h => h) ht).imp_right .inl
    rintro u ⟨r, -, rfl⟩
    refine ⟨hst, rfl, fun (hfull : s.i + BitVec.ofNat 16 s.rx.length = s.size) => ?_⟩
    have := s.size.isLt
    rw [← BitVec.toNat_inj, BitVec.toNat_add, BitVec.toNat_ofNat] at hfull
    omega

/-- A command ends in SYNC or RESP, or, a WRITE, in the wait for its payload (R200, R204). -/
theorem exec_st (i : Instr) {s t : State} (hq : Quiet s) (ht : exec i s = .next t) :
    t.st = .sync ∨ t.st = .execWrx ∧ i.action = Config.actWrite ∧ t.action = Config.actWrite ∨ t.st = .resp := by
  by_cases hc : canAllocate s i.count
  · have hb := fun act => hasBuffer_entered act i.address i.count s hc
    rcases instr_cases i with hi | hi | hi
    · rw [hi, exec_read _ _ s hc] at ht
      exact (runRead_st (s := dispatchRead (entered _ _ _ s)) hq (hb _) ht).imp_right .inr
    · rw [hi, exec_write _ _ s hc] at ht
      have h := runWrite_st (s := dispatchWrite (entered _ _ _ s)) hq (hb _) (Nat.zero_le _) rfl ht
      have hact : i.action = Config.actWrite := by rw [hi]; rfl
      exact h.imp_right (Or.imp_left fun ⟨hst, htact, _⟩ => ⟨hst, hact, htact⟩)
    · rw [exec_invalid _ _ _ s i hi hc] at ht
      exact (runInvalid_st (s := dispatchInvalid (entered _ _ _ s)) (hb _) ht).imp_right .inr
  · rw [exec_abort i s hc] at ht
    obtain rfl := Host.Outcome.next.inj ht
    exact .inl rfl

theorem syncStep_st {s t : State} (hst : s.st = .sync) (ht : (syncStep s).outcome = .next t) :
    t.st = .sync ∨ t.st = .hdr ∧ s.acc = Config.magic := by
  obtain ⟨t', ht', hends⟩ := (syncStep_meets s).outcome
  obtain rfl : t' = t := Host.Outcome.next.inj (ht'.symm.trans ht)
  rcases hends with ⟨-, ⟨hacc, rfl⟩ | ⟨-, b, l, r, -, -, rfl⟩⟩ | ⟨-, -, r, -, rfl⟩ | ⟨u, -, rfl⟩
  · exact .inr ⟨rfl, hacc⟩
  · exact .inl hst
  · exact .inl hst
  · exact .inl rfl

theorem runFetched_st {s t : State} (hq : Quiet s) (hst : s.st = .hdr) (ht : runFetched (hdrStep s) = .next t) :
    t.st = .sync ∨ t.st = .hdr ∧ s.rx.length < 5 ∨ t.st = .execWrx ∧ t.action = 0x01 ∨ t.st = .resp := by
  have h := hdrStep_meets s
  generalize hdrStep s = m at h ht
  cases m with
  | ok i u =>
    obtain ⟨_, _, _, _, _, l, r, -, -, -, rfl⟩ := h
    have hend := exec_st i (s := { s with rx := l, resetIn := r }) hq ht
    exact hend.imp_right fun h => .inr (h.imp_left fun ⟨hst, _, hact⟩ => ⟨hst, hact⟩)
  | wait u =>
    obtain ⟨hshort, r, -, rfl⟩ := h
    obtain rfl := Host.Outcome.next.inj ht
    exact .inr (.inl ⟨hst, hshort⟩)
  | reset u =>
    obtain rfl := Host.Outcome.next.inj ht
    exact .inl rfl
  | fault f => exact h.elim

/-- Settles O57: each state's procedure, by the lemma about where it can leave the sequencer. -/
theorem sequencerTransitions : Obligations.SequencerTransitions := by
  intro s t hinv hh ht
  rw [step_of_host_nil hh, coreStep] at ht
  have hseq := hinv.seq
  rw [SeqInv] at hseq
  cases hst : s.st with
  | sync => rw [hst] at ht; exact syncStep_st hst ht
  | hdr => rw [hst] at ht; exact runFetched_st hinv.quiet hst ht
  | execAlloc =>
    rw [hst] at ht
    have hact := (decodeCommand_fields s.action s.addr s.size).2.1
    exact (exec_st _ hinv.quiet ht).imp_right (Or.imp_left fun ⟨hwrx, hwrite, _⟩ => ⟨hwrx, hact.symm.trans hwrite⟩)
  | execRead =>
    rw [hst] at ht hseq
    obtain ⟨hb, -, -⟩ := hseq
    exact runRead_st hinv.quiet hb ht
  | execWrx =>
    rw [hst] at ht hseq
    obtain ⟨hb, -, -, hi⟩ := hseq
    exact (runWrite_st hinv.quiet hb hi hst ht).imp_right (Or.imp_left fun ⟨hwrx, _, hne⟩ => ⟨hwrx, hne⟩)
  | execWcommit =>
    rw [hst] at ht hseq
    obtain ⟨hb, -, -⟩ := hseq
    exact runCommit_st hinv.quiet hb ht
  | execInvalid =>
    rw [hst] at ht hseq
    obtain ⟨hb, -⟩ := hseq
    exact runInvalid_st hb ht
  | resp => rw [hst] at ht; exact respStep_st (hinv.respReady hst) hst ht

end Sys2Proof.Machine
end

section
/-! From a state with the invariant no step faults (R251): each sequencer state's own procedure `Meets` its ends, and a
procedure that meets its ends raises no fault. -/

namespace Sys2Proof.Machine

/-- A procedure that meets its conditions makes a step with a next state. -/
theorem Flow.Meets.exists_next {α : Type} {m : Flow α} {P : α → State → Prop} {W R : State → Prop} (h : m.Meets P W R) :
    ∃ t, m.outcome = .next t := h.outcome.imp fun _ ⟨ht, _⟩ => ht

theorem runRead_exists_next {s : State} (hq : Quiet s) (hb : HasBuffer s) : ∃ t, (runRead s).outcome = .next t := by
  obtain ⟨b, hb, hl, -, hr⟩ := hb
  exact (runRead_meets s b hq hb hl hr).exists_next

theorem runWrite_exists_next {s : State} (hq : Quiet s) (hb : HasBuffer s) (hi : s.i.toNat ≤ s.size.toNat) :
    ∃ t, (runWrite s).outcome = .next t := by
  obtain ⟨b, hb, hl, -, hr⟩ := hb
  rcases runWrite_meets s b hq hb hl hr hi with ⟨-, h⟩ | ⟨-, h⟩
  · exact h.exists_next
  · exact h.exists_next

theorem runCommit_exists_next {s : State} (hq : Quiet s) (hb : HasBuffer s) :
    ∃ t, (runCommit s).outcome = .next t := by
  obtain ⟨b, hb, hl, -, hr⟩ := hb
  exact (runCommit_meets s b hq hb hl hr).exists_next

theorem runInvalid_exists_next {s : State} (hb : HasBuffer s) : ∃ t, (runInvalid s).outcome = .next t := by
  obtain ⟨b, hb, hl, -, hr⟩ := hb
  exact (runInvalid_meets s b hb hl hr).exists_next

/-- A command faults from no state whose lines rest: it aborts, or its arm runs with the buffer EXEC_ALLOC made for it
(R203 to R205). -/
theorem exec_exists_next (i : Instr) {s : State} (hq : Quiet s) : ∃ t, exec i s = .next t := by
  by_cases hc : canAllocate s i.count
  · have hb := fun act => hasBuffer_entered act i.address i.count s hc
    rcases instr_cases i with hi | hi | hi
    · rw [hi, exec_read _ _ s hc]
      exact runRead_exists_next (s := dispatchRead (entered _ _ _ s)) hq (hb _)
    · rw [hi, exec_write _ _ s hc]
      exact runWrite_exists_next (s := dispatchWrite (entered _ _ _ s)) hq (hb _) (Nat.zero_le _)
    · rw [exec_invalid _ _ _ s i hi hc]
      exact runInvalid_exists_next (s := dispatchInvalid (entered _ _ _ s)) (hb _)
  · exact ⟨_, exec_abort i s hc⟩

/-- HDR's burst is taken only when its five bytes wait, so it underflows nothing, and the command it fetches does not
fault (R202). -/
theorem runFetched_exists_next {s : State} (hq : Quiet s) : ∃ t, runFetched (hdrStep s) = .next t := by
  have h := hdrStep_meets s
  generalize hdrStep s = m at h
  cases m with
  | ok i u =>
    obtain ⟨_, _, _, _, _, l, r, -, -, -, rfl⟩ := h
    exact exec_exists_next i (s := { s with rx := l, resetIn := r }) hq
  | wait u => exact ⟨u, rfl⟩
  | reset u => exact ⟨platformReset u, rfl⟩
  | fault f => exact h.elim

theorem coreStep_exists_next {s : State} (h : Inv s) : ∃ t, coreStep s = .next t := by
  have hseq := h.seq
  rw [SeqInv] at hseq
  rw [coreStep]
  cases hst : s.st with
  | sync => exact (syncStep_meets s).exists_next
  | hdr => exact runFetched_exists_next h.quiet
  | execAlloc => exact exec_exists_next _ h.quiet
  | execRead =>
    rw [hst] at hseq
    obtain ⟨hb, -, -⟩ := hseq
    exact runRead_exists_next h.quiet hb
  | execWrx =>
    rw [hst] at hseq
    obtain ⟨hb, -, -, hi⟩ := hseq
    exact runWrite_exists_next h.quiet hb hi
  | execWcommit =>
    rw [hst] at hseq
    obtain ⟨hb, -, -⟩ := hseq
    exact runCommit_exists_next h.quiet hb
  | execInvalid =>
    rw [hst] at hseq
    obtain ⟨hb, -⟩ := hseq
    exact runInvalid_exists_next hb
  | resp => exact (respStep_meets s (h.respReady hst)).exists_next

/-- Settles O54: a move of the host or the platform has a next state whatever the machine, and the CORE's step has one by
the procedure of its sequencer state. -/
theorem invStepsNeverFault : Obligations.InvStepsNeverFault := by
  intro s hinv
  cases hh : s.host with
  | nil =>
    rw [step_of_host_nil hh]
    exact coreStep_exists_next hinv
  | cons m agenda =>
    by_cases hm : m = .core
    · subst hm
      rw [step_of_host_core hh]
      exact coreStep_exists_next (hinv.set_host agenda)
    · exact ⟨_, step_of_host_move hm hh⟩

end Sys2Proof.Machine
end

section
/-! No step depends on a register that the command in progress has not written (R251, R23 to R30, R40): what each
sequencer state holds live is what its own procedure reads, so two machines that differ elsewhere step alike. -/

namespace Sys2Proof.Machine

variable {s t : State}

/-! ## What `LiveEq` says in each sequencer state -/

theorem Alike.st_eq (h : Alike s t) : t.st = s.st := by
  obtain ⟨_, _, _, _, _, _, _, _, _, _, rfl⟩ := h.out
  rfl

theorem Alike.host_eq (h : Alike s t) : t.host = s.host := by
  obtain ⟨_, _, _, _, _, _, _, _, _, _, rfl⟩ := h.out
  rfl

theorem Alike.observe_eq (h : Alike s t) : observe s = observe t := by
  obtain ⟨_, _, _, _, _, _, _, _, _, _, rfl⟩ := h.out
  rfl

/-- In SYNC and HDR no command is in progress, and no register of one is live. -/
theorem Alike.live_of_idle (h : Alike s t) (hst : s.st = .sync ∨ s.st = .hdr) : LiveEq s t :=
  ⟨h, fun hsync hhdr => absurd hst (not_or_intro hsync hhdr)⟩

/-- From EXEC_ALLOC's end on the command's registers are live, but for `ract` until the arm has written it. -/
theorem LiveEq.inCommand_ract {q : SeqState} (h : LiveEq s t) (hst : s.st = q)
    (hq : q ∉ [.sync, .hdr, .execAlloc] := by decide) : InCommand { s with ract := t.ract } t := by
  simp only [List.mem_cons, List.not_mem_nil, or_false, not_or, ← hst] at hq
  obtain ⟨hsync, hhdr, halloc⟩ := hq
  obtain ⟨halike, hlive⟩ := h
  obtain ⟨haction, haddr, hsize, hrsize, -, -⟩ := hlive hsync hhdr
  obtain ⟨hrsize, -⟩ := hrsize halloc
  obtain ⟨_, _, _, _, _, _, _, _, _, _, rfl⟩ := Alike.out halike
  subst haction haddr hsize hrsize
  exact ⟨_, _, _, _, _, rfl⟩

/-- In an arm that has written `ract` all the registers that a command's work reads are live. -/
theorem LiveEq.inCommand {q : SeqState} (h : LiveEq s t) (hst : s.st = q)
    (hq : q ∉ [.sync, .hdr, .execAlloc, .execInvalid] := by decide) : InCommand s t := by
  simp only [List.mem_cons, List.not_mem_nil, or_false, not_or, ← hst] at hq
  obtain ⟨hsync, hhdr, halloc, hinvalid⟩ := hq
  have hcommand := h.inCommand_ract rfl (by simp [hsync, hhdr, halloc])
  obtain ⟨-, hlive⟩ := h
  obtain ⟨-, -, -, hregs, -, -⟩ := hlive hsync hhdr
  rwa [← (hregs halloc).2 hinvalid] at hcommand

/-- In EXEC_WRX the collection index is live too (R28). -/
theorem LiveEq.inWrx (h : LiveEq s t) (hst : s.st = .execWrx) : InWrx s t := by
  obtain ⟨_, _, _, _, _, rfl⟩ := h.inCommand hst
  obtain ⟨-, hlive⟩ := h
  obtain ⟨-, -, -, -, hi, -⟩ := hlive (by simp [hst]) (by simp [hst])
  obtain rfl := hi hst
  exact ⟨hst, _, _, _, _, rfl⟩

/-- In RESP the response's positions are live too (R29). -/
theorem LiveEq.inResp (h : LiveEq s t) (hst : s.st = .resp) : InResp s t := by
  obtain ⟨_, _, _, _, _, rfl⟩ := h.inCommand hst
  obtain ⟨-, hlive⟩ := h
  obtain ⟨-, -, -, -, -, hpos⟩ := hlive (by simp [hst]) (by simp [hst])
  obtain ⟨rfl, rfl⟩ := hpos hst
  exact ⟨hst, _, _, _, rfl⟩

/-! ## SYNC and HDR, side by side -/

/-- SYNC reads its accumulator and the inbound stream only (R201). -/
theorem syncStep_twin (h : Alike s t) (hst : s.st = .sync) : (syncStep s).Twin (syncStep t) LiveEq LiveEq := by
  obtain ⟨_, _, _, _, _, _, _, _, _, _, rfl⟩ := h.out
  refine ite_twin Iff.rfl (fun _ => ?matched) fun _ => ite_twin Iff.rfl (fun _ => ?pop) fun _ => ?poll
  case matched => exact ⟨rfl, Alike.live_of_idle rfl (.inr rfl)⟩
  case pop =>
    refine event_twin h fun r => (rxPop_twin (by rfl)).bind fun b _ _ hpop => ?_
    obtain ⟨l, rfl, rfl⟩ := hpop
    exact ⟨rfl, Alike.live_of_idle rfl (.inl hst)⟩
  case poll => exact pollIdle_twin h fun _ _ => Alike.live_of_idle rfl (.inl hst)

/-- A pop touches no register and no line. -/
theorem rxPop_twin_quiet {W : State → State → Prop} (h : Alike s t ∧ Quiet s) :
    (rxPop s).Twin (rxPop t) (fun s' t' => Alike s' t' ∧ Quiet s') W := by
  obtain ⟨halike, hq⟩ := h
  refine (rxPop_twin halike).mono fun _ _ hpop => ?_
  obtain ⟨_, _, _, _, _, _, _, _, _, _, rfl⟩ := halike.out
  obtain ⟨l, rfl, rfl⟩ := hpop
  exact ⟨rfl, hq⟩

/-- HDR's burst decodes the same command from two alike states (R202). -/
theorem popCommand_twin {W : State → State → Prop} (h : Alike s t ∧ Quiet s) :
    (popCommand s).Twin (popCommand t) (fun s' t' => Alike s' t' ∧ Quiet s') W :=
  (rxPop_twin_quiet h).bind fun _ _ _ h => (rxPop_twin_quiet h).bind fun _ _ _ h =>
    (rxPop_twin_quiet h).bind fun _ _ _ h => (rxPop_twin_quiet h).bind fun _ _ _ h =>
      (rxPop_twin_quiet h).bind fun _ _ _ h => ⟨rfl, h⟩

/-- HDR reads the inbound stream only (R202). -/
theorem hdrStep_twin (h : Alike s t) (hq : Quiet s) (hst : s.st = .hdr) :
    (hdrStep s).Twin (hdrStep t) (fun s' t' => Alike s' t' ∧ Quiet s') LiveEq := by
  obtain ⟨_, _, _, _, _, _, _, _, _, _, rfl⟩ := h.out
  refine ite_twin Iff.rfl (fun _ => ?poll) fun _ => ?burst
  case poll => exact pollIdle_twin h fun _ _ => Alike.live_of_idle rfl (.inr hst)
  case burst => exact event_twin h fun r => popCommand_twin ⟨rfl, hq⟩

theorem LiveEq.refl (s : State) : LiveEq s s :=
  ⟨rfl, fun _ _ => ⟨rfl, rfl, rfl, fun _ => ⟨rfl, fun _ => rfl⟩, fun _ => rfl, fun _ => ⟨rfl, rfl⟩⟩⟩

/-- A command fetched alike is the same command, and reads none of the registers it finds. -/
theorem runFetched_twin {m m' : Flow Instr} (h : m.Twin m' (fun s t => Alike s t ∧ Quiet s) LiveEq) {s' : State}
    (hs : runFetched m = .next s') : ∃ t', runFetched m' = .next t' ∧ LiveEq s' t' := by
  cases m with
  | ok i u =>
    cases m' with
    | ok i' u' =>
      obtain ⟨rfl, halike, hq⟩ := h
      exact exec_twin i halike hq hs
    | wait | reset | fault => exact h.elim
  | wait u =>
    cases m' with
    | wait u' =>
      obtain rfl := Host.Outcome.next.inj hs
      exact ⟨u', rfl, h⟩
    | ok | reset | fault => exact h.elim
  | reset u =>
    cases m' with
    | reset u' =>
      have hreset : platformReset u = platformReset u' := h
      obtain rfl := Host.Outcome.next.inj hs
      exact ⟨platformReset u', rfl, hreset ▸ LiveEq.refl _⟩
    | ok | wait | fault => exact h.elim
  | fault f => cases hs

/-! ## The step -/

theorem coreStep_twin (hinv : Inv s) (h : LiveEq s t) {s' : State} (hs : coreStep s = .next s') :
    ∃ t', coreStep t = .next t' ∧ LiveEq s' t' := by
  have halike : Alike s t := h.1
  rw [coreStep] at hs ⊢
  rw [halike.st_eq]
  cases hst : s.st with
  | sync => rw [hst] at hs; exact (syncStep_twin halike hst).outcome hs
  | hdr => rw [hst] at hs; exact runFetched_twin (hdrStep_twin halike hinv.quiet hst) hs
  | execAlloc =>
    rw [hst] at hs
    obtain ⟨-, hlive⟩ := h
    obtain ⟨haction, haddr, hsize, -⟩ := hlive (by simp [hst]) (by simp [hst])
    rw [haction, haddr, hsize] at hs
    exact exec_twin _ halike hinv.quiet hs
  | execRead =>
    rw [hst] at hs
    exact (runRead_twin (h.inCommand hst) hinv.quiet).outcome hs
  | execWrx => rw [hst] at hs; exact (runWrite_twin (h.inWrx hst) hinv.quiet).outcome hs
  | execWcommit =>
    rw [hst] at hs
    exact (runCommit_twin (h.inCommand hst) hinv.quiet).outcome hs
  | execInvalid =>
    rw [hst] at hs
    exact (runInvalid_twin _ (h.inCommand_ract hst)).outcome hs
  | resp => rw [hst] at hs; exact (respStep_twin (h.inResp hst)).outcome hs

/-- The agenda is live in every state. -/
theorem LiveEq.set_host (h : LiveEq s t) (agenda : List HostMove) :
    LiveEq { s with host := agenda } { t with host := agenda } := by
  obtain ⟨halike, hlive⟩ := h
  obtain ⟨_, _, _, _, _, _, _, _, _, _, rfl⟩ := Alike.out halike
  exact ⟨rfl, hlive⟩

/-- A move of the host or the platform reads and writes no register. -/
theorem LiveEq.hostMove (h : LiveEq s t) (m : HostMove) : LiveEq (hostMove m s) (hostMove m t) := by
  obtain ⟨halike, hlive⟩ := h
  obtain ⟨_, _, _, _, _, _, _, _, _, _, rfl⟩ := Alike.out halike
  cases m with
  | send | accept | reset | core => exact ⟨rfl, hlive⟩

theorem step_twin (hinv : Inv s) (h : LiveEq s t) {s' : State} (hs : step s = .next s') :
    ∃ t', step t = .next t' ∧ LiveEq s' t' := by
  have hhost : t.host = s.host := Alike.host_eq h.1
  cases hh : s.host with
  | nil =>
    rw [step_of_host_nil hh] at hs
    rw [step_of_host_nil (hhost.trans hh)]
    exact coreStep_twin hinv h hs
  | cons m agenda =>
    by_cases hm : m = .core
    · subst hm
      rw [step_of_host_core hh] at hs
      rw [step_of_host_core (hhost.trans hh)]
      exact coreStep_twin (hinv.set_host agenda) (h.set_host agenda) hs
    · rw [step_of_host_move hm hh] at hs
      obtain rfl := Host.Outcome.next.inj hs
      exact ⟨_, step_of_host_move hm (hhost.trans hh), (h.set_host agenda).hostMove m⟩

/-- Settles O60: the two machines step side by side, and what R10 observes is none of the registers they differ in. -/
theorem noRegisterIsReadUnwritten : Obligations.NoRegisterIsReadUnwritten := by
  intro s t s' hinv hlive hs
  obtain ⟨t', ht, hlive'⟩ := step_twin hinv hlive hs
  exact ⟨t', ht, hlive', Alike.observe_eq hlive'.1⟩

end Sys2Proof.Machine
end

section
/-! The invariant at power-on, and kept by every step (R5, R98, R283, R286, R287): the device's part of it is kept by each
event engine, the sequencer's part is what each state's own procedure leaves, and a platform reset restores both. -/

namespace Sys2Proof.Machine

/-! ## The two parts of the invariant -/

/-- The part of the invariant that is not the sequencer's: the memory's form, the parameters' bounds, the lines at rest,
no standing contention, and the reserved bits (R5, R98, R283, R286). -/
def DeviceInv (s : State) : Prop :=
  Memory.wf s.mem ∧ s.cfg.wf ∧ Quiet s ∧ (s.dDir = .output → srDir s = true) ∧
    (s.srLatched = true → s.srQ &&& 0x7800 = 0)

theorem inv_iff {s : State} : Inv s ↔ DeviceInv s ∧ SeqInv s :=
  ⟨fun ⟨hmem, hcfg, hquiet, hbus, hrsvd, hseq⟩ => ⟨⟨hmem, hcfg, hquiet, hbus, hrsvd⟩, hseq⟩,
    fun ⟨⟨hmem, hcfg, hquiet, hbus, hrsvd⟩, hseq⟩ => ⟨hmem, hcfg, hquiet, hbus, hrsvd, hseq⟩⟩

theorem Inv.device {s : State} (h : Inv s) : DeviceInv s := (inv_iff.mp h).1

/-- From EXEC_ALLOC's end on the command holds its buffer (R203). -/
theorem Inv.hasBuffer {s : State} {q : SeqState} (h : Inv s) (hst : s.st = q)
    (hq : q ∉ [.sync, .hdr, .execAlloc] := by decide) : HasBuffer s := by
  have hseq := h.seq
  rw [SeqInv, hst] at hseq
  cases q with
  | sync | hdr | execAlloc => simp at hq
  | execRead | execWrx | execWcommit | execInvalid | resp => exact hseq.1

/-- In SYNC the sequencer's part asks only that the buffer is discarded (R32, R201). -/
theorem DeviceInv.inv_of_sync {s : State} (h : DeviceInv s) (hst : s.st = .sync) (hb : s.buf = none) : Inv s :=
  inv_iff.mpr ⟨h, by rwa [SeqInv, hst]⟩

/-- At the entry to RESP nothing of the response has been pushed (R209). -/
theorem DeviceInv.inv_enterResp {s : State} (h : DeviceInv s) (hb : HasBuffer s)
    (hact : s.ract = resolvedAction s.action) : Inv (enterResp s) :=
  inv_iff.mpr ⟨h, hb, hact, Nat.zero_le _, Nat.zero_le _, fun _ => rfl⟩

/-! ## Power-on and the platform reset -/

/-- With the reset values the lines rest and the CORE drives no bus; the memory and the parameters are given. -/
theorem inv_powerOn {cfg : Config.Params} {mem0 : Memory} (hcfg : cfg.wf) (hmem : Memory.wf mem0) :
    Inv (State.powerOn cfg mem0) :=
  DeviceInv.inv_of_sync ⟨hmem, hcfg, ⟨rfl, rfl, rfl, rfl⟩, BusDir.noConfusion, Bool.noConfusion⟩ rfl rfl

/-- Settles O52: `State.reset` is power-on with the default parameters and no listed cell. -/
theorem powerOnMeetsInv : Obligations.PowerOnMeetsInv := by
  refine ⟨fun cfg mem0 => inv_powerOn, inv_powerOn ?_ ⟨List.Pairwise.nil, fun c hc => absurd hc List.not_mem_nil⟩⟩
  decide

/-- A platform reset from wherever a step has gone on to restores the invariant, a torn cell included (R280, R282). -/
theorem Inv.platformReset {s u : State} (h : Inv s) (hf : Follows s u) : Inv (platformReset u) := by
  obtain ⟨hcfg, -, hmem, -, -⟩ := hf.trans (platformReset_follows u)
  exact DeviceInv.inv_of_sync ⟨hmem h.mem, hcfg ▸ h.cfg, ⟨rfl, rfl, rfl, rfl⟩, BusDir.noConfusion, Bool.noConfusion⟩
    rfl rfl

/-! ## The range operations -/

theorem DeviceInv.readOne {s : State} (h : DeviceInv s) (a : Half) : DeviceInv (readOne a s) := by
  obtain ⟨hmem, hcfg, hquiet, -, -⟩ := h
  exact ⟨hmem, hcfg, hquiet, BusDir.noConfusion, fun _ => encodeWord_rsvd _ _⟩

theorem DeviceInv.writeOne {s : State} (h : DeviceInv s) (a : Half) (v : Byte) : DeviceInv (writeOne a v s) := by
  obtain ⟨hmem, hcfg, hquiet, -, -⟩ := h
  exact ⟨memWrite_wf _ hmem _ (Nat.mod_lt _ (by decide)) v, hcfg, hquiet, fun _ => encodeWord_dir _ false,
    fun _ => encodeWord_rsvd _ _⟩

theorem DeviceInv.readMany {s : State} (h : DeviceInv s) (c : Nat) (a : Half) : DeviceInv (readMany c a s) := by
  induction c generalizing s with
  | zero => exact h
  | succ c ih => exact ih (h.readOne a)

theorem DeviceInv.writeMany {s : State} (h : DeviceInv s) (a : Half) (data : List Byte) :
    DeviceInv (writeMany a data s) := by
  induction data generalizing s with
  | nil => exact h
  | cons v l ih => exact ih (h.writeOne a v)

/-- A byte read goes to its place in the buffer, whose length stays (R170). -/
theorem HasBuffer.readMany {s : State} (h : HasBuffer s) (c : Nat) (a : Half) : HasBuffer (readMany c a s) := by
  induction c generalizing s with
  | zero => exact h
  | succ c ih =>
    obtain ⟨b, hb, hl, halloc, hr⟩ := h
    refine ih ⟨_, rfl, ?_, halloc, hr⟩
    rw [List.length_set, bufBytes, hb]
    exact hl

theorem HasBuffer.writeMany {s : State} (h : HasBuffer s) (a : Half) (data : List Byte) :
    HasBuffer (writeMany a data s) := by
  rw [writeMany_eq]
  exact h

/-- Payload bytes collected replace as many of the buffer's (R207). -/
theorem HasBuffer.collected {s : State} (h : HasBuffer s) {p : Nat} (r : Option Nat) (hrx : p ≤ s.rx.length)
    (hp : s.i.toNat + p ≤ s.size.toNat) : HasBuffer (collected p s r) := by
  obtain ⟨b, hb, hl, halloc, hr⟩ := h
  refine ⟨b.take s.i.toNat ++ s.rx.take p ++ b.drop (s.i.toNat + p), by simp [Machine.collected, hb], ?_, halloc, hr⟩
  show _ = s.size.toNat
  simp only [List.length_append, List.length_take, List.length_drop]
  omega

/-! ## What each command's own work leaves -/

theorem inv_readDone {s : State} (h : Inv s) (hst : s.st = .execRead) : Inv (readDone s) := by
  have hseq := h.seq
  rw [SeqInv, hst] at hseq
  obtain ⟨hb, haction, hract⟩ := hseq
  obtain ⟨hsaction, -, -, hsract, -, -⟩ := readDone_sameCommand s
  have hdevice : DeviceInv { s with k := 0 } := h.device
  refine (hdevice.readMany s.rsize.toNat s.addr).inv_enterResp (HasBuffer.readMany (s := { s with k := 0 }) hb _ _) ?_
  show (readDone s).ract = resolvedAction (readDone s).action
  rw [hsract, hsaction, hract, haction]
  rfl

theorem inv_writeDone {s : State} (h : Inv s) (hst : s.st = .execWcommit) : Inv (writeDone s) := by
  have hseq := h.seq
  rw [SeqInv, hst] at hseq
  obtain ⟨hb, haction, hract⟩ := hseq
  obtain ⟨hsaction, -, -, hsract, -, -⟩ := writeDone_sameCommand s
  have hdevice : DeviceInv { s with k := 0 } := h.device
  refine (hdevice.writeMany s.addr _).inv_enterResp (HasBuffer.writeMany (s := { s with k := 0 }) hb _ _) ?_
  show (writeDone s).ract = resolvedAction (writeDone s).action
  rw [hsract, hsaction, hract, haction]
  rfl

theorem inv_invalidDone {s : State} (h : Inv s) (hst : s.st = .execInvalid) : Inv (invalidDone s) := by
  have hseq := h.seq
  rw [SeqInv, hst] at hseq
  obtain ⟨hb, haction⟩ := hseq
  have hdevice : DeviceInv { s with ract := Config.invalidAct } := h.device
  exact hdevice.inv_enterResp hb haction.symm

theorem inv_filled {s : State} (h : Inv s) (hst : s.st = .execWrx)
    (hpay : s.size.toNat - s.i.toNat ≤ s.rx.length) : Inv (filled s) := by
  have hseq := h.seq
  rw [SeqInv, hst] at hseq
  obtain ⟨hb, haction, hract, hi⟩ := hseq
  exact inv_iff.mpr ⟨h.device, hb.filled hi hpay, haction, hract⟩

/-- A WRITE that waits has taken no more than its payload (R207, R212). -/
theorem inv_collected {s : State} (h : Inv s) (hst : s.st = .execWrx) (tr : List Event) (r : Option Nat)
    (hshort : s.rx.length < s.size.toNat - s.i.toNat) :
    Inv { collected s.rx.length s r with trace := tr } := by
  have hseq := h.seq
  rw [SeqInv, hst] at hseq
  obtain ⟨hb, haction, hract, -⟩ := hseq
  have hbuf : HasBuffer (collected s.rx.length s r) := hb.collected r le_rfl (by omega)
  have hi : (s.i + BitVec.ofNat 16 s.rx.length).toNat ≤ s.size.toNat := by
    rw [BitVec.toNat_add, BitVec.toNat_ofNat]
    omega
  refine inv_iff.mpr ⟨h.device, ?_⟩
  rw [SeqInv, show ({ collected s.rx.length s r with trace := tr } : State).st = .execWrx from hst]
  exact ⟨hbuf, haction, hract, hi⟩

/-! ## The response -/

theorem inv_responded {d : State} (h : Inv d) (r : Option Nat) : Inv (responded d r) :=
  DeviceInv.inv_of_sync h.device rfl rfl

/-- A held response stands in RESP, at the positions it has reached (R70, R209). -/
theorem Pushed.inv {d u : State} {more : List Byte} (hp : Pushed d u more) (h : Inv d) (hst : d.st = .resp) :
    Inv u := by
  have hseq := h.seq
  rw [SeqInv, hst] at hseq
  obtain ⟨hb, hract, -, -, -⟩ := hseq
  obtain ⟨⟨pos, jj, r, -, rfl⟩, -, ⟨-, hpos, hj, hfresh⟩, -⟩ := hp
  refine inv_iff.mpr ⟨h.device, ?_⟩
  rw [SeqInv]
  simp only [hst]
  exact ⟨hb, hract, hpos, hj, hfresh⟩

/-! ## The ends of a procedure -/

/-- A procedure that keeps the invariant at its own ends keeps it as a step: a reset inside it restores it. -/
theorem Flow.Meets.inv {α : Type} {m : Flow α} {s t : State} (hinv : Inv s)
    (h : m.Meets (fun _ u => Inv u) Inv (fun u => s.resetIn ≠ none ∧ Follows s u)) (ht : m.outcome = .next t) :
    Inv t := by
  obtain ⟨t', ht', hends⟩ := h.outcome
  obtain rfl : t' = t := Host.Outcome.next.inj (ht'.symm.trans ht)
  rcases hends with ⟨-, h⟩ | h | ⟨u, ⟨-, hf⟩, rfl⟩
  · exact h
  · exact h
  · exact hinv.platformReset hf

/-- A command whose own work leaves `d` with the invariant, whether its response completes, holds or is cut off. -/
theorem Flow.Responds.inv {m : Flow Unit} {s d t : State} (h : m.Responds s d) (hs : Inv s) (hd : Inv d)
    (hst : d.st = .resp) (ht : m.outcome = .next t) : Inv t := by
  refine Flow.Meets.inv hs (h.mono ?ok ?wait fun _ h => h) ht
  case ok =>
    rintro - u ⟨-, r, -, rfl⟩
    exact inv_responded hd r
  case wait =>
    rintro u ⟨more, hp, -, -⟩
    exact hp.inv hd hst

/-! ## The arms -/

theorem runRead_inv {s t : State} (h : Inv s) (hst : s.st = .execRead) (ht : (runRead s).outcome = .next t) : Inv t := by
  obtain ⟨b, hb, hl, -, hr⟩ := h.hasBuffer hst
  exact (runRead_meets s b h.quiet hb hl hr).inv h (inv_readDone h hst) rfl ht

theorem runCommit_inv {s t : State} (h : Inv s) (hst : s.st = .execWcommit) (ht : (runCommit s).outcome = .next t) :
    Inv t := by
  obtain ⟨b, hb, hl, -, hr⟩ := h.hasBuffer hst
  exact (runCommit_meets s b h.quiet hb hl hr).inv h (inv_writeDone h hst) rfl ht

theorem runInvalid_inv {s t : State} (h : Inv s) (hst : s.st = .execInvalid) (ht : (runInvalid s).outcome = .next t) :
    Inv t := by
  obtain ⟨b, hb, hl, -, hr⟩ := h.hasBuffer hst
  exact (runInvalid_meets s b hb hl hr).inv h (inv_invalidDone h hst) rfl ht

theorem runWrite_inv {s t : State} (h : Inv s) (hst : s.st = .execWrx) (ht : (runWrite s).outcome = .next t) :
    Inv t := by
  have hseq := h.seq
  rw [SeqInv, hst] at hseq
  obtain ⟨⟨b, hb, hl, -, hr⟩, -, -, hi⟩ := hseq
  rcases runWrite_meets s b h.quiet hb hl hr hi with ⟨hpay, hdone⟩ | ⟨hshort, hwait⟩
  · exact hdone.inv h (inv_writeDone (inv_filled h hst hpay) rfl) rfl ht
  · refine Flow.Meets.inv h (hwait.mono (fun _ _ h => h.elim) ?_ fun _ h => h) ht
    rintro u ⟨r, -, rfl⟩
    exact inv_collected h hst _ r hshort

theorem respStep_inv {s t : State} (h : Inv s) (hst : s.st = .resp) (ht : (respStep s).outcome = .next t) : Inv t := by
  refine Flow.Meets.inv h ((respStep_meets s (h.respReady hst)).mono ?ok ?wait ?reset) ht
  case ok =>
    rintro - u ⟨-, r, -, rfl⟩
    exact inv_responded h r
  case wait =>
    rintro u ⟨more, hp, -, -⟩
    exact hp.inv h hst
  case reset =>
    rintro u ⟨hdue, more, hp⟩
    exact ⟨hdue, hp.follows⟩

theorem syncStep_inv {s t : State} (h : Inv s) (hst : s.st = .sync) (ht : (syncStep s).outcome = .next t) : Inv t := by
  have hbuf := h.seq
  rw [SeqInv, hst] at hbuf
  refine Flow.Meets.inv h ((syncStep_meets s).mono ?ok ?wait ?reset) ht
  case ok =>
    rintro - u (⟨hacc, rfl⟩ | ⟨-, b, l, r, -, -, rfl⟩)
    · exact inv_iff.mpr ⟨h.device, hbuf, hacc⟩
    · exact DeviceInv.inv_of_sync h.device hst hbuf
  case wait =>
    rintro u ⟨-, -, r, -, rfl⟩
    exact DeviceInv.inv_of_sync h.device hst hbuf
  case reset =>
    rintro u ⟨hdue, rfl⟩
    exact ⟨hdue, .refl u⟩

/-! ## A whole command, and the step -/

/-- EXEC_ALLOC's dispatch enters each arm with its registers written, whatever they held (R203, R205). -/
theorem inv_readEntered {s : State} (h : DeviceInv s) (addr : Half) {size : Half} (hc : canAllocate s size) :
    Inv (readEntered addr size s) :=
  inv_iff.mpr ⟨h, hasBuffer_entered Config.actRead addr size s hc, rfl, rfl⟩

theorem inv_writeEntered {s : State} (h : DeviceInv s) (addr : Half) {size : Half} (hc : canAllocate s size) :
    Inv (writeEntered addr size s) :=
  inv_iff.mpr ⟨h, hasBuffer_entered Config.actWrite addr size s hc, rfl, rfl, Nat.zero_le _⟩

theorem inv_invalidEntered {s : State} (h : DeviceInv s) {act : Byte} (addr : Half) {size : Half}
    (hc : canAllocate s size) (hact : resolvedAction act = Config.invalidAct) :
    Inv (dispatchInvalid (entered act addr size s)) :=
  inv_iff.mpr ⟨h, hasBuffer_entered act addr size s hc, hact⟩

/-- A well-formed command reads no register it finds, so the device's part is all it needs. -/
theorem exec_inv {i : Instr} (hwf : i.wf = true) {s t : State} (h : DeviceInv s) (ht : exec i s = .next t) : Inv t := by
  by_cases hc : canAllocate s i.count
  · rcases instr_cases i with hi | hi | hi
    · rw [hi, exec_read _ _ s hc] at ht
      exact runRead_inv (inv_readEntered h i.address hc) rfl ht
    · rw [hi, exec_write _ _ s hc] at ht
      exact runWrite_inv (inv_writeEntered h i.address hc) rfl ht
    · rw [exec_invalid _ _ _ s i hi hc] at ht
      exact runInvalid_inv (inv_invalidEntered h i.address hc (resolvedAction_of_mem_invalidRows hi hwf)) rfl ht
  · rw [exec_abort i s hc] at ht
    obtain rfl := Host.Outcome.next.inj ht
    exact DeviceInv.inv_of_sync h rfl rfl

/-- HDR and the command it fetches, which is well-formed whatever the bytes are (R93, R202). -/
theorem runFetched_inv {s t : State} (h : Inv s) (hst : s.st = .hdr) (ht : runFetched (hdrStep s) = .next t) :
    Inv t := by
  have hmeets := hdrStep_meets s
  generalize hdrStep s = m at hmeets ht
  cases m with
  | ok i u =>
    obtain ⟨b4, b5, b6, b7, b8, l, r, -, -, rfl, rfl⟩ := hmeets
    exact exec_inv (decodeCommand_fields b4 _ _).1 (s := { s with rx := l, resetIn := r }) h.device ht
  | wait u =>
    obtain ⟨-, r, -, rfl⟩ := hmeets
    obtain rfl := Host.Outcome.next.inj ht
    exact inv_iff.mpr ⟨h.device, h.seq⟩
  | reset u =>
    obtain ⟨-, rfl⟩ := hmeets
    obtain rfl := Host.Outcome.next.inj ht
    exact h.platformReset (.refl u)
  | fault f => exact hmeets.elim

theorem coreStep_inv {s t : State} (h : Inv s) (ht : coreStep s = .next t) : Inv t := by
  rw [coreStep] at ht
  cases hst : s.st with
  | sync => rw [hst] at ht; exact syncStep_inv h hst ht
  | hdr => rw [hst] at ht; exact runFetched_inv h hst ht
  | execAlloc => rw [hst] at ht; exact exec_inv (decodeCommand_fields _ _ _).1 h.device ht
  | execRead => rw [hst] at ht; exact runRead_inv h hst ht
  | execWrx => rw [hst] at ht; exact runWrite_inv h hst ht
  | execWcommit => rw [hst] at ht; exact runCommit_inv h hst ht
  | execInvalid => rw [hst] at ht; exact runInvalid_inv h hst ht
  | resp => rw [hst] at ht; exact respStep_inv h hst ht

/-- The streams, the room and a reset due are no part of the invariant. -/
theorem Inv.hostMove {s : State} (h : Inv s) (m : HostMove) : Inv (hostMove m s) := by
  cases m with
  | send | accept | reset => exact inv_iff.mpr ⟨h.device, h.seq⟩
  | core => exact h

/-- Settles O53: the CORE's step by the procedure of its sequencer state, a move of the host or the platform by
`Inv.hostMove`. -/
theorem stepKeepsInv : Obligations.StepKeepsInv := by
  intro s t hinv ht
  rcases step_cases ht with ⟨agenda, hcore⟩ | ⟨m, agenda, -, -, rfl⟩
  · exact coreStep_inv (hinv.set_host agenda) hcore
  · exact (hinv.set_host agenda).hostMove m

end Sys2Proof.Machine
end

section
/-! The platform reset (R280, R282): the values it gives, the one cell it can tear inside a write, and the CORE's step in
which a reset due at once is taken. -/

namespace Sys2Proof.Machine

/-! ## The device's cells -/

/-- With no write under way a platform reset leaves every cell (R280). -/
theorem platformReset_mem_of_idle {u : State} (hw : u.weN = true) (hb : u.wcBusy = false) :
    (platformReset u).mem = u.mem := by
  rw [platformReset_mem, tearCell, if_neg (by simp [hw, hb])]

/-- Inside a write a platform reset leaves a free value in the cell addressed (R282; log entry 10). -/
theorem platformReset_mem_of_window {u : State} (h : u.weN = false ∨ u.wcBusy = true) :
    (platformReset u).mem = memWrite u.mem (srAddr u).toNat (Config.tornByte u.draws) := by
  rw [platformReset_mem, tearCell, if_pos h]

/-- Settles O31: the values stand in `platformReset` as written, and no cell is torn outside a write. -/
theorem platformResetValues : Obligations.PlatformResetValues := fun s =>
  ⟨_, rfl, rfl, rfl, rfl, rfl, rfl, rfl, rfl, rfl, rfl, rfl, platformReset_rx s, platformReset_tx s, platformReset_cfg s,
    platformReset_mem_of_idle⟩

/-! ## A reset inside write_byte -/

/-- The cell under write is torn whether its commit has been made or not, and it alone (R282). -/
theorem Writing.memRead_platformReset {s u : State} {a : DevAddr} {v : Byte} (h : Writing s a v u)
    (hm : Memory.wf s.mem) (x : Nat) :
    memRead (platformReset u).mem x = if x = a.toNat then Config.tornByte s.draws else memRead s.mem x := by
  rw [platformReset_mem_of_window h.window, h.addr, h.draws]
  rcases h.mem with hmem | hmem <;> rw [hmem]
  · exact memRead_memWrite s.mem hm.1 a.toNat _ x
  · rw [memRead_memWrite _ (memWrite_sorted s.mem hm.1 a.toNat v) a.toNat _ x, memRead_memWrite s.mem hm.1 a.toNat v x]
    split <;> rfl

/-- Settles O30: `writeByte_runs` says what the reset finds, and after its 56 events none has fallen. -/
theorem resetInsideWriteTearsOneCell : Obligations.ResetInsideWriteTearsOneCell := by
  intro a v s n hquiet hm hr
  have hruns := writeByte_runs a v s hquiet
  refine ⟨fun hn => ?setup, fun hlo hhi => ?pulse, fun hn => ?after⟩
  case setup =>
    obtain ⟨u, hu, hends⟩ := hruns.cut n hr (by omega)
    rw [if_pos hn] at hends
    obtain ⟨-, -, hweN, hbusy⟩ := hquiet
    have hmem := platformReset_mem_of_idle (hends.weN.trans hweN) (hends.wcBusy.trans hbusy)
    exact ⟨platformReset u, by rw [hu]; rfl, rfl, by rw [platformReset_resets, hends.resets], hmem.trans hends.mem,
      (platformReset_rx u).trans hends.rx, (platformReset_tx u).trans hends.tx⟩
  case pulse =>
    obtain ⟨u, hu, hends⟩ := hruns.cut n hr (by omega)
    rw [if_neg (by omega)] at hends
    have hcells := hends.memRead_platformReset hm
    rw [setWidth_toNat_mod] at hcells
    exact ⟨platformReset u, by rw [hu]; rfl, rfl, by rw [platformReset_resets, hends.resets], rfl,
      (platformReset_rx u).trans hends.rx, (platformReset_tx u).trans hends.tx, hcells⟩
  case after =>
    have hdone := hruns.done (by rwa [hr, allows_some])
    rw [hr, spend_some] at hdone
    exact ⟨_, hdone, rfl, rfl⟩

/-! ## A reset due at once -/

theorem pollIdle_due {α : Type} {s : State} (hr : s.resetIn = some 0) : (pollIdle s : Flow α) = .reset s := by
  rw [pollIdle, delay, tick_due hr]
  rfl

/-- SYNC without a match takes a byte or polls, and the reset falls before either (R201, R282). -/
theorem syncStep_due {s : State} (hr : s.resetIn = some 0) (hacc : s.acc ≠ Config.magic) : syncStep s = .reset s := by
  rw [syncStep, if_neg hacc]
  split
  · rw [tick_due hr, Flow.bind_reset]
  · exact pollIdle_due hr

/-- HDR polls or takes its burst, and the reset falls before either (R202, R282). -/
theorem hdrStep_due {s : State} (hr : s.resetIn = some 0) : hdrStep s = .reset s := by
  rw [hdrStep]
  split
  · exact pollIdle_due hr
  · rw [tick_due hr, Flow.bind_reset]

theorem coreStep_due {s : State} (h : Inv s) (hr : s.resetIn = some 0) (hsync : s.st = .sync → s.acc ≠ Config.magic)
    (halloc : s.st = .execAlloc → canAllocate s s.size) (hresp : s.st = .resp → s.respPos < 9 ∨ s.j ≠ s.rsize) :
    coreStep s = .next (platformReset s) := by
  rw [coreStep]
  cases hst : s.st with
  | sync => exact congrArg Flow.outcome (syncStep_due hr (hsync hst))
  | hdr => exact congrArg runFetched (hdrStep_due hr)
  | execAlloc =>
    obtain ⟨-, -, -, hcount⟩ := decodeCommand_fields s.action s.addr s.size
    exact exec_due _ (by rw [hcount]; exact halloc hst) hr
  | execRead => exact (runRead_due (h.hasBuffer hst) hr).outcome
  | execWrx => exact (runWrite_due (h.hasBuffer hst) hr).outcome
  | execWcommit => exact (runCommit_due (h.hasBuffer hst) hr).outcome
  | execInvalid => exact (runInvalid_due hr).outcome
  | resp => exact congrArg Flow.outcome (respStep_due (h.respReady hst) hr (hresp hst))

/-- The CORE's turn, by the agenda or for want of one (R9; log entry 11). -/
theorem step_of_turn {s : State} {agenda : List HostMove}
    (h : s.host = [] ∧ agenda = [] ∨ s.host = .core :: agenda) : step s = coreStep { s with host := agenda } := by
  rcases h with ⟨hh, rfl⟩ | hh
  · rw [step_of_host_nil hh, ← hh]
  · exact step_of_host_core hh

/-- Settles O32: in every state but the three the procedure begins with an event, or with a part of a command that makes
none. -/
theorem dueResetIsTaken : Obligations.DueResetIsTaken := by
  intro s agenda hturn hr hinv hsync halloc hresp
  rw [step_of_turn hturn]
  exact coreStep_due (hinv.set_host agenda) hr hsync halloc hresp

end Sys2Proof.Machine
end

section
/-! The shift register's outputs while bits are shifted, and at the strobe (R121, R285). -/

namespace Sys2Proof.Machine

/-- A sequence that completes has completed its first procedure. -/
theorem Flow.exists_of_bind_eq_ok {α β : Type} {m : Flow α} {f : α → State → Flow β} {w : β} {t : State}
    (h : m.bind f = .ok w t) : ∃ v u, m = .ok v u ∧ f v u = .ok w t := by
  cases m with
  | ok v u => exact ⟨v, u, rfl, h⟩
  | wait | reset | fault => cases h

/-- An event that completes has spent at most the countdown before its effect (R282). -/
theorem drive_eq_ok {l : Line} {x : Bool} {s t : State} (h : drive l x s = .ok () t) :
    ∃ r, setLine l x (record (.drive l x) { s with resetIn := r }) = .ok () t := by
  obtain ⟨_, u, hu, h⟩ := Flow.exists_of_bind_eq_ok h
  have htick := tick_meets s
  rw [hu] at htick
  obtain ⟨r, -, rfl⟩ := htick
  exact ⟨r, h⟩

/-- What the outputs show, and the device's cells, stand in `t` as in `s` (R285). -/
structure OutputsHeld (s t : State) : Prop where
  srQ : t.srQ = s.srQ
  srLatched : t.srLatched = s.srLatched
  resets : t.resets = s.resets
  mem : t.mem = s.mem

theorem OutputsHeld.trans {s t u : State} (h : OutputsHeld s t) (h' : OutputsHeld t u) : OutputsHeld s u :=
  ⟨h'.srQ.trans h.srQ, h'.srLatched.trans h.srLatched, h'.resets.trans h.resets, h'.mem.trans h.mem⟩

theorem OutputsHeld.srOut_eq {s t : State} (h : OutputsHeld s t) : srOut t = srOut s := by
  rw [srOut, h.srLatched, h.srQ, h.resets, srOut]

theorem driveData_outputsHeld {b : Bool} {s t : State} (h : drive .srData b s = .ok () t) : OutputsHeld s t := by
  obtain ⟨r, h⟩ := drive_eq_ok h
  cases h
  exact ⟨rfl, rfl, rfl, rfl⟩

/-- The clock moves the shift stage only, whether it rises or not (R121). -/
theorem driveClk_outputsHeld {x : Bool} {s t : State} (h : drive .srClk x s = .ok () t) : OutputsHeld s t := by
  obtain ⟨r, h⟩ := drive_eq_ok h
  rw [setLine] at h
  split at h
  · cases h
    exact ⟨rfl, rfl, rfl, rfl⟩
  · cases h
    exact ⟨rfl, rfl, rfl, rfl⟩

theorem srShiftBit_outputsHeld {b : Bool} {s t : State} (h : srShiftBit b s = .ok () t) : OutputsHeld s t := by
  obtain ⟨_, u, hdata, h⟩ := Flow.exists_of_bind_eq_ok h
  obtain ⟨_, u', hrise, hfall⟩ := Flow.exists_of_bind_eq_ok h
  exact (driveData_outputsHeld hdata).trans ((driveClk_outputsHeld hrise).trans (driveClk_outputsHeld hfall))

theorem srShiftBits_outputsHeld {bits : List Bool} {s t : State} (h : srShiftBits bits s = .ok () t) :
    OutputsHeld s t := by
  induction bits generalizing s with
  | nil =>
    cases h
    exact ⟨rfl, rfl, rfl, rfl⟩
  | cons b r ih =>
    obtain ⟨_, u, hbit, h⟩ := Flow.exists_of_bind_eq_ok h
    exact (srShiftBit_outputsHeld hbit).trans (ih h)

/-- A strobe that raises no fault loads every output from the shift stage (R121, R285). -/
theorem driveLatchHigh_srOut {s t : State} (hl : s.srLatch = false) (h : drive .srLatch true s = .ok () t) :
    srOut t = s.srShift := by
  obtain ⟨r, h⟩ := drive_eq_ok h
  rw [setLine, if_pos (by simp [hl]), onLatchRise] at h
  split at h
  · cases h
  · cases h
    rfl

/-- Settles O18: bit by bit no event of the shifting is a strobe, and the strobe copies the whole stage. -/
theorem outputsHoldWhileShifting : Obligations.OutputsHoldWhileShifting := by
  refine fun bits s t => ⟨fun h => ?_, driveLatchHigh_srOut⟩
  have hheld := srShiftBits_outputsHeld h
  have hout := hheld.srOut_eq
  exact ⟨hout, by rw [srAddr, hout, srAddr], by rw [srDir, hout, srDir], hheld.mem⟩

end Sys2Proof.Machine
end

section
/-! Where a contention is recorded (R64, R286): only where the lines turn to output while a read's word stands on the
outputs. -/

namespace Sys2Proof.Machine

/-- sr_write's strobe records no contention when only one side can drive the lines (R121). -/
theorem contention_not_mem_srEvents {d : BusDir} {w : Half} (h : d = .input ∨ w.getLsbD 15 = true) :
    .contention ∉ srEvents d w := by
  have hmark : strobeMark d w = [] := if_neg (by rcases h with h | h <;> simp [h])
  simp [srEvents, bitEvents, hmark]

/-- read_byte turns the lines away before its strobe (R140). -/
theorem contention_not_mem_readEvents (a : Half) : .contention ∉ readEvents a := by
  simp [readEvents, contention_not_mem_srEvents (.inl rfl)]

/-- The events of write_byte after the turn of the lines (R141). -/
def eventsAfterTurn (p : Config.Params) (a : Half) (v : Byte) : List Event :=
  srEvents .output (encodeWord a false) ++ [.driveBus v] ++ pulseEvents p

theorem writeByteEvents_eq (p : Config.Params) (mark : List Event) (a : Half) (v : Byte) :
    writeByteEvents p mark a v = [.setDir .output] ++ mark ++ eventsAfterTurn p a v := by
  simp only [writeByteEvents, eventsAfterTurn, List.append_assoc]

/-- write_byte's own word keeps the device off the lines (R98, R141). -/
theorem contention_not_mem_eventsAfterTurn (p : Config.Params) (a : Half) (v : Byte) :
    .contention ∉ eventsAfterTurn p a v := by
  simp [eventsAfterTurn, pulseEvents, contention_not_mem_srEvents (.inr (encodeWord_dir a false))]

/-- After a read the device drives the lines, so their turn is a contention (R64, the vector B1). -/
theorem turnMark_afterRead (a : Half) (s : State) : turnMark (afterRead a s) = [.contention] :=
  if_pos ⟨rfl, encodeWord_dir a true⟩

/-- After a write the lines are the CORE's already (R286, the vector B2). -/
theorem turnMark_afterWrite (a : Half) (v : Byte) (s : State) : turnMark (afterWrite a v s) = [] :=
  if_neg fun h => BusDir.noConfusion h.1

/-- Settles O28: the second operation's events are its own, with the mark its first event makes of the state that the
first operation leaves. -/
theorem writeByteContentionWindow : Obligations.WriteByteContentionWindow := by
  intro a b c v w s t hs
  refine ⟨fun x hread => ?afterRead, fun hwrite => ⟨?writeAfterWrite, ?readAfterWrite⟩⟩
  case afterRead =>
    obtain ⟨-, rfl⟩ := Flow.ok.inj ((readByte_ok a hs).symm.trans hread)
    refine ⟨_, eventsAfterTurn s.cfg b v, writeByte_ok b v (hs.afterRead a), ?_,
      contention_not_mem_eventsAfterTurn s.cfg b v⟩
    rw [afterWrite, turnMark_afterRead, writeByteEvents_eq]
    simp only [List.append_assoc]
    rfl
  all_goals obtain ⟨-, rfl⟩ := Flow.ok.inj ((writeByte_ok a v hs).symm.trans hwrite)
  case writeAfterWrite =>
    refine ⟨_, _, writeByte_ok b w (hs.afterWrite a v), rfl, ?_⟩
    rw [turnMark_afterWrite, writeByteEvents_eq]
    simp [contention_not_mem_eventsAfterTurn]
  case readAfterWrite =>
    exact ⟨_, _, readEvents c, readByte_ok c (hs.afterWrite a v), rfl, contention_not_mem_readEvents c⟩

end Sys2Proof.Machine
end

section
/-! The least times of the operations (R289; log entry 17): the times of the events of their traces, added up. -/

namespace Sys2Proof.Machine

theorem traceMinTime_append (p : Config.Params) (l r : List Event) :
    traceMinTime p (l ++ r) = traceMinTime p l + traceMinTime p r := by
  rw [traceMinTime, List.map_append, List.sum_append, traceMinTime, traceMinTime]

/-- Three events for each bit (R120). -/
theorem traceMinTime_bitEvents (p : Config.Params) (bits : List Bool) :
    traceMinTime p (bitEvents bits) = 3 * bits.length * p.tSr := by
  induction bits with
  | nil => rw [List.length_nil, Nat.mul_zero, Nat.zero_mul]; rfl
  | cons b r ih =>
    have hbit : traceMinTime p (bitEvents [b]) = 3 * p.tSr := by
      simp [traceMinTime, bitEvents, eventMinTime]
      omega
    rw [show bitEvents (b :: r) = bitEvents [b] ++ bitEvents r from rfl, traceMinTime_append, hbit, ih,
      List.length_cons, ← Nat.add_mul]
    congr 1
    omega

/-- The contention marker is no event and takes no time (R10). -/
theorem traceMinTime_strobeMark (p : Config.Params) (d : BusDir) (w : Half) : traceMinTime p (strobeMark d w) = 0 := by
  unfold strobeMark
  split <;> rfl

theorem traceMinTime_srEvents (p : Config.Params) (d : BusDir) (w : Half) :
    traceMinTime p (srEvents d w) = 50 * p.tSr := by
  have hedge : ∀ x, traceMinTime p [.drive .srLatch x] = p.tSr := fun _ => rfl
  have hbits : (msbFirst w).length = 16 := rfl
  simp only [srEvents, traceMinTime_append, traceMinTime_bitEvents, traceMinTime_strobeMark, hedge, hbits]
  omega

theorem traceMinTime_readEvents (p : Config.Params) (a : Half) :
    traceMinTime p (readEvents a) = 52 * p.tSr + p.tAcc := by
  have hturn : traceMinTime p [.setDir .input] = p.tSr := rfl
  have hsample : traceMinTime p [.sample] = p.tSr + p.tAcc := rfl
  rw [readEvents, traceMinTime_append, traceMinTime_append, traceMinTime_srEvents, hturn, hsample]
  omega

/-- The pulse's two delays are part of its time (R142). -/
theorem le_traceMinTime_pulseEvents (p : Config.Params) : p.tWe + p.tSettle ≤ traceMinTime p (pulseEvents p) := by
  show _ ≤ p.tSr + (p.tWe + (p.tSr + (p.tSettle + 0)))
  omega

/-- write_byte ends in its pulse (R141). -/
theorem le_traceMinTime_writeByteEvents (p : Config.Params) (mark : List Event) (a : Half) (v : Byte) :
    p.tWe + p.tSettle ≤ traceMinTime p (writeByteEvents p mark a v) := by
  rw [writeByteEvents, traceMinTime_append]
  exact (le_traceMinTime_pulseEvents p).trans (Nat.le_add_left _ _)

theorem le_traceMinTime_writeRangeEvents (p : Config.Params) (mark : List Event) (a : Half) (data : List Byte) :
    data.length * (p.tWe + p.tSettle) ≤ traceMinTime p (writeRangeEvents p mark a data) := by
  induction data generalizing mark a with
  | nil => rw [List.length_nil, Nat.zero_mul]; exact Nat.zero_le _
  | cons v r ih =>
    rw [writeRangeEvents, traceMinTime_append, List.length_cons, Nat.succ_mul, Nat.add_comm]
    exact Nat.add_le_add (le_traceMinTime_writeByteEvents p mark a v) (ih [] (a + 1))

/-- Settles O29: each operation leaves the trace its own events, whose times add up. -/
theorem leastTimes : Obligations.LeastTimes := by
  intro a w v data s t hs hl
  have ⟨⟨hclk, hlatch, hweN, _⟩, hr⟩ := hs
  refine ⟨fun h => ?srWrite, fun x h => ?readByte, fun h => ?writeByte, fun h => ?writeRange⟩
  case srWrite =>
    obtain ⟨-, rfl⟩ := Flow.ok.inj ((srWrite_ok w hclk hlatch hweN hr).symm.trans h)
    exact ⟨_, rfl, traceMinTime_srEvents s.cfg s.dDir w⟩
  case readByte =>
    obtain ⟨-, rfl⟩ := Flow.ok.inj ((readByte_ok a hs).symm.trans h)
    exact ⟨_, rfl, traceMinTime_readEvents s.cfg a⟩
  case writeByte =>
    obtain ⟨-, rfl⟩ := Flow.ok.inj ((writeByte_ok a v hs).symm.trans h)
    exact ⟨_, rfl, le_traceMinTime_writeByteEvents s.cfg (turnMark s) a v⟩
  case writeRange =>
    obtain ⟨-, rfl⟩ := Flow.ok.inj ((writeRange_ok a data hs hl).symm.trans h)
    have htime := le_traceMinTime_writeRangeEvents s.cfg (turnMark s) a (data.take (fits a.toNat data.length))
    rw [length_take_fits] at htime
    exact ⟨_, rangeWritten_trace a s hl, htime⟩

end Sys2Proof.Machine
end
